-- ==== Sys2Proof/Word.lean ====
section
/-! DEFINITION. Word.lean: the two value widths of the machine (00_scope.md R1). -/

namespace Sys2Proof

/-- A byte, "the universal value type" (00_scope.md R1): data registers, `IR`, `FLAGS`, memory, ports. -/
abbrev Byte := BitVec 8

/-- An unsigned 16-bit address or operand (00_scope.md R1): `PC`, `SP`, bus addresses, DMA registers. Its
addition is modulo 2^16 (20_memory.md R44). -/
abbrev Word := BitVec 16

end Sys2Proof
end

