-- ==== Sys2Proof/Syntax.lean ====
section
/-! DEFINITION. Syntax.lean: the 60 instructions of the opcode map (30_encoding.md R86), one constructor per row of
the opcode table. The register operands are part of the opcode (R85), so only `imm8`, `addr16` and `imm16` are fields
(formats `OP_I8` and `OP_I16`, R82 and R83). -/

namespace Sys2Proof

/-- An instruction: what the opcode byte and its operand bytes stand for (30_encoding.md R80 to R86). -/
inductive Instr where
  | nop  -- NOP, R212
  | halt  -- HALT, R210
  | syscall (imm8 : Byte)  -- SYSCALL, R211
  | ei  -- EI, R200
  | di  -- DI, R201
  | iret  -- IRET, R202
  | setSp (imm16 : Word)  -- SET_SP, R188
  | movAImm (imm8 : Byte)  -- MOV_A_IMM, R120
  | movBImm (imm8 : Byte)  -- MOV_B_IMM, R121
  | movCImm (imm8 : Byte)  -- MOV_C_IMM, R122
  | movDImm (imm8 : Byte)  -- MOV_D_IMM, R123
  | movAMem (addr16 : Word)  -- MOV_A_MEM, R124
  | movBMem (addr16 : Word)  -- MOV_B_MEM, R125
  | movCMem (addr16 : Word)  -- MOV_C_MEM, R126
  | movDMem (addr16 : Word)  -- MOV_D_MEM, R127
  | movMemA (addr16 : Word)  -- MOV_MEM_A, R128
  | movMemB (addr16 : Word)  -- MOV_MEM_B, R129
  | movMemC (addr16 : Word)  -- MOV_MEM_C, R130
  | movMemD (addr16 : Word)  -- MOV_MEM_D, R131
  | movAB  -- MOV_A_B, R132
  | movAC  -- MOV_A_C, R133
  | movAD  -- MOV_A_D, R134
  | movBA  -- MOV_B_A, R135
  | movBC  -- MOV_B_C, R136
  | movBD  -- MOV_B_D, R137
  | movCA  -- MOV_C_A, R138
  | movCB  -- MOV_C_B, R139
  | movCD  -- MOV_C_D, R140
  | movDA  -- MOV_D_A, R141
  | movDB  -- MOV_D_B, R142
  | movDC  -- MOV_D_C, R143
  | add  -- ADD, R150
  | sub  -- SUB, R151
  | and  -- AND, R152
  | or  -- OR, R153
  | xor  -- XOR, R154
  | addImm (imm8 : Byte)  -- ADD_IMM, R155
  | subImm (imm8 : Byte)  -- SUB_IMM, R156
  | andImm (imm8 : Byte)  -- AND_IMM, R157
  | orImm (imm8 : Byte)  -- OR_IMM, R158
  | xorImm (imm8 : Byte)  -- XOR_IMM, R159
  | incA  -- INC_A, R160
  | incB  -- INC_B, R161
  | incC  -- INC_C, R162
  | incD  -- INC_D, R163
  | decA  -- DEC_A, R164
  | decB  -- DEC_B, R165
  | decC  -- DEC_C, R166
  | decD  -- DEC_D, R167
  | pushA  -- PUSH_A, R190
  | pushB  -- PUSH_B, R191
  | pushC  -- PUSH_C, R192
  | pushD  -- PUSH_D, R193
  | popA  -- POP_A, R194
  | popB  -- POP_B, R195
  | popC  -- POP_C, R196
  | popD  -- POP_D, R197
  | jmp (addr16 : Word)  -- JMP, R180
  | jz (addr16 : Word)  -- JZ, R181
  | jnz (addr16 : Word)  -- JNZ, R182
deriving DecidableEq, Repr

end Sys2Proof
end

