-- ==== Sys2Proof/Decode.lean ====
section
/-! DEFINITION. Decode.lean: bytes to instructions and back (30_encoding.md). The opcode map is a parameter
(00_scope.md R3, 92_eei_decisions.md D1); `refOpcodes` is the map of 30_encoding.md R86. -/

namespace Sys2Proof

/-! ## Byte order (00_scope.md section 5, 20_memory.md R53) -/

/-- `lo8(v) = v[7:0]`. -/
def lo8 (v : Word) : Byte := v.extractLsb' 0 8

/-- `hi8(v) = v[15:8]`. -/
def hi8 (v : Word) : Byte := v.extractLsb' 8 8

/-- The concatenation `{h, l} = 256*h + l`. -/
def concat16 (h l : Byte) : Word := h ++ l

/-! ## Mnemonics and formats -/

/-- The selector an opcode byte names: a row of the opcode map (30_encoding.md R86), without its operand. -/
inductive Mnemonic where
  | NOP | HALT | SYSCALL | EI | DI | IRET | SET_SP | MOV_A_IMM | MOV_B_IMM | MOV_C_IMM | MOV_D_IMM 
  | MOV_A_MEM | MOV_B_MEM | MOV_C_MEM | MOV_D_MEM | MOV_MEM_A | MOV_MEM_B | MOV_MEM_C | MOV_MEM_D | MOV_A_B 
  | MOV_A_C | MOV_A_D | MOV_B_A | MOV_B_C | MOV_B_D | MOV_C_A | MOV_C_B | MOV_C_D | MOV_D_A | MOV_D_B 
  | MOV_D_C | ADD | SUB | AND | OR | XOR | ADD_IMM | SUB_IMM | AND_IMM | OR_IMM | XOR_IMM | INC_A | INC_B 
  | INC_C | INC_D | DEC_A | DEC_B | DEC_C | DEC_D | PUSH_A | PUSH_B | PUSH_C | PUSH_D | POP_A | POP_B | POP_C 
  | POP_D | JMP | JZ | JNZ 
deriving DecidableEq, Repr

/-- The three formats of 30_encoding.md R81 to R83. -/
inductive Format where
  | op | opI8 | opI16
deriving DecidableEq, Repr

/-- How many operand bytes follow the opcode (30_encoding.md R80 to R83). -/
def Format.operandCount : Format → Nat
  | .op => 0
  | .opI8 => 1
  | .opI16 => 2

/-- The length of an instruction of this format in bytes (30_encoding.md R89). -/
def Format.length (f : Format) : Nat := f.operandCount + 1

/-- The format of each row of the opcode map (30_encoding.md R86). -/
def Mnemonic.format : Mnemonic → Format
  | .NOP | .HALT | .EI | .DI | .IRET | .MOV_A_B | .MOV_A_C | .MOV_A_D | .MOV_B_A | .MOV_B_C | .MOV_B_D
  | .MOV_C_A | .MOV_C_B | .MOV_C_D | .MOV_D_A | .MOV_D_B | .MOV_D_C | .ADD | .SUB | .AND | .OR | .XOR
  | .INC_A | .INC_B | .INC_C | .INC_D | .DEC_A | .DEC_B | .DEC_C | .DEC_D | .PUSH_A | .PUSH_B | .PUSH_C
  | .PUSH_D | .POP_A | .POP_B | .POP_C | .POP_D => .op
  | .SYSCALL | .MOV_A_IMM | .MOV_B_IMM | .MOV_C_IMM | .MOV_D_IMM | .ADD_IMM | .SUB_IMM | .AND_IMM | .OR_IMM
  | .XOR_IMM => .opI8
  | .SET_SP | .MOV_A_MEM | .MOV_B_MEM | .MOV_C_MEM | .MOV_D_MEM | .MOV_MEM_A | .MOV_MEM_B | .MOV_MEM_C
  | .MOV_MEM_D | .JMP | .JZ | .JNZ => .opI16

/-- The instruction a mnemonic makes with its operand value (30_encoding.md R84): `w` is the 16-bit operand, or the
unsigned 8-bit literal in its low byte, and is not used by format `OP`. -/
def Mnemonic.toInstr (m : Mnemonic) (w : Word) : Instr :=
  match m with
  | .NOP => .nop
  | .HALT => .halt
  | .SYSCALL => .syscall (lo8 w)
  | .EI => .ei
  | .DI => .di
  | .IRET => .iret
  | .SET_SP => .setSp w
  | .MOV_A_IMM => .movAImm (lo8 w)
  | .MOV_B_IMM => .movBImm (lo8 w)
  | .MOV_C_IMM => .movCImm (lo8 w)
  | .MOV_D_IMM => .movDImm (lo8 w)
  | .MOV_A_MEM => .movAMem w
  | .MOV_B_MEM => .movBMem w
  | .MOV_C_MEM => .movCMem w
  | .MOV_D_MEM => .movDMem w
  | .MOV_MEM_A => .movMemA w
  | .MOV_MEM_B => .movMemB w
  | .MOV_MEM_C => .movMemC w
  | .MOV_MEM_D => .movMemD w
  | .MOV_A_B => .movAB
  | .MOV_A_C => .movAC
  | .MOV_A_D => .movAD
  | .MOV_B_A => .movBA
  | .MOV_B_C => .movBC
  | .MOV_B_D => .movBD
  | .MOV_C_A => .movCA
  | .MOV_C_B => .movCB
  | .MOV_C_D => .movCD
  | .MOV_D_A => .movDA
  | .MOV_D_B => .movDB
  | .MOV_D_C => .movDC
  | .ADD => .add
  | .SUB => .sub
  | .AND => .and
  | .OR => .or
  | .XOR => .xor
  | .ADD_IMM => .addImm (lo8 w)
  | .SUB_IMM => .subImm (lo8 w)
  | .AND_IMM => .andImm (lo8 w)
  | .OR_IMM => .orImm (lo8 w)
  | .XOR_IMM => .xorImm (lo8 w)
  | .INC_A => .incA
  | .INC_B => .incB
  | .INC_C => .incC
  | .INC_D => .incD
  | .DEC_A => .decA
  | .DEC_B => .decB
  | .DEC_C => .decC
  | .DEC_D => .decD
  | .PUSH_A => .pushA
  | .PUSH_B => .pushB
  | .PUSH_C => .pushC
  | .PUSH_D => .pushD
  | .POP_A => .popA
  | .POP_B => .popB
  | .POP_C => .popC
  | .POP_D => .popD
  | .JMP => .jmp w
  | .JZ => .jz w
  | .JNZ => .jnz w

/-- The row of the opcode map an instruction belongs to. -/
def Instr.mnemonic : Instr → Mnemonic
  | .nop => .NOP
  | .halt => .HALT
  | .syscall _ => .SYSCALL
  | .ei => .EI
  | .di => .DI
  | .iret => .IRET
  | .setSp _ => .SET_SP
  | .movAImm _ => .MOV_A_IMM
  | .movBImm _ => .MOV_B_IMM
  | .movCImm _ => .MOV_C_IMM
  | .movDImm _ => .MOV_D_IMM
  | .movAMem _ => .MOV_A_MEM
  | .movBMem _ => .MOV_B_MEM
  | .movCMem _ => .MOV_C_MEM
  | .movDMem _ => .MOV_D_MEM
  | .movMemA _ => .MOV_MEM_A
  | .movMemB _ => .MOV_MEM_B
  | .movMemC _ => .MOV_MEM_C
  | .movMemD _ => .MOV_MEM_D
  | .movAB => .MOV_A_B
  | .movAC => .MOV_A_C
  | .movAD => .MOV_A_D
  | .movBA => .MOV_B_A
  | .movBC => .MOV_B_C
  | .movBD => .MOV_B_D
  | .movCA => .MOV_C_A
  | .movCB => .MOV_C_B
  | .movCD => .MOV_C_D
  | .movDA => .MOV_D_A
  | .movDB => .MOV_D_B
  | .movDC => .MOV_D_C
  | .add => .ADD
  | .sub => .SUB
  | .and => .AND
  | .or => .OR
  | .xor => .XOR
  | .addImm _ => .ADD_IMM
  | .subImm _ => .SUB_IMM
  | .andImm _ => .AND_IMM
  | .orImm _ => .OR_IMM
  | .xorImm _ => .XOR_IMM
  | .incA => .INC_A
  | .incB => .INC_B
  | .incC => .INC_C
  | .incD => .INC_D
  | .decA => .DEC_A
  | .decB => .DEC_B
  | .decC => .DEC_C
  | .decD => .DEC_D
  | .pushA => .PUSH_A
  | .pushB => .PUSH_B
  | .pushC => .PUSH_C
  | .pushD => .PUSH_D
  | .popA => .POP_A
  | .popB => .POP_B
  | .popC => .POP_C
  | .popD => .POP_D
  | .jmp _ => .JMP
  | .jz _ => .JZ
  | .jnz _ => .JNZ

/-- The operand bytes of an instruction in address order, low byte first (30_encoding.md R81 to R83). -/
def Instr.operandBytes : Instr → List Byte
  | .nop | .halt | .ei | .di | .iret | .movAB | .movAC | .movAD | .movBA | .movBC | .movBD | .movCA
  | .movCB | .movCD | .movDA | .movDB | .movDC | .add | .sub | .and | .or | .xor | .incA | .incB | .incC
  | .incD | .decA | .decB | .decC | .decD | .pushA | .pushB | .pushC | .pushD | .popA | .popB | .popC
  | .popD => []
  | .syscall v | .movAImm v | .movBImm v | .movCImm v | .movDImm v | .addImm v | .subImm v | .andImm v
  | .orImm v | .xorImm v => [v]
  | .setSp w | .movAMem w | .movBMem w | .movCMem w | .movDMem w | .movMemA w | .movMemB w | .movMemC w
  | .movMemD w | .jmp w | .jz w | .jnz w => [lo8 w, hi8 w]

/-! ## The opcode map -/

/-- An opcode map: the byte of each mnemonic, in the order of the table (00_scope.md section 4, `OPCODE(m)`). -/
abbrev OpcodeMap := List (Mnemonic × Byte)

/-- REF's opcode map, system and data movement rows (30_encoding.md R86). -/
def refOpcodesA : OpcodeMap :=
  [(.NOP, 0x00), (.HALT, 0x01), (.SYSCALL, 0x02), (.EI, 0x03), (.DI, 0x04), (.IRET, 0x05), (.SET_SP, 0x06),
   (.MOV_A_IMM, 0x10), (.MOV_B_IMM, 0x11), (.MOV_C_IMM, 0x12), (.MOV_D_IMM, 0x13), (.MOV_A_MEM, 0x14),
   (.MOV_B_MEM, 0x15), (.MOV_C_MEM, 0x16), (.MOV_D_MEM, 0x17), (.MOV_MEM_A, 0x18), (.MOV_MEM_B, 0x19),
   (.MOV_MEM_C, 0x1A), (.MOV_MEM_D, 0x1B), (.MOV_A_B, 0x21), (.MOV_A_C, 0x22), (.MOV_A_D, 0x23),
   (.MOV_B_A, 0x24), (.MOV_B_C, 0x26), (.MOV_B_D, 0x27), (.MOV_C_A, 0x28), (.MOV_C_B, 0x29), (.MOV_C_D, 0x2B),
   (.MOV_D_A, 0x2C), (.MOV_D_B, 0x2D), (.MOV_D_C, 0x2E)]

/-- REF's opcode map, arithmetic, stack and control flow rows (30_encoding.md R86). -/
def refOpcodesB : OpcodeMap :=
  [(.ADD, 0x30), (.SUB, 0x31), (.AND, 0x32), (.OR, 0x33), (.XOR, 0x34), (.ADD_IMM, 0x38), (.SUB_IMM, 0x39),
   (.AND_IMM, 0x3A), (.OR_IMM, 0x3B), (.XOR_IMM, 0x3C), (.INC_A, 0x40), (.INC_B, 0x41), (.INC_C, 0x42),
   (.INC_D, 0x43), (.DEC_A, 0x44), (.DEC_B, 0x45), (.DEC_C, 0x46), (.DEC_D, 0x47), (.PUSH_A, 0x50),
   (.PUSH_B, 0x51), (.PUSH_C, 0x52), (.PUSH_D, 0x53), (.POP_A, 0x54), (.POP_B, 0x55), (.POP_C, 0x56),
   (.POP_D, 0x57), (.JMP, 0x60), (.JZ, 0x61), (.JNZ, 0x62)]

/-- The opcode map of 30_encoding.md R86 (92_eei_decisions.md D1). -/
def refOpcodes : OpcodeMap := refOpcodesA ++ refOpcodesB

/-- The mnemonics in the table's order (30_encoding.md R86). -/
def Mnemonic.all : List Mnemonic :=
  [.NOP, .HALT, .SYSCALL, .EI, .DI, .IRET, .SET_SP, .MOV_A_IMM, .MOV_B_IMM, .MOV_C_IMM, .MOV_D_IMM, .MOV_A_MEM,
   .MOV_B_MEM, .MOV_C_MEM, .MOV_D_MEM, .MOV_MEM_A, .MOV_MEM_B, .MOV_MEM_C, .MOV_MEM_D, .MOV_A_B, .MOV_A_C,
   .MOV_A_D, .MOV_B_A, .MOV_B_C, .MOV_B_D, .MOV_C_A, .MOV_C_B, .MOV_C_D, .MOV_D_A, .MOV_D_B, .MOV_D_C, .ADD,
   .SUB, .AND, .OR, .XOR, .ADD_IMM, .SUB_IMM, .AND_IMM, .OR_IMM, .XOR_IMM, .INC_A, .INC_B, .INC_C, .INC_D,
   .DEC_A, .DEC_B, .DEC_C, .DEC_D, .PUSH_A, .PUSH_B, .PUSH_C, .PUSH_D, .POP_A, .POP_B, .POP_C, .POP_D, .JMP,
   .JZ, .JNZ]

/-- The mnemonic an opcode byte selects, `none` for an unrecognised opcode (30_encoding.md R86, R87). -/
def OpcodeMap.mnemonicOf (t : OpcodeMap) (op : Byte) : Option Mnemonic :=
  (t.find? (fun row => row.2 == op)).map Prod.fst

/-- The opcode byte of a mnemonic (`OPCODE(m)`); a map that lacks the row is not well formed, and 0x00 is answered. -/
def OpcodeMap.byteOf (t : OpcodeMap) (m : Mnemonic) : Byte :=
  ((t.find? (fun row => row.1 == m)).map Prod.snd).getD 0x00

/-! ## Decoding -/

/-- What a byte sequence decodes to. -/
inductive Decoded where
  /-- a recognised instruction and the bytes after it -/
  | instr (i : Instr) (rest : List Byte)
  /-- an opcode byte that is not in the map: a diagnosed one-byte no-op (30_encoding.md R87) -/
  | unrecognized (opcode : Byte) (rest : List Byte)
  /-- the sequence ends before the instruction does -/
  | truncated
deriving DecidableEq, Repr

/-- The operand of a format, taken from the bytes after the opcode (30_encoding.md R84). -/
def Format.operand : Format → List Byte → Option (Word × List Byte)
  | .op, bs => some (0, bs)
  | .opI8, v :: bs => some (concat16 0 v, bs)
  | .opI16, lo :: hi :: bs => some (concat16 hi lo, bs)
  | .opI8, [] => none
  | .opI16, [] => none
  | .opI16, [_] => none

/-- Decoding, total on any byte sequence (30_encoding.md R86 to R89). -/
def decode (t : OpcodeMap) : List Byte → Decoded
  | [] => .truncated
  | op :: bs =>
    match t.mnemonicOf op with
    | none => .unrecognized op bs
    | some m =>
      match m.format.operand bs with
      | some (w, rest) => .instr (m.toInstr w) rest
      | none => .truncated

/-- The length in bytes of what starts with this opcode byte, recognised or not (30_encoding.md R87, R89). -/
def lengthOf (t : OpcodeMap) (op : Byte) : Nat :=
  match t.mnemonicOf op with
  | none => 1
  | some m => m.format.length

/-- The length of an instruction in bytes (30_encoding.md R80). -/
def Instr.length (i : Instr) : Nat := i.mnemonic.format.length

/-- The bytes of an instruction (30_encoding.md R81 to R84). -/
def encode (t : OpcodeMap) (i : Instr) : List Byte := t.byteOf i.mnemonic :: i.operandBytes

/-- The three bytes, first byte lowest, of an instruction whose bits are `w` and of which the table numbers `nbits`;
every bit above `nbits` is 0. Three bytes is the longest instruction (30_encoding.md R80). -/
def tableBytes (nbits w : Nat) : List Byte :=
  let v := w % 2 ^ nbits
  [BitVec.ofNat 8 v, BitVec.ofNat 8 (v / 2 ^ 8), BitVec.ofNat 8 (v / 2 ^ 16)]

/-- The instruction REF's decoder reads from an instruction's bits as the opcode table numbers them. -/
def decodeTableWord (nbits w : Nat) : Option Instr :=
  match decode refOpcodes (tableBytes nbits w) with
  | .instr i _ => some i
  | .unrecognized _ _ => none
  | .truncated => none

end Sys2Proof
end

