-- ==== Sys2Proof/Config.lean ====
section
/-! DEFINITION. Config.lean: what an implementation fixes (the configuration record `Cfg` of 00_scope.md section 4, as
raw data) and the free value of the machine, the answer of a device outside the block (50_dma_and_devices.md R222). The
well-formedness of a configuration is in WellFormed.lean, the reference configuration REF in Machine/Reference.lean. -/

namespace Sys2Proof

/-- The configuration record of 00_scope.md section 4, before the checks of R2 and R3. `IRQ_OF` has no field: the
environment's requests name their line themselves (entry 7). -/
structure CfgData where
  romStart : Word
  romEnd : Word
  ioStart : Word
  ioEnd : Word
  ramStart : Word
  ramEnd : Word
  resetVector : Word
  stackEnd : Word
  ramMaxEntries : Nat
  /-- slot of the interrupt controller -/
  intcDev : Nat
  /-- slot of the DMA engine -/
  dmaDev : Nat
  /-- slot of the Timer, a device outside the block (entry 5) -/
  timerDev : Nat
  /-- the registered devices outside the block (20_memory.md R52) -/
  devices : List Nat
  dmaSrcAddrLoPort : Nat
  dmaSrcAddrHiPort : Nat
  dmaSrcDataPort : Nat
  stepsPerTick : Nat
  opcodes : OpcodeMap
deriving DecidableEq, Repr

/-- What a device outside the block sees of the block (50_dma_and_devices.md R222, R223). -/
inductive DeviceEvent where
  | read (dev port : Nat)
  | write (dev port : Nat) (value : Byte)
  /-- `DevicesManager.reset()`, which reaches every registered device -/
  | reset
deriving DecidableEq, Repr

/-- What a device outside the block does at a port access (50_dma_and_devices.md R222): the byte it answers (not used at
a write) and the lines of the `requestInterrupt` calls it makes before it returns, in order. -/
structure PortReply where
  value : Byte
  requests : List Nat
deriving DecidableEq, Repr, Inhabited

/-- DESIGN CHOICE, safe (entry 6). The environment's answer to a port access, given all accesses so far, the present one
last: a free value, which nothing constrains (93_implementation_defined.md V1, V2). It is used where State lists no
answer. -/
opaque Config.portReply : List DeviceEvent → PortReply

end Sys2Proof
end

