-- ==== Sys2Proof/WellFormed.lean ====
section
/-! DEFINITION. WellFormed.lean: which instructions and which configurations the model accepts (30_encoding.md R88,
00_scope.md R2 and R3). -/

namespace Sys2Proof

/-! ## Instructions -/

/-- Every operand value is legal for every instruction that takes one (30_encoding.md R88), and the operand fields have
the encoding's widths, so every instruction is well formed. -/
def Instr.wf (_ : Instr) : Bool := true

/-! ## Configurations -/

/-- R2, D33: the three ranges are non-empty. -/
def CfgData.rangesNonempty (c : CfgData) : Bool :=
  c.romStart ≤ c.romEnd && c.ioStart ≤ c.ioEnd && c.ramStart ≤ c.ramEnd

/-- R2: the three ranges are pairwise disjoint. -/
def CfgData.rangesDisjoint (c : CfgData) : Bool :=
  (c.romEnd < c.ioStart || c.ioEnd < c.romStart) &&
  (c.romEnd < c.ramStart || c.ramEnd < c.romStart) &&
  (c.ioEnd < c.ramStart || c.ramEnd < c.ioStart)

/-- How many addresses an inclusive range holds. -/
def rangeSize (first last : Word) : Nat := last.toNat + 1 - first.toNat

/-- R2: the union of the three ranges is the whole space. For non-empty disjoint ranges this is that their sizes add up
to 2^16. -/
def CfgData.rangesCover (c : CfgData) : Bool :=
  rangeSize c.romStart c.romEnd + rangeSize c.ioStart c.ioEnd + rangeSize c.ramStart c.ramEnd == 65536

/-- R3: `INTC_DEV`, `DMA_DEV` and every other registered device id are distinct values in 0 to 15. That the Timer is
registered is not asked (entry 5). -/
def CfgData.devicesOk (c : CfgData) : Bool :=
  decide (c.intcDev :: c.dmaDev :: c.devices).Nodup && (c.intcDev :: c.dmaDev :: c.devices).all (· < 16)

/-- R3: `RAM_MAX_ENTRIES >= 1` and `STEPS_PER_TICK >= 1`. -/
def CfgData.countsOk (c : CfgData) : Bool := 1 ≤ c.ramMaxEntries && 1 ≤ c.stepsPerTick

/-- The three DMA source ports are ports: values in 0 to 15 (R1). -/
def CfgData.dmaPortsOk (c : CfgData) : Bool :=
  c.dmaSrcAddrLoPort < 16 && c.dmaSrcAddrHiPort < 16 && c.dmaSrcDataPort < 16

/-- R3: `OPCODE` gives every mnemonic one byte and no two mnemonics share a byte. -/
def OpcodeMap.wf (t : OpcodeMap) : Bool :=
  decide (t.map Prod.fst = Mnemonic.all) && decide (t.map Prod.snd).Nodup

/-- A configuration the model takes (00_scope.md R2, R3; "nothing is specified for any other"). -/
def CfgData.wf (c : CfgData) : Bool :=
  c.rangesNonempty && c.rangesDisjoint && c.rangesCover && c.devicesOk && c.countsOk && c.dmaPortsOk && c.opcodes.wf

/-- A well-formed configuration. An ill-formed one cannot be built (93_implementation_defined.md U4: it is refused). -/
structure Cfg extends CfgData where
  ok : toCfgData.wf = true
deriving DecidableEq, Repr

end Sys2Proof
end

