-- ==== Sys2Proof/Machine/Reference.lean ====
section
/-! DEFINITION. Machine/Reference.lean: the reference configuration REF (00_scope.md section 4, 92_eei_decisions.md D15,
D16, D21, D24, D30). -/

namespace Sys2Proof.Machine

/-- REF as 00_scope.md section 4 lists it. DESIGN CHOICE (entry 3): the Timer's slot is the only slot that holds a device
outside the block; the spec leaves every other slot to the configuration. -/
def refData : CfgData where
  romStart := 0x8100
  romEnd := 0xFFFF
  ioStart := 0x8000
  ioEnd := 0x80FF
  ramStart := 0x0000
  ramEnd := 0x7FFF
  resetVector := 0x8100
  stackEnd := 0x7FFF
  ramMaxEntries := 0x8000
  intcDev := 0
  dmaDev := 1
  timerDev := 2
  devices := [2]
  dmaSrcAddrLoPort := 0
  dmaSrcAddrHiPort := 1
  dmaSrcDataPort := 2
  stepsPerTick := 1
  opcodes := refOpcodes

theorem refData_wf : refData.wf = true := by decide

/-- The reference configuration REF. -/
def refCfg : Cfg := { toCfgData := refData, ok := refData_wf }

end Sys2Proof.Machine
end

