-- ==== Sys2Proof/Machine/State.lean ====
section
/-! DEFINITION. Machine/State.lean: the state of the block (10_state.md), the reasons a step can stop, and the state
after a cold reset (10_state.md R31). -/

namespace Sys2Proof.Machine

/-- The four data registers (10_state.md R10). -/
inductive Reg where
  | A | B | C | D
deriving DecidableEq, Repr

/-- The CPU's run state (10_state.md R18). -/
inductive RunState where
  | running | halted
deriving DecidableEq, Repr

/-- The state of one interrupt request line (10_state.md R22). -/
inductive LineState where
  | idle | pending | servicing
deriving DecidableEq, Repr

/-- Whether a diagnosed port access was a read or a write (60_exceptions.md R270). -/
inductive AccessKind where
  | read | write
deriving DecidableEq, Repr

/-- The diagnostic records of 60_exceptions.md R270, with their payloads. -/
inductive Diagnostic where
  | writeToReadOnly (addr : Word) (value : Byte)
  | unknownPort (dev port : Nat) (kind : AccessKind)
  | storageOverflow (addr : Word)
  | dmaOutOfRange (target : Word) (size : Nat)
  | unrecognizedOpcode (addr : Word) (opcode : Byte)
  | invalidInterruptReturn (addr : Word)
  | unknownSyscall (addr : Word) (n : Byte)
deriving DecidableEq, Repr

/-- The byte store behind a bank: (bus address, byte) pairs with strictly rising addresses and no byte equal to what an
unlisted address reads as, which is 0x00 (20_memory.md R45, R47). -/
abbrev Memory := List Host.Cell

/-- The canonical form of a byte store. -/
def Memory.wf : Memory → Bool
  | [] => true
  | (_, v) :: [] => v != 0
  | (a, v) :: (b, w) :: m => v != 0 && decide (a < b) && Memory.wf ((b, w) :: m)

/-- The Ram bank (10_state.md R27). `RAM.map` has an entry exactly for the addresses of `order`; the byte of an entry is
the one `cells` gives. -/
structure Ram where
  cells : Memory
  /-- the addresses that have an entry, in the order in which their entries were created -/
  order : List Word
deriving DecidableEq, Repr

/-- The interrupt controller (10_state.md section 3). -/
structure Intc where
  /-- `IE`, the global enable (R20) -/
  ie : Bool
  /-- `ENABLE`, one bit a line (R21) -/
  enable : Byte
  /-- `LINE[0]` to `LINE[7]` (R22) -/
  lines : Vector LineState 8
  /-- `HANDLER_LOW` (R23) -/
  handlerLow : Byte
  /-- `HANDLER_HIGH` (R23) -/
  handlerHigh : Byte
deriving DecidableEq, Repr

/-- The DMA engine's registers (10_state.md R25). -/
structure Dma where
  /-- `DMA.DEV` -/
  dev : Byte
  /-- `DMA.SRC_START` -/
  srcStart : Word
  /-- `DMA.SRC_END` -/
  srcEnd : Word
  /-- `DMA.TARGET` -/
  target : Word
deriving DecidableEq, Repr

/-- The environment as an oracle (40_execution_cycle.md R110, 50_dma_and_devices.md R222); the model's own fields
(entries 6 and 7). -/
structure Env where
  /-- the answers to the coming accesses to devices outside the block; past the end, `Config.portReply` answers -/
  replies : List PortReply
  /-- the `requestInterrupt` calls at the coming turn boundaries; past the end, there are none -/
  boundary : List (List Nat)
  /-- the accesses to devices outside the block so far, oldest first -/
  trace : List DeviceEvent
deriving DecidableEq, Repr

/-- The state of the block (10_state.md), with the configuration it was built with and the environment's script. -/
structure State where
  /-- the configuration, fixed for the machine (10_state.md R30) -/
  cfg : Cfg
  /-- `A`, the accumulator (R10) -/
  a : Byte
  /-- `B` (R10) -/
  b : Byte
  /-- `C` (R10) -/
  c : Byte
  /-- `D` (R10) -/
  d : Byte
  /-- `PC` (R11) -/
  pc : Word
  /-- `SP` (R12) -/
  sp : Word
  /-- `IR` (R13) -/
  ir : Byte
  /-- `FLAGS`: bit 0 Carry, bit 1 Zero, bits 7:2 zero (R14) -/
  flags : Byte
  /-- `RUN` (R18) -/
  run : RunState
  /-- `INH`, the handler context (R19) -/
  inh : Bool
  intc : Intc
  dma : Dma
  /-- the Rom bank (R26) -/
  rom : Memory
  ram : Ram
  /-- `DIAG`, oldest record first (R29) -/
  diag : List Diagnostic
  env : Env
  /-- how many steps of the current turn have been made (40_execution_cycle.md R100); the model's own field (entry 8) -/
  turnStep : Nat
deriving DecidableEq, Repr

/-- Faults: none. No condition of this machine stops it with a fault (60_exceptions.md R271, R272; 20_memory.md R42,
R43: an access never faults). Safe: there is no constructor to raise. -/
inductive Fault where
deriving DecidableEq, Repr

/-- Refusals of the model. -/
inductive Refusal where
  /-- Raised by exec's arm of an instruction that has no meaning yet; no arm raises it now. Safe: the model stops where
  the machine goes on. -/
  | notModelled (mnemonic : String)
  /-- Raised by `nextIf`, for a store, a push or an interrupt entry whose write triggers a DMA transfer that never ends: the
  engine is its own source device and an address port is its trigger, so that each transfer starts the next
  (93_implementation_defined.md V4; entry 4). Safe: the machine never comes to the end of that step. -/
  | endlessTransfer
deriving DecidableEq, Repr

/-- The machine after a cold reset with configuration `c`, before any load (10_state.md R31, 70_reset_and_hazards.md
R290). The environment's script is empty and a turn is about to begin (entry 12). -/
def coldReset (c : Cfg) : State where
  cfg := c
  a := 0
  b := 0
  c := 0
  d := 0
  pc := c.resetVector
  sp := c.stackEnd
  ir := 0
  flags := 0
  run := .running
  inh := false
  intc := { ie := false, enable := 0, lines := Vector.replicate 8 .idle, handlerLow := 0, handlerHigh := 0 }
  dma := { dev := 0, srcStart := 0, srcEnd := 0, target := 0 }
  rom := []
  ram := { cells := [], order := [] }
  diag := []
  env := { replies := [], boundary := [], trace := [] }
  turnStep := 0

/-- The machine right after a cold reset in the reference configuration REF (entry 2). -/
def State.reset : State := coldReset refCfg

end Sys2Proof.Machine
end

