-- ==== Sys2Proof/Machine/Memory.lean ====
section
/-! DEFINITION. Machine/Memory.lean: byte stores, the Rom and Ram banks, the address decoder and the diagnostic log
(20_memory.md sections 1 to 3, 60_exceptions.md R270). -/

namespace Sys2Proof.Machine

/-- What an address that nothing is listed for reads as (20_memory.md R45, R47). -/
def unlistedByte : Byte := 0x00

/-- The byte at an address. -/
def Memory.read : Memory → Nat → Byte
  | [], _ => unlistedByte
  | (k, v) :: m, a => if a = k then v else Memory.read m a

/-- Store one byte, keeping the canonical form. -/
def Memory.write : Memory → Nat → Byte → Memory
  | [], a, v => if v = unlistedByte then [] else [(a, v)]
  | (k, w) :: m, a, v =>
    if a < k then (if v = unlistedByte then (k, w) :: m else (a, v) :: (k, w) :: m)
    else if a = k then (if v = unlistedByte then m else (a, v) :: m)
    else (k, w) :: Memory.write m a v

/-- `diag K(info)`: append one record and change nothing else (60_exceptions.md R270). -/
def addDiag (s : State) (d : Diagnostic) : State := { s with diag := s.diag ++ [d] }

/-- The three regions of the bus address space (20_memory.md R41). -/
inductive Region where
  | rom | io | ram
deriving DecidableEq, Repr

/-- `ROM_START <= a <= ROM_END` (R41). -/
def inRom (c : Cfg) (a : Word) : Bool := c.romStart ≤ a && a ≤ c.romEnd

/-- `IO_START <= a <= IO_END` (R41). -/
def inIo (c : Cfg) (a : Word) : Bool := c.ioStart ≤ a && a ≤ c.ioEnd

/-- `RAM_START <= a <= RAM_END` (R41). -/
def inRam (c : Cfg) (a : Word) : Bool := c.ramStart ≤ a && a ≤ c.ramEnd

/-- `Decode(a)` (R41). Exactly one of the three tests holds, so the third need not be made. -/
def regionOf (c : Cfg) (a : Word) : Region :=
  if inRom c a then .rom else if inIo c a then .io else .ram

/-- `RomRead(a)` (20_memory.md R45). -/
def romRead (s : State) (a : Word) : Byte := s.rom.read a.toNat

/-- `RomWrite(a, v)`: refused with a diagnostic (20_memory.md R46). -/
def romWrite (s : State) (a : Word) (v : Byte) : State := addDiag s (.writeToReadOnly a v)

/-- Whether `RAM.map` has an entry for the address (10_state.md R27). -/
def ramHas (s : State) (a : Word) : Bool := s.ram.order.contains a

/-- `RamRead(a)` (20_memory.md R47). -/
def ramRead (s : State) (a : Word) : Byte := s.ram.cells.read a.toNat

/-- Remove the bytes of evicted entries (20_memory.md R48). -/
def eraseCells (m : Memory) (victims : List Word) : Memory :=
  victims.foldl (fun m e => m.write e.toNat unlistedByte) m

/-- The eviction loop of `RamWrite` (20_memory.md R48): while there are more than `RAM_MAX_ENTRIES` entries, the oldest
one goes and `StorageOverflow` is emitted. -/
def evict (s : State) : State :=
  let victims := s.ram.order.take (s.ram.order.length - s.cfg.ramMaxEntries)
  { s with
    ram := { cells := eraseCells s.ram.cells victims
             order := s.ram.order.drop (s.ram.order.length - s.cfg.ramMaxEntries) }
    diag := s.diag ++ victims.map .storageOverflow }

/-- `RamWrite(a, v)` (20_memory.md R48): an overwrite keeps the entry's age; a new entry is the youngest and may push
the oldest out. -/
def ramWrite (s : State) (a : Word) (v : Byte) : State :=
  if ramHas s a then { s with ram := { s.ram with cells := s.ram.cells.write a.toNat v } }
  else evict { s with ram := { cells := s.ram.cells.write a.toNat v, order := s.ram.order ++ [a] } }

end Sys2Proof.Machine
end

