-- ==== Sys2Proof/Machine/Devices.lean ====
section
/-! DEFINITION. Machine/Devices.lean: the interrupt controller (60_exceptions.md section 1), the DMA engine's registers
(50_dma_and_devices.md R225 to R227) and the devices outside the block (R222). -/

namespace Sys2Proof.Machine

/-! ## Interrupt request lines -/

/-- `LINE[n]` (10_state.md R22). -/
def lineOf (s : State) (n : Fin 8) : LineState := s.intc.lines[n]

/-- `LINE[n] <- l`. -/
def setLine (s : State) (n : Fin 8) (l : LineState) : State :=
  { s with intc := { s.intc with lines := s.intc.lines.set n l } }

/-- `requestInterrupt(n)` (60_exceptions.md R251 to R253): an idle line becomes pending; any other request changes
nothing. -/
def requestInterrupt (s : State) (n : Nat) : State :=
  if h : n < 8 then
    match lineOf s ⟨n, h⟩ with
    | .idle => setLine s ⟨n, h⟩ .pending
    | .pending => s
    | .servicing => s
  else s

/-- Requests in the order they are made. -/
def requestAll (s : State) (ns : List Nat) : State := ns.foldl requestInterrupt s

/-- `ENABLE[n]` (10_state.md R21). -/
def lineEnabled (s : State) (n : Fin 8) : Bool := s.intc.enable.getLsbD n.val

/-- The line numbers, highest priority first (60_exceptions.md R257). -/
def lineNumbers : List (Fin 8) := [0, 1, 2, 3, 4, 5, 6, 7]

/-- The `PENDING` byte (10_state.md R22): bit `n` is 1 iff `LINE[n] = pending`. -/
def pendingByte (s : State) : Byte :=
  let bit (n : Fin 8) : BitVec 1 := BitVec.ofBool (lineOf s n == .pending)
  bit 7 ++ bit 6 ++ bit 5 ++ bit 4 ++ bit 3 ++ bit 2 ++ bit 1 ++ bit 0

/-- A write of `v` to the `ACK` port (60_exceptions.md R256): the value is a line number. -/
def acknowledge (s : State) (v : Byte) : State :=
  if h : v.toNat < 8 then setLine s ⟨v.toNat, h⟩ .idle else s

/-- A read of a port of the controller's slot (60_exceptions.md R259). -/
def intcRead (s : State) (port : Nat) : Byte × State :=
  match port with
  | 0 => (s.intc.enable, s)
  | 1 => (pendingByte s, s)
  | 2 => (0x00, s)
  | 3 => (s.intc.handlerLow, s)
  | 4 => (s.intc.handlerHigh, s)
  | p => (0x00, addDiag s (.unknownPort s.cfg.intcDev p .read))

/-- A write to a port of the controller's slot (60_exceptions.md R259). -/
def intcWrite (s : State) (port : Nat) (v : Byte) : State :=
  match port with
  | 0 => { s with intc := { s.intc with enable := v } }
  | 1 => s
  | 2 => acknowledge s v
  | 3 => { s with intc := { s.intc with handlerLow := v } }
  | 4 => { s with intc := { s.intc with handlerHigh := v } }
  | p => addDiag s (.unknownPort s.cfg.intcDev p .write)

/-! ## The DMA engine's registers -/

/-- A read of a port of the DMA engine's slot (50_dma_and_devices.md R225, R227). -/
def dmaRead (s : State) (port : Nat) : Byte × State :=
  match port with
  | 0 => (s.dma.dev, s)
  | 1 => (lo8 s.dma.srcStart, s)
  | 2 => (hi8 s.dma.srcStart, s)
  | 3 => (lo8 s.dma.srcEnd, s)
  | 4 => (hi8 s.dma.srcEnd, s)
  | 5 => (lo8 s.dma.target, s)
  | 6 => (hi8 s.dma.target, s)
  | 7 => (0x00, s)
  | p => (0x00, addDiag s (.unknownPort s.cfg.dmaDev p .read))

/-- A write to a port of the DMA engine's slot but for the trigger (50_dma_and_devices.md R225, R226). The effect of
port 7, the trigger, is `transfer` (Machine/Ops.lean); here it has none. -/
def dmaWrite (s : State) (port : Nat) (v : Byte) : State :=
  match port with
  | 0 => { s with dma := { s.dma with dev := v } }
  | 1 => { s with dma := { s.dma with srcStart := concat16 (hi8 s.dma.srcStart) v } }
  | 2 => { s with dma := { s.dma with srcStart := concat16 v (lo8 s.dma.srcStart) } }
  | 3 => { s with dma := { s.dma with srcEnd := concat16 (hi8 s.dma.srcEnd) v } }
  | 4 => { s with dma := { s.dma with srcEnd := concat16 v (lo8 s.dma.srcEnd) } }
  | 5 => { s with dma := { s.dma with target := concat16 (hi8 s.dma.target) v } }
  | 6 => { s with dma := { s.dma with target := concat16 v (lo8 s.dma.target) } }
  | 7 => s
  | p => addDiag s (.unknownPort s.cfg.dmaDev p .write)

/-! ## Devices outside the block -/

/-- The environment's answer to an access (50_dma_and_devices.md R222; entry 6): the next one State lists, or the free
value of Config. -/
def environmentReply (s : State) (e : DeviceEvent) : PortReply :=
  match s.env.replies with
  | r :: _ => r
  | [] => Config.portReply (s.env.trace ++ [e])

/-- An access to a device outside the block (50_dma_and_devices.md R222): the access happens, the device makes its
requests, and its byte comes back. -/
def deviceAccess (s : State) (e : DeviceEvent) : Byte × State :=
  let r := environmentReply s e
  let s1 := { s with env := { s.env with replies := s.env.replies.tail, trace := s.env.trace ++ [e] } }
  (r.value, requestAll s1 r.requests)

end Sys2Proof.Machine
end

