-- ==== Sys2Proof/Machine/Flags.lean ====
section
/-! DEFINITION. Machine/Flags.lean: FLAGS and every flag computation of the machine (10_state.md R14 to R17,
42_arithmetic_logic.md R168). -/

namespace Sys2Proof.Machine

/-- The byte `SetFlags(z, c)` writes (10_state.md R17): bits 7:2 are 0 (R14, D6). -/
def flagsByte (z c : Bool) : Byte := (if z then 0x02 else 0x00) ||| (if c then 0x01 else 0x00)

/-- `FLAGS.Z`, bit 1 (R14). -/
def zeroFlag (flags : Byte) : Bool := flags.getLsbD 1

/-- `FLAGS.C`, bit 0 (R14). -/
def carryFlag (flags : Byte) : Bool := flags.getLsbD 0

/-- What `IRET` keeps of a popped flags byte (45_interrupt_and_system.md R202). -/
def restoredFlags (f : Byte) : Byte := f &&& 0x03

/-- A result byte and the carry that goes with it; `Z` follows from the byte (R168). -/
structure AluResult where
  value : Byte
  carry : Bool
deriving DecidableEq, Repr

/-- Addition (R168): the unbounded sum modulo 256, `C` iff it is above 255. -/
def aluAdd (x y : Byte) : AluResult where
  value := BitVec.ofNat 8 (x.toNat + y.toNat)
  carry := decide (255 < x.toNat + y.toNat)

/-- Subtraction (R168): the difference modulo 256, `C` iff there is a borrow (D4). -/
def aluSub (x y : Byte) : AluResult where
  value := BitVec.ofInt 8 ((x.toNat : Int) - y.toNat)
  carry := decide (x.toNat < y.toNat)

/-- Bitwise AND, `C` 0 (R168, D4). -/
def aluAnd (x y : Byte) : AluResult where
  value := x &&& y
  carry := false

/-- Bitwise OR, `C` 0 (R168, D4). -/
def aluOr (x y : Byte) : AluResult where
  value := x ||| y
  carry := false

/-- Bitwise exclusive OR, `C` 0 (R168, D4). -/
def aluXor (x y : Byte) : AluResult where
  value := x ^^^ y
  carry := false

/-- A byte moved into a data register: `C` 0 (41_data_movement.md, D3). -/
def moved (v : Byte) : AluResult where
  value := v
  carry := false

end Sys2Proof.Machine
end

