-- ==== Sys2Proof/Machine/Ops.lean ====
section
/-! DEFINITION. Machine/Ops.lean: the shared operations of the machine: port dispatch, the DMA transfer, the bus, the
registers, the stack, interrupt entry and the return from it, and the poll. -/

namespace Sys2Proof.Machine

/-! ## Port dispatch (20_memory.md R50 to R52, 50_dma_and_devices.md R233) -/

/-- Whether a device outside the block is registered under the id (20_memory.md R52). -/
def registered (c : Cfg) (dev : Nat) : Bool := c.devices.contains dev

/-- A port read, dispatched by device id (20_memory.md R50). -/
def portRead (s : State) (dev port : Nat) : Byte × State :=
  if dev = s.cfg.intcDev then intcRead s port
  else if dev = s.cfg.dmaDev then dmaRead s port
  else if registered s.cfg dev then deviceAccess s (.read dev port)
  else (0x00, addDiag s (.unknownPort dev port .read))

/-- A port write that is not the DMA trigger, dispatched by device id (20_memory.md R51). -/
def plainPortWrite (s : State) (dev port : Nat) (v : Byte) : State :=
  if dev = s.cfg.intcDev then intcWrite s port v
  else if dev = s.cfg.dmaDev then dmaWrite s port v
  else if registered s.cfg dev then (deviceAccess s (.write dev port v)).2
  else addDiag s (.unknownPort dev port .write)

/-! ## The DMA transfer (50_dma_and_devices.md R229 to R234) -/

/-- The length `n` of a transfer (R230): the inclusive source range, empty if its end is below its start. -/
def dmaLength (srcStart srcEnd : Word) : Nat := srcEnd.toNat + 1 - srcStart.toNat

/-- The range check (R231), on unbounded integers. -/
def dmaInRange (c : Cfg) (target : Word) (n : Nat) : Bool :=
  decide (c.ramStart.toNat ≤ target.toNat) && decide (target.toNat + n - 1 ≤ c.ramEnd.toNat)

/-- `DevPortWrite(d, p, v)` (R233). A write to the trigger port of the engine itself, when it is its own source, does what
`trigger` does; a `none` is a transfer that does not end. -/
def dmaPortWrite (trigger : State → Option State) (d p : Nat) (v : Byte) (s : State) : Option State :=
  if d = s.cfg.dmaDev ∧ p = 7 then trigger s else some (plainPortWrite s d p v)

/-- One iteration of the transfer loop (R232): drive the device's address ports with `a`, read its data port, store the
byte at `t`, which is a RAM address. -/
def dmaByte (trigger : State → Option State) (d : Nat) (a t : Word) (s : State) : Option State :=
  (dmaPortWrite trigger d s.cfg.dmaSrcAddrLoPort (lo8 a) s).bind fun s1 =>
  (dmaPortWrite trigger d s1.cfg.dmaSrcAddrHiPort (hi8 a) s1).map fun s2 =>
    let r := portRead s2 d s2.cfg.dmaSrcDataPort
    ramWrite r.2 t r.1

/-- The transfer loop (R232) for `n` more bytes, in ascending address order. -/
def dmaLoop (trigger : State → Option State) (d : Nat) : Nat → Word → Word → State → Option State
  | 0, _, _, s => some s
  | n + 1, a, t, s => (dmaByte trigger d a t s).bind (dmaLoop trigger d n (a + 1) (t + 1))

/-- `Transfer()` (R229 to R234): the registers are latched, an empty range does nothing, a target range that is not
inside RAM is abandoned with a diagnostic, and otherwise the loop runs to completion. -/
def transferWith (trigger : State → Option State) (s : State) : Option State :=
  let n := dmaLength s.dma.srcStart s.dma.srcEnd
  if n = 0 then some s
  else if dmaInRange s.cfg s.dma.target n then dmaLoop trigger s.dma.dev.toNat n s.dma.srcStart s.dma.target s
  else some (addDiag s (.dmaOutOfRange s.dma.target n))

/-- A transfer with at most `depth` transfers under way at once, itself among them; `none` if it takes more. -/
def transferDepth : Nat → State → Option State
  | 0, _ => none
  | depth + 1, s => transferWith (transferDepth depth) s

/-- A transfer, `none` if it never ends. DEDUCED, safe (entry 4): of transfers under way at once only one byte of the DMA
registers differs, the one the low address port names, so that more than 256 of them repeat the registers and start one
another for ever (Laws/Transfer.lean, `transferResult_exact`). -/
def transferResult (s : State) : Option State := transferDepth 256 s

/-- The state after a transfer. One that never ends has none, and every user asks `writeEnds` first. -/
def transfer (s : State) : State := (transferResult s).getD s

/-- A port write, dispatched by device id (20_memory.md R51): port 7 of the DMA engine triggers a transfer, whatever
the value (50_dma_and_devices.md R229). -/
def portWrite (s : State) (dev port : Nat) (v : Byte) : State :=
  if dev = s.cfg.dmaDev ∧ port = 7 then transfer s else plainPortWrite s dev port v

/-! ## The bus (20_memory.md R40 to R44) -/

/-- The I/O-relative offset of an address (20_memory.md R50). -/
def ioOffset (c : Cfg) (a : Word) : Nat := a.toNat - c.ioStart.toNat

/-- `IoRead(off)` (20_memory.md R50). -/
def ioRead (s : State) (off : Nat) : Byte × State := portRead s (off / 16) (off % 16)

/-- `IoWrite(off, v)` (20_memory.md R51). -/
def ioWrite (s : State) (off : Nat) (v : Byte) : State := portWrite s (off / 16) (off % 16) v

/-- `MemRead(a, 1)` (20_memory.md R42). -/
def memRead (s : State) (a : Word) : Byte × State :=
  match regionOf s.cfg a with
  | .rom => (romRead s a, s)
  | .ram => (ramRead s a, s)
  | .io => ioRead s (ioOffset s.cfg a)

/-- `MemWrite(a, 1, v)` (20_memory.md R43). -/
def memWrite (s : State) (a : Word) (v : Byte) : State :=
  match regionOf s.cfg a with
  | .rom => romWrite s a v
  | .ram => ramWrite s a v
  | .io => ioWrite s (ioOffset s.cfg a) v

/-- Whether a write to a bus address comes to its end. Only a write to the DMA trigger may not (entry 4). -/
def writeEnds (s : State) (a : Word) : Bool :=
  match regionOf s.cfg a with
  | .rom => true
  | .ram => true
  | .io =>
    if ioOffset s.cfg a / 16 = s.cfg.dmaDev ∧ ioOffset s.cfg a % 16 = 7 then (transferResult s).isSome else true

/-- The outcome of a part of a step that comes to its end, with state `t`, only if `ends` (entry 4). -/
def nextIf (ends : Bool) (t : State) : Host.Outcome State Fault Refusal :=
  if ends then .next t else .refused .endlessTransfer

/-- The byte a bank holds at a bus address, without an access (20_memory.md R45, R47); an I/O address holds none. -/
def bankByte (s : State) (a : Word) : Option Byte :=
  match regionOf s.cfg a with
  | .rom => some (romRead s a)
  | .ram => some (ramRead s a)
  | .io => none

/-- `IOADDR(dev, port)` (00_scope.md section 4). -/
def ioAddr (c : Cfg) (dev port : Nat) : Word := c.ioStart + BitVec.ofNat 16 (16 * dev + port)

/-! ## Registers -/

/-- A data register (10_state.md R10). -/
def getReg (s : State) : Reg → Byte
  | .A => s.a
  | .B => s.b
  | .C => s.c
  | .D => s.d

/-- Write a data register (10_state.md R10). -/
def setReg (s : State) (r : Reg) (v : Byte) : State :=
  match r with
  | .A => { s with a := v }
  | .B => { s with b := v }
  | .C => { s with c := v }
  | .D => { s with d := v }

/-- Replace the whole `FLAGS` byte (10_state.md R14). -/
def loadFlags (s : State) (f : Byte) : State := { s with flags := f }

/-- `SetFlags(z, c)` (10_state.md R17). -/
def setFlags (s : State) (z c : Bool) : State := loadFlags s (flagsByte z c)

/-- Write a result to a data register and its flags to `FLAGS`: `Z` iff the byte is 0 (42_arithmetic_logic.md R168,
41_data_movement.md). -/
def writeResult (s : State) (r : Reg) (x : AluResult) : State :=
  setFlags (setReg s r x.value) (x.value == 0) x.carry

/-! ## The stack (44_stack.md R186 to R189) -/

/-- `Push8(v)` (44_stack.md R186): write at `SP`, then decrement it. -/
def push8 (s : State) (v : Byte) : State :=
  let s1 := memWrite s s.sp v
  { s1 with sp := s1.sp - 1 }

/-- `Pop8()` (44_stack.md R187): increment `SP`, then read at it. -/
def pop8 (s : State) : Byte × State := memRead { s with sp := s.sp + 1 } (s.sp + 1)

/-! ## Interrupt entry and return (60_exceptions.md R260, 45_interrupt_and_system.md R202) -/

/-- `InterruptEntry(n)` (60_exceptions.md R260): the line goes into service, `PC`, `FLAGS` and `A` are pushed, `PC` is
loaded from `HANDLER` and the handler context begins. -/
def interruptEntry (s : State) (n : Fin 8) : State :=
  let s1 := setLine s n .servicing
  let s2 := push8 s1 (hi8 s1.pc)
  let s3 := push8 s2 (lo8 s2.pc)
  let s4 := push8 s3 s3.flags
  let s5 := push8 s4 s4.a
  { s5 with pc := concat16 s5.intc.handlerHigh s5.intc.handlerLow, inh := true }

/-- Whether the four pushes of `InterruptEntry(n)` come to their end (entry 4). -/
def entryEnds (s : State) (n : Fin 8) : Bool :=
  let s1 := setLine s n .servicing
  let s2 := push8 s1 (hi8 s1.pc)
  let s3 := push8 s2 (lo8 s2.pc)
  let s4 := push8 s3 s3.flags
  writeEnds s1 s1.sp && writeEnds s2 s2.sp && writeEnds s3 s3.sp && writeEnds s4 s4.sp

/-- The valid case of `IRET` (45_interrupt_and_system.md R202): `A`, `FLAGS`, `PC` low and `PC` high are popped, in this
order, and the handler context ends. The line is not acknowledged. -/
def interruptReturn (s : State) : State :=
  let r1 := pop8 s
  let r2 := pop8 (setReg r1.2 .A r1.1)
  let r3 := pop8 (loadFlags r2.2 (restoredFlags r2.1))
  let r4 := pop8 r3.2
  { r4.2 with pc := concat16 r4.1 r3.1, inh := false }

/-! ## The poll (40_execution_cycle.md R105) -/

/-- Whether some line is in service. -/
def anyServicing (s : State) : Bool := lineNumbers.any (fun n => lineOf s n == .servicing)

/-- The lowest line that is pending and enabled (40_execution_cycle.md R105, 60_exceptions.md R257). -/
def selectLine (s : State) : Option (Fin 8) :=
  lineNumbers.find? (fun n => lineOf s n == .pending && lineEnabled s n)

/-- The line whose interrupt `Poll()` enters, if any (40_execution_cycle.md R105). -/
def pollLine (s : State) : Option (Fin 8) :=
  if s.run = .halted then none
  else if s.intc.ie = false then none
  else if s.inh = true then none
  else if anyServicing s then none
  else selectLine s

/-- `Poll()` (40_execution_cycle.md R105). -/
def poll (s : State) : State :=
  match pollLine s with
  | none => s
  | some n => interruptEntry s n

/-- Whether the poll comes to its end (entry 4). -/
def pollEnds (s : State) : Bool :=
  match pollLine s with
  | none => true
  | some n => entryEnds s n

end Sys2Proof.Machine
end

