-- ==== Sys2Proof/Machine/Operands.lean ====
section
/-! DEFINITION. Machine/Operands.lean: instruction fetch (40_execution_cycle.md R101 to R104) and the operand forms of
the instructions (41_data_movement.md R144). -/

namespace Sys2Proof.Machine

/-! ## Fetch -/

/-- `Fetch8()` (40_execution_cycle.md R102): an ordinary bus read at `PC`, then `PC` advances. -/
def fetch8 (s : State) : Byte × State :=
  let r := memRead s s.pc
  (r.1, { r.2 with pc := r.2.pc + 1 })

/-- `Fetch16()` (40_execution_cycle.md R103): low byte first. -/
def fetch16 (s : State) : Word × State :=
  let lo := fetch8 s
  let hi := fetch8 lo.2
  (concat16 hi.1 lo.1, hi.2)

/-- The opcode fetch of a step (40_execution_cycle.md R101): the byte goes into `IR`. -/
def fetchOpcode (s : State) : Byte × State :=
  let r := fetch8 s
  (r.1, { r.2 with ir := r.1 })

/-- Fetch the operand of a format (30_encoding.md R84). -/
def fetchOperand (f : Format) (s : State) : Word × State :=
  match f with
  | .op => (0, s)
  | .opI8 => let r := fetch8 s; (concat16 0 r.1, r.2)
  | .opI16 => fetch16 s

/-- Fetch one instruction (40_execution_cycle.md R101, R104): the opcode byte, then all operand bytes of a recognised
opcode. `none` is an unrecognised opcode, after which no operand is fetched. -/
def fetchInstr (s : State) : Option Instr × State :=
  let op := fetchOpcode s
  match s.cfg.opcodes.mnemonicOf op.1 with
  | none => (none, op.2)
  | some m =>
    let w := fetchOperand m.format op.2
    (some (m.toInstr w.1), w.2)

/-- The effect of an unrecognised opcode (40_execution_cycle.md R104), after the fetch: a diagnostic with the address of
the byte and the byte, which `IR` holds. -/
def unrecognized (s : State) : State := addDiag s (.unrecognizedOpcode (s.pc - 1) s.ir)

/-! ## Operand forms (41_data_movement.md R144) -/

/-- The effective address of an absolute operand: the operand itself (41_data_movement.md R144, 30_encoding.md R84). -/
def absoluteAddr (addr16 : Word) : Word := addr16

/-- A load of a result that an operation computes from `A` and a byte, into `A` (42_arithmetic_logic.md sections 2
and 3). -/
def accumulate (f : Byte → Byte → AluResult) (v : Byte) (s : State) : State := writeResult s .A (f s.a v)

/-- A move of a byte into a data register (41_data_movement.md): `Z` from the byte, `C` 0. -/
def moveInto (r : Reg) (v : Byte) (s : State) : State := writeResult s r (moved v)

/-- A move from memory into a data register (41_data_movement.md section 2). -/
def loadInto (r : Reg) (addr16 : Word) (s : State) : State :=
  let x := memRead s (absoluteAddr addr16)
  moveInto r x.1 x.2

/-- A store of a data register to memory (41_data_movement.md section 3). -/
def storeFrom (r : Reg) (addr16 : Word) (s : State) : State := memWrite s (absoluteAddr addr16) (getReg s r)

/-- A push of a data register (44_stack.md section 3). -/
def pushFrom (r : Reg) (s : State) : State := push8 s (getReg s r)

/-- A pop into a data register (44_stack.md section 4): `FLAGS` stays. -/
def popInto (r : Reg) (s : State) : State :=
  let x := pop8 s
  setReg x.2 r x.1

end Sys2Proof.Machine
end

