-- ==== Sys2Proof/Machine/Arithmetic.lean ====
section
/-! DEFINITION. Machine/Arithmetic.lean: the meanings of the arithmetic and logic instructions (42_arithmetic_logic.md). `PC` is past the whole
instruction when a meaning runs (10_state.md R11). -/

namespace Sys2Proof.Machine

/-- `ADD` (R150): `A <- A +8 B`. -/
def execAdd (s : State) : Host.Outcome State Fault Refusal :=
  .next (accumulate aluAdd s.b s)

/-- `SUB` (R151): `A <- A -8 B`. -/
def execSub (s : State) : Host.Outcome State Fault Refusal :=
  .next (accumulate aluSub s.b s)

/-- `AND` (R152): `A <- A & B`. -/
def execAnd (s : State) : Host.Outcome State Fault Refusal :=
  .next (accumulate aluAnd s.b s)

/-- `OR` (R153): `A <- A | B`. -/
def execOr (s : State) : Host.Outcome State Fault Refusal :=
  .next (accumulate aluOr s.b s)

/-- `XOR` (R154): `A <- A ^ B`. -/
def execXor (s : State) : Host.Outcome State Fault Refusal :=
  .next (accumulate aluXor s.b s)

/-- `ADD_IMM` (R155): `A <- A +8 imm8`. -/
def execAddImm (imm8 : Byte) (s : State) : Host.Outcome State Fault Refusal :=
  .next (accumulate aluAdd imm8 s)

/-- `SUB_IMM` (R156): `A <- A -8 imm8`. -/
def execSubImm (imm8 : Byte) (s : State) : Host.Outcome State Fault Refusal :=
  .next (accumulate aluSub imm8 s)

/-- `AND_IMM` (R157): `A <- A & imm8`. -/
def execAndImm (imm8 : Byte) (s : State) : Host.Outcome State Fault Refusal :=
  .next (accumulate aluAnd imm8 s)

/-- `OR_IMM` (R158): `A <- A | imm8`. -/
def execOrImm (imm8 : Byte) (s : State) : Host.Outcome State Fault Refusal :=
  .next (accumulate aluOr imm8 s)

/-- `XOR_IMM` (R159): `A <- A ^ imm8`. -/
def execXorImm (imm8 : Byte) (s : State) : Host.Outcome State Fault Refusal :=
  .next (accumulate aluXor imm8 s)

/-- `INC_A` (R160): `A <- A +8 1`. -/
def execIncA (s : State) : Host.Outcome State Fault Refusal :=
  .next (writeResult s .A (aluAdd s.a 1))

/-- `INC_B` (R161): `B <- B +8 1`. -/
def execIncB (s : State) : Host.Outcome State Fault Refusal :=
  .next (writeResult s .B (aluAdd s.b 1))

/-- `INC_C` (R162): `C <- C +8 1`. -/
def execIncC (s : State) : Host.Outcome State Fault Refusal :=
  .next (writeResult s .C (aluAdd s.c 1))

/-- `INC_D` (R163): `D <- D +8 1`. -/
def execIncD (s : State) : Host.Outcome State Fault Refusal :=
  .next (writeResult s .D (aluAdd s.d 1))

/-- `DEC_A` (R164): `A <- A -8 1`. -/
def execDecA (s : State) : Host.Outcome State Fault Refusal :=
  .next (writeResult s .A (aluSub s.a 1))

/-- `DEC_B` (R165): `B <- B -8 1`. -/
def execDecB (s : State) : Host.Outcome State Fault Refusal :=
  .next (writeResult s .B (aluSub s.b 1))

/-- `DEC_C` (R166): `C <- C -8 1`. -/
def execDecC (s : State) : Host.Outcome State Fault Refusal :=
  .next (writeResult s .C (aluSub s.c 1))

/-- `DEC_D` (R167): `D <- D -8 1`. -/
def execDecD (s : State) : Host.Outcome State Fault Refusal :=
  .next (writeResult s .D (aluSub s.d 1))

end Sys2Proof.Machine
end

