-- ==== Sys2Proof/Machine/ControlFlow.lean ====
section
/-! DEFINITION. Machine/ControlFlow.lean: the meanings of the jumps (43_control_flow.md). `PC` is past the whole
instruction when a meaning runs (10_state.md R11). -/

namespace Sys2Proof.Machine

/-- `JMP` (R180): `PC <- addr16`. -/
def execJmp (addr16 : Word) (s : State) : Host.Outcome State Fault Refusal :=
  .next { s with pc := addr16 }

/-- `JZ` (R181): `PC <- addr16` if `Z = 1`. -/
def execJz (addr16 : Word) (s : State) : Host.Outcome State Fault Refusal :=
  .next (if zeroFlag s.flags then { s with pc := addr16 } else s)

/-- `JNZ` (R182): `PC <- addr16` if `Z = 0`. -/
def execJnz (addr16 : Word) (s : State) : Host.Outcome State Fault Refusal :=
  .next (if zeroFlag s.flags then s else { s with pc := addr16 })

end Sys2Proof.Machine
end

