-- ==== Sys2Proof/Machine/DataMovement.lean ====
section
/-! DEFINITION. Machine/DataMovement.lean: the meanings of the moves (41_data_movement.md R120 to R144). `PC` is past the whole
instruction when a meaning runs (10_state.md R11). -/

namespace Sys2Proof.Machine

/-- `MOV_A_IMM` (R120): `A <- imm8`. -/
def execMovAImm (imm8 : Byte) (s : State) : Host.Outcome State Fault Refusal :=
  .next (moveInto .A imm8 s)

/-- `MOV_B_IMM` (R121): `B <- imm8`. -/
def execMovBImm (imm8 : Byte) (s : State) : Host.Outcome State Fault Refusal :=
  .next (moveInto .B imm8 s)

/-- `MOV_C_IMM` (R122): `C <- imm8`. -/
def execMovCImm (imm8 : Byte) (s : State) : Host.Outcome State Fault Refusal :=
  .next (moveInto .C imm8 s)

/-- `MOV_D_IMM` (R123): `D <- imm8`. -/
def execMovDImm (imm8 : Byte) (s : State) : Host.Outcome State Fault Refusal :=
  .next (moveInto .D imm8 s)

/-- `MOV_A_MEM` (R124): `A <- MemRead(addr16, 1)`. -/
def execMovAMem (addr16 : Word) (s : State) : Host.Outcome State Fault Refusal :=
  .next (loadInto .A addr16 s)

/-- `MOV_B_MEM` (R125): `B <- MemRead(addr16, 1)`. -/
def execMovBMem (addr16 : Word) (s : State) : Host.Outcome State Fault Refusal :=
  .next (loadInto .B addr16 s)

/-- `MOV_C_MEM` (R126): `C <- MemRead(addr16, 1)`. -/
def execMovCMem (addr16 : Word) (s : State) : Host.Outcome State Fault Refusal :=
  .next (loadInto .C addr16 s)

/-- `MOV_D_MEM` (R127): `D <- MemRead(addr16, 1)`. -/
def execMovDMem (addr16 : Word) (s : State) : Host.Outcome State Fault Refusal :=
  .next (loadInto .D addr16 s)

/-- `MOV_MEM_A` (R128): `MemWrite(addr16, 1, A)`; `FLAGS` stays. -/
def execMovMemA (addr16 : Word) (s : State) : Host.Outcome State Fault Refusal :=
  nextIf (writeEnds s (absoluteAddr addr16)) (storeFrom .A addr16 s)

/-- `MOV_MEM_B` (R129): `MemWrite(addr16, 1, B)`; `FLAGS` stays. -/
def execMovMemB (addr16 : Word) (s : State) : Host.Outcome State Fault Refusal :=
  nextIf (writeEnds s (absoluteAddr addr16)) (storeFrom .B addr16 s)

/-- `MOV_MEM_C` (R130): `MemWrite(addr16, 1, C)`; `FLAGS` stays. -/
def execMovMemC (addr16 : Word) (s : State) : Host.Outcome State Fault Refusal :=
  nextIf (writeEnds s (absoluteAddr addr16)) (storeFrom .C addr16 s)

/-- `MOV_MEM_D` (R131): `MemWrite(addr16, 1, D)`; `FLAGS` stays. -/
def execMovMemD (addr16 : Word) (s : State) : Host.Outcome State Fault Refusal :=
  nextIf (writeEnds s (absoluteAddr addr16)) (storeFrom .D addr16 s)

/-- `MOV_A_B` (R132): `A <- B`. -/
def execMovAB (s : State) : Host.Outcome State Fault Refusal :=
  .next (moveInto .A s.b s)

/-- `MOV_A_C` (R133): `A <- C`. -/
def execMovAC (s : State) : Host.Outcome State Fault Refusal :=
  .next (moveInto .A s.c s)

/-- `MOV_A_D` (R134): `A <- D`. -/
def execMovAD (s : State) : Host.Outcome State Fault Refusal :=
  .next (moveInto .A s.d s)

/-- `MOV_B_A` (R135): `B <- A`. -/
def execMovBA (s : State) : Host.Outcome State Fault Refusal :=
  .next (moveInto .B s.a s)

/-- `MOV_B_C` (R136): `B <- C`. -/
def execMovBC (s : State) : Host.Outcome State Fault Refusal :=
  .next (moveInto .B s.c s)

/-- `MOV_B_D` (R137): `B <- D`. -/
def execMovBD (s : State) : Host.Outcome State Fault Refusal :=
  .next (moveInto .B s.d s)

/-- `MOV_C_A` (R138): `C <- A`. -/
def execMovCA (s : State) : Host.Outcome State Fault Refusal :=
  .next (moveInto .C s.a s)

/-- `MOV_C_B` (R139): `C <- B`. -/
def execMovCB (s : State) : Host.Outcome State Fault Refusal :=
  .next (moveInto .C s.b s)

/-- `MOV_C_D` (R140): `C <- D`. -/
def execMovCD (s : State) : Host.Outcome State Fault Refusal :=
  .next (moveInto .C s.d s)

/-- `MOV_D_A` (R141): `D <- A`. -/
def execMovDA (s : State) : Host.Outcome State Fault Refusal :=
  .next (moveInto .D s.a s)

/-- `MOV_D_B` (R142): `D <- B`. -/
def execMovDB (s : State) : Host.Outcome State Fault Refusal :=
  .next (moveInto .D s.b s)

/-- `MOV_D_C` (R143): `D <- C`. -/
def execMovDC (s : State) : Host.Outcome State Fault Refusal :=
  .next (moveInto .D s.c s)

end Sys2Proof.Machine
end

