-- ==== Sys2Proof/Machine/Stack.lean ====
section
/-! DEFINITION. Machine/Stack.lean: the meanings of the stack instructions (44_stack.md). `PC` is past the whole
instruction when a meaning runs (10_state.md R11). -/

namespace Sys2Proof.Machine

/-- `SET_SP` (R188): `SP <- imm16`. -/
def execSetSp (imm16 : Word) (s : State) : Host.Outcome State Fault Refusal :=
  .next { s with sp := imm16 }

/-- `PUSH_A` (R190): `Push8(A)`. -/
def execPushA (s : State) : Host.Outcome State Fault Refusal :=
  nextIf (writeEnds s s.sp) (pushFrom .A s)

/-- `PUSH_B` (R191): `Push8(B)`. -/
def execPushB (s : State) : Host.Outcome State Fault Refusal :=
  nextIf (writeEnds s s.sp) (pushFrom .B s)

/-- `PUSH_C` (R192): `Push8(C)`. -/
def execPushC (s : State) : Host.Outcome State Fault Refusal :=
  nextIf (writeEnds s s.sp) (pushFrom .C s)

/-- `PUSH_D` (R193): `Push8(D)`. -/
def execPushD (s : State) : Host.Outcome State Fault Refusal :=
  nextIf (writeEnds s s.sp) (pushFrom .D s)

/-- `POP_A` (R194): `A <- Pop8()`; `FLAGS` stays. -/
def execPopA (s : State) : Host.Outcome State Fault Refusal :=
  .next (popInto .A s)

/-- `POP_B` (R195): `B <- Pop8()`; `FLAGS` stays. -/
def execPopB (s : State) : Host.Outcome State Fault Refusal :=
  .next (popInto .B s)

/-- `POP_C` (R196): `C <- Pop8()`; `FLAGS` stays. -/
def execPopC (s : State) : Host.Outcome State Fault Refusal :=
  .next (popInto .C s)

/-- `POP_D` (R197): `D <- Pop8()`; `FLAGS` stays. -/
def execPopD (s : State) : Host.Outcome State Fault Refusal :=
  .next (popInto .D s)

end Sys2Proof.Machine
end

