-- ==== Sys2Proof/Machine/System.lean ====
section
/-! DEFINITION. Machine/System.lean: the meanings of the interrupt and system instructions (45_interrupt_and_system.md). `PC` is past the whole
instruction when a meaning runs (10_state.md R11). -/

namespace Sys2Proof.Machine

/-- `NOP` (R212): no effect; the fetch has advanced `PC`. -/
def execNop (s : State) : Host.Outcome State Fault Refusal :=
  .next s

/-- `HALT` (R210): `RUN <- halted`. -/
def execHalt (s : State) : Host.Outcome State Fault Refusal :=
  .next { s with run := .halted }

/-- `SYSCALL` (R211): call 0 halts, any other is a diagnosed no-op; `PC` is past the operand here. -/
def execSyscall (imm8 : Byte) (s : State) : Host.Outcome State Fault Refusal :=
  .next (if imm8 = 0 then { s with run := .halted } else addDiag s (.unknownSyscall (s.pc - 2) imm8))

/-- `EI` (R200): `IE <- 1`. -/
def execEi (s : State) : Host.Outcome State Fault Refusal :=
  .next { s with intc := { s.intc with ie := true } }

/-- `DI` (R201): `IE <- 0`. -/
def execDi (s : State) : Host.Outcome State Fault Refusal :=
  .next { s with intc := { s.intc with ie := false } }

/-- `IRET` (R202): the return in a handler context, a diagnosed no-op outside one. -/
def execIret (s : State) : Host.Outcome State Fault Refusal :=
  .next (if s.inh then interruptReturn s else addDiag s (.invalidInterruptReturn (s.pc - 1)))

end Sys2Proof.Machine
end

