-- ==== Sys2Proof/Machine/Dispatch.lean ====
section
/-! DEFINITION. Machine/Dispatch.lean: the meaning of each instruction. -/

namespace Sys2Proof.Machine

def exec (i : Instr) (s : State) : Host.Outcome State Fault Refusal :=
  match i with
  | .nop => Sys2Proof.Machine.execNop s
  | .halt => Sys2Proof.Machine.execHalt s
  | .syscall imm8 => Sys2Proof.Machine.execSyscall imm8 s
  | .ei => Sys2Proof.Machine.execEi s
  | .di => Sys2Proof.Machine.execDi s
  | .iret => Sys2Proof.Machine.execIret s
  | .setSp imm16 => Sys2Proof.Machine.execSetSp imm16 s
  | .movAImm imm8 => Sys2Proof.Machine.execMovAImm imm8 s
  | .movBImm imm8 => Sys2Proof.Machine.execMovBImm imm8 s
  | .movCImm imm8 => Sys2Proof.Machine.execMovCImm imm8 s
  | .movDImm imm8 => Sys2Proof.Machine.execMovDImm imm8 s
  | .movAMem addr16 => Sys2Proof.Machine.execMovAMem addr16 s
  | .movBMem addr16 => Sys2Proof.Machine.execMovBMem addr16 s
  | .movCMem addr16 => Sys2Proof.Machine.execMovCMem addr16 s
  | .movDMem addr16 => Sys2Proof.Machine.execMovDMem addr16 s
  | .movMemA addr16 => Sys2Proof.Machine.execMovMemA addr16 s
  | .movMemB addr16 => Sys2Proof.Machine.execMovMemB addr16 s
  | .movMemC addr16 => Sys2Proof.Machine.execMovMemC addr16 s
  | .movMemD addr16 => Sys2Proof.Machine.execMovMemD addr16 s
  | .movAB => Sys2Proof.Machine.execMovAB s
  | .movAC => Sys2Proof.Machine.execMovAC s
  | .movAD => Sys2Proof.Machine.execMovAD s
  | .movBA => Sys2Proof.Machine.execMovBA s
  | .movBC => Sys2Proof.Machine.execMovBC s
  | .movBD => Sys2Proof.Machine.execMovBD s
  | .movCA => Sys2Proof.Machine.execMovCA s
  | .movCB => Sys2Proof.Machine.execMovCB s
  | .movCD => Sys2Proof.Machine.execMovCD s
  | .movDA => Sys2Proof.Machine.execMovDA s
  | .movDB => Sys2Proof.Machine.execMovDB s
  | .movDC => Sys2Proof.Machine.execMovDC s
  | .add => Sys2Proof.Machine.execAdd s
  | .sub => Sys2Proof.Machine.execSub s
  | .and => Sys2Proof.Machine.execAnd s
  | .or => Sys2Proof.Machine.execOr s
  | .xor => Sys2Proof.Machine.execXor s
  | .addImm imm8 => Sys2Proof.Machine.execAddImm imm8 s
  | .subImm imm8 => Sys2Proof.Machine.execSubImm imm8 s
  | .andImm imm8 => Sys2Proof.Machine.execAndImm imm8 s
  | .orImm imm8 => Sys2Proof.Machine.execOrImm imm8 s
  | .xorImm imm8 => Sys2Proof.Machine.execXorImm imm8 s
  | .incA => Sys2Proof.Machine.execIncA s
  | .incB => Sys2Proof.Machine.execIncB s
  | .incC => Sys2Proof.Machine.execIncC s
  | .incD => Sys2Proof.Machine.execIncD s
  | .decA => Sys2Proof.Machine.execDecA s
  | .decB => Sys2Proof.Machine.execDecB s
  | .decC => Sys2Proof.Machine.execDecC s
  | .decD => Sys2Proof.Machine.execDecD s
  | .pushA => Sys2Proof.Machine.execPushA s
  | .pushB => Sys2Proof.Machine.execPushB s
  | .pushC => Sys2Proof.Machine.execPushC s
  | .pushD => Sys2Proof.Machine.execPushD s
  | .popA => Sys2Proof.Machine.execPopA s
  | .popB => Sys2Proof.Machine.execPopB s
  | .popC => Sys2Proof.Machine.execPopC s
  | .popD => Sys2Proof.Machine.execPopD s
  | .jmp addr16 => Sys2Proof.Machine.execJmp addr16 s
  | .jz addr16 => Sys2Proof.Machine.execJz addr16 s
  | .jnz addr16 => Sys2Proof.Machine.execJnz addr16 s

end Sys2Proof.Machine
end

