-- ==== Sys2Proof/Machine/HostOps.lean ====
section
/-! DEFINITION. Machine/HostOps.lean: what the host and the environment do between turns (70_reset_and_hazards.md R291 to
R294 and R306, 40_execution_cycle.md R110), and the frame of a step around an instruction's effect. -/

namespace Sys2Proof.Machine

/-! ## Warm reset (70_reset_and_hazards.md R291, 10_state.md R31) -/

/-- The controller's reset (60_exceptions.md R265): the vector stays. -/
def resetIntc (x : Intc) : Intc := { x with ie := false, enable := 0, lines := Vector.replicate 8 .idle }

/-- The host's `reset()` (70_reset_and_hazards.md R291), between turns: the Rom, the Ram, `DIAG` and the handler vector
stay; the devices outside the block see the reset (50_dma_and_devices.md R223). -/
def warmReset (s : State) : State :=
  { s with
    a := 0, b := 0, c := 0, d := 0
    pc := s.cfg.resetVector, sp := s.cfg.stackEnd, ir := 0, flags := 0
    run := .running, inh := false
    intc := resetIntc s.intc
    dma := { dev := 0, srcStart := 0, srcEnd := 0, target := 0 }
    env := { s.env with trace := s.env.trace ++ [.reset] }
    turnStep := 0 }

/-! ## The program image and its loading (70_reset_and_hazards.md R293, R294) -/

/-- The bank a load names. -/
inductive Bank where
  | rom | ram
deriving DecidableEq, Repr

/-- One entry of a program image; the comment has no effect (R293). -/
structure ImageEntry where
  address : Word
  value : Byte
  comment : Option String
deriving DecidableEq, Repr

/-- A named section of a program image; name and start address have no effect on the machine (R293). -/
structure ImageSection where
  name : String
  startAddress : Word
  entries : List ImageEntry
deriving DecidableEq, Repr

/-- A program image, `CompiledProgram` (R293). -/
abbrev Image := List ImageSection

/-- The entries of an image in order (R293). -/
def imageEntries (im : Image) : List ImageEntry := (im.map ImageSection.entries).flatten

/-- The bus address of an entry (R294). -/
def loadAddr (base : Word) (e : ImageEntry) : Word := base + e.address

/-- Whether the chosen bank takes an entry (R294). -/
def loadAccepts (c : Cfg) (bank : Bank) (x : Word) : Bool :=
  match bank with
  | .rom => inRom c x
  | .ram => inRam c x

/-- Load one entry (R294): Rom content is written here and nowhere else; Ram by `RamWrite`; an entry outside the bank is
not stored. -/
def loadEntry (bank : Bank) (base : Word) (s : State) (e : ImageEntry) : State :=
  let x := loadAddr base e
  if loadAccepts s.cfg bank x then
    match bank with
    | .rom => { s with rom := s.rom.write x.toNat e.value }
    | .ram => ramWrite s x e.value
  else s

/-- `load(bank, image, base)` (R294), between turns. -/
def load (s : State) (bank : Bank) (im : Image) (base : Word) : State :=
  (imageEntries im).foldl (loadEntry bank base) s

/-- The entries `load` refuses, of which the host is told (R294). -/
def loadRefused (c : Cfg) (bank : Bank) (im : Image) (base : Word) : List ImageEntry :=
  (imageEntries im).filter (fun e => !loadAccepts c bank (loadAddr base e))

/-- A byte placed at a bus address as a load places it: in the bank the address decodes to; an I/O address holds no
byte. -/
def placeByte (s : State) (a : Word) (v : Byte) : State :=
  match regionOf s.cfg a with
  | .rom => loadEntry .rom a s { address := 0, value := v, comment := none }
  | .ram => loadEntry .ram a s { address := 0, value := v, comment := none }
  | .io => s

/-- Bytes placed at consecutive bus addresses, lowest first. -/
def placeBytes (s : State) (a : Word) : List Byte → State
  | [] => s
  | v :: bs => placeBytes (placeByte s a v) (a + 1) bs

/-! ## The frame of a step (40_execution_cycle.md R100, R110) -/

/-- The turn boundary (40_execution_cycle.md R110): before the first step of a turn the environment's next requests are
latched (60_exceptions.md R264). -/
def turnBoundary (s : State) : State :=
  if s.turnStep = 0 then
    requestAll { s with env := { s.env with boundary := s.env.boundary.tail } } (s.env.boundary.headD [])
  else s

/-- Count a step of the turn: the turn ends when `STEPS_PER_TICK` steps are made or the CPU is halted
(40_execution_cycle.md R100). -/
def countStep (s : State) : State :=
  { s with turnStep := if s.run = .halted ∨ s.cfg.stepsPerTick ≤ s.turnStep + 1 then 0 else s.turnStep + 1 }

/-- What follows an instruction's effect in a step: the poll (40_execution_cycle.md R105), and the count. -/
def endStep (s : State) : State := countStep (poll s)

/-- The outcome of a step after the instruction's effect. -/
def finishStep (s : State) : Host.Outcome State Fault Refusal := nextIf (pollEnds s) (endStep s)

end Sys2Proof.Machine
end

