-- ==== Sys2Proof/Machine/Step.lean ====
section
/-! DEFINITION. Machine/Step.lean: one step of the machine. -/

namespace Sys2Proof.Machine

/-- One step: the turn boundary if a turn begins, then `Step()` and `Poll()` (40_execution_cycle.md R100, R101, R104,
R105). A halted CPU makes no step; the tick does nothing to it (R107). -/
def step (s : State) : Host.Outcome State Fault Refusal :=
  let s0 := turnBoundary s
  match s0.run with
  | .halted => .next (countStep s0)
  | .running =>
    match fetchInstr s0 with
    | (none, s1) => finishStep (unrecognized s1)
    | (some i, s1) =>
      match exec i s1 with
      | .next s2 => finishStep s2
      | .fault r => .fault r
      | .refused r => .refused r

/-- `s` with an instruction, numbered as the opcode table numbers it, loaded where the next step fetches, and the CPU
running (entry 9): the three bytes go to `PC`, `PC + 1` and `PC + 2`, as a host's load puts them. -/
def State.withFetchWord (s : State) (nbits w : Nat) : State :=
  { placeBytes s s.pc (tableBytes nbits w) with run := .running }

end Sys2Proof.Machine
end

