-- ==== Sys2Proof/Machine/Tick.lean ====
section
/-! DEFINITION. Machine/Tick.lean: the host's `tick()`, one turn (40_execution_cycle.md R100, 70_reset_and_hazards.md
R306). -/

namespace Sys2Proof.Machine

/-- Steps until the turn ends, at most `fuel` of them (40_execution_cycle.md R100). -/
def turnLoop : Nat → State → Host.Outcome State Fault Refusal
  | 0, s => .next s
  | fuel + 1, s =>
    match step s with
    | .next t => if t.turnStep = 0 then .next t else turnLoop fuel t
    | .fault r => .fault r
    | .refused r => .refused r

/-- `tick()`: one `Turn()` from a turn boundary; a turn has at most `STEPS_PER_TICK` steps. -/
def tick (s : State) : Host.Outcome State Fault Refusal := turnLoop s.cfg.stepsPerTick s

end Sys2Proof.Machine
end

