-- ==== Sys2Proof/Safety.lean ====
section
/-! DEFINITION. Safety.lean: what counts as a good state and a good run, in the terms the statements use. -/

namespace Sys2Proof.Machine

/-- How many lines are in service. -/
def servicingCount (s : State) : Nat := (lineNumbers.filter (fun n => lineOf s n == .servicing)).length

/-- The Rom bank: canonical form, and bytes only at addresses of the ROM range (10_state.md R26). -/
abbrev RomOk (s : State) : Prop :=
  Memory.wf s.rom = true ∧ ∀ cell ∈ s.rom, s.cfg.romStart.toNat ≤ cell.1 ∧ cell.1 ≤ s.cfg.romEnd.toNat

/-- The Ram bank (10_state.md R27): canonical form; bytes only at addresses that have an entry; one entry an address,
each in the RAM range; at most `RAM_MAX_ENTRIES` entries. -/
abbrev RamOk (s : State) : Prop :=
  Memory.wf s.ram.cells = true ∧
  (∀ cell ∈ s.ram.cells, BitVec.ofNat 16 cell.1 ∈ s.ram.order ∧ cell.1 < 65536) ∧
  s.ram.order.Nodup ∧ (∀ a ∈ s.ram.order, inRam s.cfg a = true) ∧ s.ram.order.length ≤ s.cfg.ramMaxEntries

/-- The reserved bits 7:2 of `FLAGS` are 0 (10_state.md R14). -/
abbrev FlagsOk (s : State) : Prop := s.flags.extractLsb' 2 6 = 0

/-- At most one line is `servicing` (10_state.md R22, 60_exceptions.md R255). -/
abbrev LinesOk (s : State) : Prop := servicingCount s ≤ 1

/-- The turn counter is below the turn's length (40_execution_cycle.md R100; the model's own field, entry 8). -/
abbrev TurnOk (s : State) : Prop := s.turnStep < s.cfg.stepsPerTick

/-- The invariant of the machine. -/
structure Inv (s : State) : Prop where
  rom : RomOk s
  ram : RamOk s
  flags : FlagsOk s
  lines : LinesOk s
  turn : TurnOk s

/-- A transfer triggered now would have the DMA engine as its own source device and drive its trigger port: the only case
in which a transfer may never end (93_implementation_defined.md V4, entry 4). -/
abbrev SelfTriggering (s : State) : Prop :=
  s.dma.dev.toNat = s.cfg.dmaDev ∧ (s.cfg.dmaSrcAddrLoPort = 7 ∨ s.cfg.dmaSrcAddrHiPort = 7)

/-- A state from which a step comes to its end: neither a fault nor a refusal (40_execution_cycle.md R101: a step
"always completes"; entry 4 names the one case in which none does). -/
def Completes (s : State) : Prop := ∃ t, step s = .next t

/-- A step that does nothing irregular: it emits no diagnostic (60_exceptions.md R270). -/
def QuietStep (s : State) : Prop := ∃ t, step s = .next t ∧ t.diag = s.diag

/-- `t` is reached from `s` by steps. -/
inductive Reaches (s : State) : State → Prop where
  | refl : Reaches s s
  | step {t u : State} : Reaches s t → Sys2Proof.Machine.step t = .next u → Reaches s u

end Sys2Proof.Machine
end

