-- ==== Sys2Proof/Certificates/Slice0/Obligations.lean ====
section
/-! DEFINITION. Certificates/Slice0/Obligations.lean: the statements about the model, for the provers. A docstring names
the rule of spec/ a statement formalises, or, where it rests on one of the spec's own decisions D<n> or on a choice of this
model, that decision or the log entry. -/

open Sys2Proof Sys2Proof.Machine

/-! ## Encoding (30_encoding.md) -/

/-- Decoding the bytes of an instruction gives it back, with every operand at every value, for every well-formed opcode
map (30_encoding.md sections 1 to 3; the opcode numbers themselves are D1's). -/
def Obligations.DecodeOfEncode : Prop :=
  ∀ (t : OpcodeMap), t.wf = true → ∀ (i : Instr), i.wf = true → ∀ (rest : List Byte),
    decode t (encode t i ++ rest) = .instr i rest ∧
    (encode t i).length = i.length ∧ lengthOf t (t.byteOf i.mnemonic) = i.length

/-- The bytes a decoder reads an instruction from are the instruction's own encoding: each instruction has one encoding
(30_encoding.md section 3; opcode maps are D1's). -/
def Obligations.EncodeOfDecode : Prop :=
  ∀ (t : OpcodeMap), t.wf = true → ∀ (bs rest : List Byte) (i : Instr),
    decode t bs = .instr i rest → encode t i ++ rest = bs

/-- What an opcode byte of the reference opcode map tells: the 196 unrecognised bytes, and the length of what the byte
begins, recognised or not (30_encoding.md section 4; numbers by D1). -/
def Obligations.OpcodeByteTellsLength : Prop :=
  ∀ op : Byte,
    (refOpcodes.mnemonicOf op = none ↔
      (0x07 ≤ op ∧ op ≤ 0x0F) ∨ (0x1C ≤ op ∧ op ≤ 0x1F) ∨ op = 0x20 ∨ op = 0x25 ∨ op = 0x2A ∨ op = 0x2F ∨
      (0x35 ≤ op ∧ op ≤ 0x37) ∨ (0x3D ≤ op ∧ op ≤ 0x3F) ∨ (0x48 ≤ op ∧ op ≤ 0x4F) ∨ (0x58 ≤ op ∧ op ≤ 0x5F) ∨
      (0x63 ≤ op ∧ op ≤ 0xFF)) ∧
    lengthOf refOpcodes op =
      if op = 0x06 ∨ (0x14 ≤ op ∧ op ≤ 0x1B) ∨ (0x60 ≤ op ∧ op ≤ 0x62) then 3
      else if op = 0x02 ∨ (0x10 ≤ op ∧ op ≤ 0x13) ∨ (0x38 ≤ op ∧ op ≤ 0x3C) then 2
      else 1

/-- Words written out from the reference opcode map decode to the instructions they stand for (30_encoding.md section 3;
numbers by D1). -/
def Obligations.SampleWordsDecode : Prop :=
  decode refOpcodes [0x10, 0x2A] = .instr (.movAImm 0x2A) [] ∧
  decode refOpcodes [0x18, 0x80, 0x00] = .instr (.movMemA 0x0080) [] ∧
  decode refOpcodes [0x2D] = .instr .movDB [] ∧
  decode refOpcodes [0x39, 0x05] = .instr (.subImm 0x05) [] ∧
  decode refOpcodes [0x45] = .instr .decB [] ∧
  decode refOpcodes [0x62, 0x34, 0x12] = .instr (.jnz 0x1234) [] ∧
  decode refOpcodes [0x06, 0xFF, 0x7F] = .instr (.setSp 0x7FFF) [] ∧
  decode refOpcodes [0x53] = .instr .pushD [] ∧
  decode refOpcodes [0x05] = .instr .iret [] ∧
  decode refOpcodes [0x02, 0x07] = .instr (.syscall 0x07) [] ∧
  decode refOpcodes [0x25] = .unrecognized 0x25 []

/-! ## The step (40_execution_cycle.md) -/

/-- When the bytes at `PC` lie in ROM or RAM and decode to an instruction, the step runs that instruction on the state in
which `PC` is past its bytes and `IR` holds its opcode; before it the turn boundary, if a turn begins (R110, entry 8), and
after it the poll and the count of the step (R100, R105), which are refused if a transfer that a push of the interrupt entry
triggers never ends (entry 4). -/
def Obligations.StepRunsDecodedInstruction : Prop :=
  ∀ (s : State) (op : Byte) (bs : List Byte) (i : Instr),
    s.run = .running → decode s.cfg.opcodes (op :: bs) = .instr i [] →
    (∀ k, k < (op :: bs).length → bankByte s (s.pc + BitVec.ofNat 16 k) = (op :: bs)[k]?) →
    step s =
      match exec i { turnBoundary s with pc := s.pc + BitVec.ofNat 16 (op :: bs).length, ir := op } with
      | .next t => if pollEnds t then .next (countStep (poll t)) else .refused .endlessTransfer
      | .fault r => .fault r
      | .refused r => .refused r

/-- A step over any bus region (40_execution_cycle.md section 2; the turn boundary and the count are entry 8's): an opcode
in the map has all its operand bytes fetched and then its effect performed; any other opcode has the diagnostic as its
whole effect, no operand fetched, with `IR` holding the byte and `PC` one past it. The poll that follows is refused if a
transfer that a push of the interrupt entry triggers never ends (entry 4). -/
def Obligations.ExecuteLooksUpOpcode : Prop :=
  ∀ (s : State), (turnBoundary s).run = .running →
    let s0 := turnBoundary s
    let r := memRead s0 s0.pc
    let s1 := { r.2 with ir := r.1, pc := s0.pc + 1 }
    let finish (t : State) : Host.Outcome State Fault Refusal :=
      if pollEnds t then .next (countStep (poll t)) else .refused .endlessTransfer
    match s.cfg.opcodes.mnemonicOf r.1 with
    | none => step s = finish { s1 with diag := s1.diag ++ [.unrecognizedOpcode (s1.pc - 1) r.1] }
    | some m =>
      let w : Word × State :=
        match m.format with
        | .op => (0, s1)
        | .opI8 => (concat16 0 (fetch8 s1).1, (fetch8 s1).2)
        | .opI16 => fetch16 s1
      step s =
        match exec (m.toInstr w.1) w.2 with
        | .next t => finish t
        | .fault r => .fault r
        | .refused r => .refused r

/-- R103: the low byte is read first, at `PC`, the high byte second, at `PC + 1`, and `PC` advances by 2. -/
def Obligations.Fetch16LowByteFirst : Prop :=
  ∀ (s : State),
    let lo := memRead s s.pc
    let hi := memRead { lo.2 with pc := s.pc + 1 } (s.pc + 1)
    fetch16 s = (concat16 hi.1 lo.1, { hi.2 with pc := s.pc + 2 }) ∧
    (concat16 hi.1 lo.1).toNat = 256 * hi.1.toNat + lo.1.toNat

/-- Every instruction and every step has a next state, but for one case: a store, a push or the poll's interrupt entry that
triggers a DMA transfer whose source is the engine itself, in a configuration that makes an address port the trigger
(40_execution_cycle.md section 2; 93_implementation_defined.md V4, entry 4). Then the outcome is that refusal. -/
def Obligations.EveryStepCompletes : Prop :=
  (∀ (i : Instr) (s : State), ¬ SelfTriggering s → ∃ t, exec i s = .next t) ∧
  (∀ (i : Instr) (s : State),
    i.mnemonic ∉ [.MOV_MEM_A, .MOV_MEM_B, .MOV_MEM_C, .MOV_MEM_D, .PUSH_A, .PUSH_B, .PUSH_C, .PUSH_D] →
    ∃ t, exec i s = .next t) ∧
  (∀ s : State, s.cfg.dmaSrcAddrLoPort ≠ 7 → s.cfg.dmaSrcAddrHiPort ≠ 7 → ∃ t, step s = .next t) ∧
  ∀ s : State, (∃ t, step s = .next t) ∨ step s = .refused .endlessTransfer

/-- `RUN` becomes `halted` by `HALT` and by `SYSCALL 0` and by nothing else, `running` only by a reset, and a halted CPU makes
no step and no poll: a tick leaves everything of the block but the request lines (10_state.md sections 1 and 8,
40_execution_cycle.md sections 2 and 3, 60_exceptions.md section 3; no poll while halted, and requests that do not wake the
CPU, by D12). That a tick of a halted machine is a next state is entry 13's, the turn boundary and the turn counter are
entry 8's. -/
def Obligations.RunStateChanges : Prop :=
  (∀ (i : Instr) (s t : State), exec i s = .next t →
    t.run = if i = .halt ∨ i = .syscall 0 then .halted else s.run) ∧
  (∀ s : State, (unrecognized s).run = s.run ∧ (poll s).run = s.run ∧ (turnBoundary s).run = s.run ∧
    (fetchInstr s).2.run = s.run) ∧
  (∀ (s t : State), step s = .next t → s.run = .halted → t.run = .halted) ∧
  (∀ (s : State) (bank : Bank) (im : Image) (base : Word), (load s bank im base).run = s.run) ∧
  (∀ s : State, s.run = .halted → poll s = s ∧
    ∃ t, step s = .next t ∧
      t = { s with intc := { s.intc with lines := t.intc.lines }, env := t.env, turnStep := t.turnStep }) ∧
  (∀ (c : Cfg) (s : State), (coldReset c).run = .running ∧ (warmReset s).run = .running)

/-- A tick does nothing to a halted block but latch the requests of the turn boundary (40_execution_cycle.md section 2,
D12): no device is accessed and no diagnostic emitted. That it is a next state is entry 13's, the list of the requests at
boundaries, which moves on by one, entry 7's, and the turn counter entry 8's. -/
def Obligations.HaltedTickOnlyLatches : Prop :=
  ∀ (s : State), s.run = .halted →
    ∃ t, step s = .next t ∧
      t = { s with
            intc := { s.intc with lines := t.intc.lines }
            env := if s.turnStep = 0 then { s.env with boundary := s.env.boundary.tail } else s.env
            turnStep := 0 } ∧
      (s.turnStep ≠ 0 → t.intc.lines = s.intc.lines) ∧
      ∀ n : Fin 8, lineOf t n =
        if s.turnStep = 0 ∧ lineOf s n = .idle ∧ n.val ∈ s.env.boundary.headD [] then .pending else lineOf s n

/-- A tick from a turn boundary makes at least one and at most `STEPS_PER_TICK` steps and ends at a turn boundary, fewer
only when the CPU halted (40_execution_cycle.md section 1, D24; the count of steps is entry 8's). It has a next state unless
a DMA address port is the trigger (entry 4). -/
def Obligations.TickIsOneTurn : Prop :=
  ∀ (s : State), s.turnStep = 0 →
    (∀ t, tick s = .next t →
      ∃ k, 1 ≤ k ∧ k ≤ s.cfg.stepsPerTick ∧ core.run k s = .next t ∧ t.turnStep = 0 ∧
        (t.run = .halted ∨ k = s.cfg.stepsPerTick)) ∧
    (s.cfg.dmaSrcAddrLoPort ≠ 7 → s.cfg.dmaSrcAddrHiPort ≠ 7 → ∃ t, tick s = .next t)

/-- A store to RAM is seen by the very next fetch (20_memory.md section 8). -/
def Obligations.StoreSeenByNextFetch : Prop :=
  ∀ (s : State), Memory.wf s.ram.cells = true → regionOf s.cfg s.pc = .ram →
    ∃ t, exec (.movMemA s.pc) s = .next t ∧ fetch8 t = (s.a, { t with pc := s.pc + 1 })

/-! ## Data movement (41_data_movement.md) -/

/-- The moves of a literal or of a data register into a data register (41_data_movement.md sections 1 and 4; flags by
D3). -/
def Obligations.MoveResult : Prop :=
  ∀ (v : Byte) (s : State),
    let f (v : Byte) : Byte := if v = 0 then 0x02 else 0x00
    exec (.movAImm v) s = .next { s with a := v, flags := f v } ∧
    exec (.movBImm v) s = .next { s with b := v, flags := f v } ∧
    exec (.movCImm v) s = .next { s with c := v, flags := f v } ∧
    exec (.movDImm v) s = .next { s with d := v, flags := f v } ∧
    exec .movAB s = .next { s with a := s.b, flags := f s.b } ∧
    exec .movAC s = .next { s with a := s.c, flags := f s.c } ∧
    exec .movAD s = .next { s with a := s.d, flags := f s.d } ∧
    exec .movBA s = .next { s with b := s.a, flags := f s.a } ∧
    exec .movBC s = .next { s with b := s.c, flags := f s.c } ∧
    exec .movBD s = .next { s with b := s.d, flags := f s.d } ∧
    exec .movCA s = .next { s with c := s.a, flags := f s.a } ∧
    exec .movCB s = .next { s with c := s.b, flags := f s.b } ∧
    exec .movCD s = .next { s with c := s.d, flags := f s.d } ∧
    exec .movDA s = .next { s with d := s.a, flags := f s.a } ∧
    exec .movDB s = .next { s with d := s.b, flags := f s.b } ∧
    exec .movDC s = .next { s with d := s.c, flags := f s.c }

/-- The loads, from any bus address: one bus read, then the move of its byte; from ROM and RAM nothing else changes
(41_data_movement.md section 2; flags by D3). -/
def Obligations.LoadResult : Prop :=
  ∀ (a : Word) (s : State),
    let x := memRead s a
    let f : Byte := if x.1 = 0 then 0x02 else 0x00
    (exec (.movAMem a) s = .next { x.2 with a := x.1, flags := f } ∧
     exec (.movBMem a) s = .next { x.2 with b := x.1, flags := f } ∧
     exec (.movCMem a) s = .next { x.2 with c := x.1, flags := f } ∧
     exec (.movDMem a) s = .next { x.2 with d := x.1, flags := f }) ∧
    (∀ v, bankByte s a = some v → x = (v, s))

/-- The stores, to any bus address: one bus write of the register at the operand's address, `FLAGS` and the registers
unchanged (41_data_movement.md section 3). A write that never comes to its end is refused; every write ends that does not
trigger a transfer of the engine from itself through its trigger port (entry 4). -/
def Obligations.StoreResult : Prop :=
  ∀ (a : Word) (s : State),
    (writeEnds s (absoluteAddr a) = true →
      exec (.movMemA a) s = .next (memWrite s (absoluteAddr a) s.a) ∧
      exec (.movMemB a) s = .next (memWrite s (absoluteAddr a) s.b) ∧
      exec (.movMemC a) s = .next (memWrite s (absoluteAddr a) s.c) ∧
      exec (.movMemD a) s = .next (memWrite s (absoluteAddr a) s.d)) ∧
    (writeEnds s (absoluteAddr a) = false →
      ∀ i ∈ [Instr.movMemA a, .movMemB a, .movMemC a, .movMemD a], exec i s = .refused .endlessTransfer) ∧
    absoluteAddr a = a ∧ (¬ SelfTriggering s ∨ regionOf s.cfg a ≠ .io → writeEnds s a = true)

/-- The frame of a store to RAM: the addressed byte is the register, nothing but the Ram bank and, by eviction, `DIAG`
changes, and while the bank has room every other byte reads as before (41_data_movement.md section 3, 20_memory.md
section 3, D19). -/
def Obligations.StoreToRamFrame : Prop :=
  ∀ (a : Word) (s : State) (p : Instr × Byte),
    p ∈ [(Instr.movMemA a, s.a), (Instr.movMemB a, s.b), (Instr.movMemC a, s.c), (Instr.movMemD a, s.d)] →
    Memory.wf s.ram.cells = true → regionOf s.cfg (absoluteAddr a) = .ram →
    ∃ t, exec p.1 s = .next t ∧ t = { s with ram := t.ram, diag := t.diag } ∧
      bankByte t (absoluteAddr a) = some p.2 ∧
      (ramHas s (absoluteAddr a) = true ∨ s.ram.order.length < s.cfg.ramMaxEntries →
        t.diag = s.diag ∧ ∀ b, b ≠ absoluteAddr a → bankByte t b = bankByte s b)

/-! ## Arithmetic and logic (42_arithmetic_logic.md) -/

/-- `ADD` and `ADD_IMM` (42_arithmetic_logic.md sections 1 to 3). -/
def Obligations.AddResult : Prop :=
  ∀ (s : State),
    let added (y : Byte) : State :=
      let sum := s.a.toNat + y.toNat
      { s with
        a := BitVec.ofNat 8 (sum % 256)
        flags := (if sum % 256 = 0 then 0x02 else 0x00) ||| (if 255 < sum then 0x01 else 0x00) }
    exec .add s = .next (added s.b) ∧ ∀ v, exec (.addImm v) s = .next (added v)

/-- `SUB` and `SUB_IMM` (42_arithmetic_logic.md sections 1 to 3; the carry is the borrow, D4). -/
def Obligations.SubResult : Prop :=
  ∀ (s : State),
    let subtracted (y : Byte) : State :=
      let difference := (s.a.toNat + 256 - y.toNat) % 256
      { s with
        a := BitVec.ofNat 8 difference
        flags := (if difference = 0 then 0x02 else 0x00) ||| (if s.a.toNat < y.toNat then 0x01 else 0x00) }
    exec .sub s = .next (subtracted s.b) ∧ ∀ v, exec (.subImm v) s = .next (subtracted v)

/-- `AND`, `OR`, `XOR` and their immediate forms (42_arithmetic_logic.md sections 1 to 3; `C` is 0, D4). -/
def Obligations.LogicResult : Prop :=
  ∀ (s : State),
    let result (r : Byte) : State := { s with a := r, flags := if r = 0 then 0x02 else 0x00 }
    exec .and s = .next (result (s.a &&& s.b)) ∧
    exec .or s = .next (result (s.a ||| s.b)) ∧
    exec .xor s = .next (result (s.a ^^^ s.b)) ∧
    ∀ v, exec (.andImm v) s = .next (result (s.a &&& v)) ∧
      exec (.orImm v) s = .next (result (s.a ||| v)) ∧
      exec (.xorImm v) s = .next (result (s.a ^^^ v))

/-- `INC_r` and `DEC_r` (42_arithmetic_logic.md section 4; flags by D5): an increment sets both flags exactly when the byte
wraps; a decrement sets `Z` from 0x01 and `C` from 0x00. -/
def Obligations.IncrementDecrementResult : Prop :=
  ∀ (s : State),
    let inc (x : Byte) : Byte := BitVec.ofNat 8 ((x.toNat + 1) % 256)
    let incFlags (x : Byte) : Byte := if x = 0xFF then 0x03 else 0x00
    let dec (x : Byte) : Byte := BitVec.ofNat 8 ((x.toNat + 255) % 256)
    let decFlags (x : Byte) : Byte := if x = 0x01 then 0x02 else if x = 0x00 then 0x01 else 0x00
    exec .incA s = .next { s with a := inc s.a, flags := incFlags s.a } ∧
    exec .incB s = .next { s with b := inc s.b, flags := incFlags s.b } ∧
    exec .incC s = .next { s with c := inc s.c, flags := incFlags s.c } ∧
    exec .incD s = .next { s with d := inc s.d, flags := incFlags s.d } ∧
    exec .decA s = .next { s with a := dec s.a, flags := decFlags s.a } ∧
    exec .decB s = .next { s with b := dec s.b, flags := decFlags s.b } ∧
    exec .decC s = .next { s with c := dec s.c, flags := decFlags s.c } ∧
    exec .decD s = .next { s with d := dec s.d, flags := decFlags s.d }

/-! ## Control flow (43_control_flow.md) -/

/-- `JMP`, `JZ`, `JNZ`: only `PC` can change, to the operand itself (43_control_flow.md). -/
def Obligations.JumpResult : Prop :=
  ∀ (a : Word) (s : State),
    exec (.jmp a) s = .next { s with pc := a } ∧
    exec (.jz a) s = .next { s with pc := if s.flags.getLsbD 1 = true then a else s.pc } ∧
    exec (.jnz a) s = .next { s with pc := if s.flags.getLsbD 1 = true then s.pc else a }

/-! ## Stack (44_stack.md) -/

/-- `SET_SP` and `PUSH_r`, wherever `SP` points: a push is one bus write at `SP`, then `SP` decrements modulo 2^16
(44_stack.md sections 1 to 3, D7). A write that never comes to its end is refused, as for the stores (entry 4). -/
def Obligations.PushResult : Prop :=
  (∀ (w : Word) (s : State), exec (.setSp w) s = .next { s with sp := w }) ∧
  ∀ (s : State),
    (writeEnds s s.sp = true →
      exec .pushA s = .next { memWrite s s.sp s.a with sp := s.sp - 1 } ∧
      exec .pushB s = .next { memWrite s s.sp s.b with sp := s.sp - 1 } ∧
      exec .pushC s = .next { memWrite s s.sp s.c with sp := s.sp - 1 } ∧
      exec .pushD s = .next { memWrite s s.sp s.d with sp := s.sp - 1 }) ∧
    (writeEnds s s.sp = false →
      ∀ i ∈ [Instr.pushA, .pushB, .pushC, .pushD], exec i s = .refused .endlessTransfer) ∧
    (¬ SelfTriggering s ∨ regionOf s.cfg s.sp ≠ .io → writeEnds s s.sp = true)

/-- The frame of a push to RAM: the byte at the old `SP` is the register, `SP` is one lower, and while the Ram bank has
room nothing else changes (44_stack.md section 3, D7, D19). -/
def Obligations.PushToRamFrame : Prop :=
  ∀ (s : State) (p : Instr × Byte),
    p ∈ [(Instr.pushA, s.a), (Instr.pushB, s.b), (Instr.pushC, s.c), (Instr.pushD, s.d)] →
    Memory.wf s.ram.cells = true → regionOf s.cfg s.sp = .ram →
    ∃ t, exec p.1 s = .next t ∧ t = { s with sp := s.sp - 1, ram := t.ram, diag := t.diag } ∧
      bankByte t s.sp = some p.2 ∧
      (ramHas s s.sp = true ∨ s.ram.order.length < s.cfg.ramMaxEntries →
        t.diag = s.diag ∧ ∀ b, b ≠ s.sp → bankByte t b = bankByte s b)

/-- `POP_r`, wherever `SP` points: `SP` increments modulo 2^16, then one bus read at it gives the register; `FLAGS` stays,
and from ROM and RAM nothing else changes (44_stack.md sections 1 and 4, D7, D3). -/
def Obligations.PopResult : Prop :=
  ∀ (s : State),
    let x := memRead { s with sp := s.sp + 1 } (s.sp + 1)
    (exec .popA s = .next { x.2 with a := x.1 } ∧ exec .popB s = .next { x.2 with b := x.1 } ∧
     exec .popC s = .next { x.2 with c := x.1 } ∧ exec .popD s = .next { x.2 with d := x.1 }) ∧
    x.2.sp = s.sp + 1 ∧ x.2.flags = s.flags ∧
    ∀ v, bankByte s (s.sp + 1) = some v → x = (v, { s with sp := s.sp + 1 })

/-- A pop after a push into RAM returns the byte pushed and leaves `SP` as before the push, and the pop itself changes no
memory (44_stack.md section 1, D7). -/
def Obligations.PopAfterPush : Prop :=
  ∀ (s : State) (v : Byte), Memory.wf s.ram.cells = true → regionOf s.cfg s.sp = .ram →
    pop8 (push8 s v) = (v, { push8 s v with sp := s.sp }) ∧
    ∃ t u, exec .pushC s = .next t ∧ exec .popD t = .next u ∧ u = { t with d := s.c, sp := s.sp }

/-! ## Interrupt and system instructions (45_interrupt_and_system.md) -/

/-- `NOP`, `EI`, `DI`, `HALT` and `SYSCALL` (45_interrupt_and_system.md; `EI` sets and `DI` clears by D29, a call other
than 0 by D13, no poll after a halt by D12). -/
def Obligations.SystemResult : Prop :=
  ∀ (s : State),
    exec .nop s = .next s ∧
    exec .ei s = .next { s with intc := { s.intc with ie := true } } ∧
    exec .di s = .next { s with intc := { s.intc with ie := false } } ∧
    exec .halt s = .next { s with run := .halted } ∧
    exec (.syscall 0) s = .next { s with run := .halted } ∧
    (∀ n, n ≠ 0 → exec (.syscall n) s = .next { s with diag := s.diag ++ [.unknownSyscall (s.pc - 2) n] }) ∧
    poll { s with run := .halted } = { s with run := .halted }

/-- `IRET` in a handler context whose four stack bytes lie in ROM or RAM: `A`, `FLAGS` (masked), `PC` low and `PC` high
are popped in this order, the context ends, and nothing else changes; in particular the line is not acknowledged.
Outside a handler context it is a diagnosed no-op that pops nothing (45_interrupt_and_system.md section 1, D8 to D10). -/
def Obligations.InterruptReturnResult : Prop :=
  (∀ (s : State) (ra fl lo hi : Byte), s.inh = true →
    bankByte s (s.sp + 1) = some ra → bankByte s (s.sp + 2) = some fl →
    bankByte s (s.sp + 3) = some lo → bankByte s (s.sp + 4) = some hi →
    exec .iret s =
      .next { s with a := ra, flags := fl &&& 0x03, pc := concat16 hi lo, sp := s.sp + 4, inh := false }) ∧
  ∀ (s : State), s.inh = false →
    exec .iret s = .next { s with diag := s.diag ++ [.invalidInterruptReturn (s.pc - 1)] }

/-- `IRET` in a handler context, wherever `SP` points: `SP` ends 4 higher, the context ends, and of the rest only `A`,
`FLAGS` (bits 7:2 zero), `PC` and what four bus reads can change differs (45_interrupt_and_system.md section 1, D8,
D9). -/
def Obligations.InterruptReturnFrame : Prop :=
  ∀ (s : State), s.inh = true →
    ∃ t, exec .iret s = .next t ∧
      t = { s with
            a := t.a, flags := t.flags, pc := t.pc, sp := s.sp + 4, inh := false,
            intc := { s.intc with lines := t.intc.lines }, diag := t.diag, env := t.env } ∧
      t.flags.extractLsb' 2 6 = 0 ∧ s.diag <+: t.diag ∧
      ∀ n, lineOf t n = lineOf s n ∨ lineOf s n = .idle ∧ lineOf t n = .pending

/-! ## The bus and the banks (20_memory.md) -/

/-- R41: every address decodes to exactly one region, the one whose range holds it. -/
def Obligations.RegionsPartitionAddresses : Prop :=
  ∀ (c : Cfg) (a : Word),
    (regionOf c a = .rom ↔ c.romStart ≤ a ∧ a ≤ c.romEnd) ∧
    (regionOf c a = .io ↔ c.ioStart ≤ a ∧ a ≤ c.ioEnd) ∧
    (regionOf c a = .ram ↔ c.ramStart ≤ a ∧ a ≤ c.ramEnd)

/-- A bus read by region; only the I/O case can change state (20_memory.md section 1), and there it changes no CPU register,
no memory, no DMA register and no enable: it can raise idle lines, append to `DIAG` and move the environment on
(20_memory.md section 4, 50_dma_and_devices.md sections 1 and 2, 60_exceptions.md section 1; the controller's and the
engine's ports by D17 and D23, repeated requests by D18, all entry 14's; how State holds the environment is entry 6's). -/
def Obligations.BusReadByRegion : Prop :=
  ∀ (s : State) (a : Word),
    (regionOf s.cfg a = .rom → memRead s a = (romRead s a, s)) ∧
    (regionOf s.cfg a = .ram → memRead s a = (ramRead s a, s)) ∧
    (regionOf s.cfg a = .io → memRead s a = ioRead s (a.toNat - s.cfg.ioStart.toNat)) ∧
    let t := (memRead s a).2
    t = { s with intc := { s.intc with lines := t.intc.lines }, diag := t.diag, env := t.env } ∧
    s.diag <+: t.diag ∧
    ∀ n, lineOf t n = lineOf s n ∨ lineOf s n = .idle ∧ lineOf t n = .pending

/-- A bus write by region (20_memory.md section 1): it never faults, a write of any value to the trigger port is the whole
transfer (D23), and even in the I/O case it changes no CPU register, not `IE`, not the Rom bank, and puts no line into
service. A transfer that never ends is entry 4's. -/
def Obligations.BusWriteByRegion : Prop :=
  ∀ (s : State) (a : Word) (v : Byte),
    (regionOf s.cfg a = .rom → memWrite s a v = romWrite s a v) ∧
    (regionOf s.cfg a = .ram → memWrite s a v = ramWrite s a v) ∧
    (regionOf s.cfg a = .io → memWrite s a v = ioWrite s (a.toNat - s.cfg.ioStart.toNat) v) ∧
    (regionOf s.cfg a = .io → a.toNat = s.cfg.ioStart.toNat + 16 * s.cfg.dmaDev + 7 → memWrite s a v = transfer s) ∧
    let t := memWrite s a v
    t = { s with intc := t.intc, dma := t.dma, ram := t.ram, diag := t.diag, env := t.env } ∧
    t.intc.ie = s.intc.ie ∧ s.diag <+: t.diag ∧ (RamOk s → RamOk t) ∧
    ∀ n, lineOf t n = .servicing → lineOf s n = .servicing

/-- A write to ROM is refused: its effect is exactly the diagnostic, a read gives the original byte, and the writing
instruction completes (a store; a push, which writes at the old `SP` by D7 and decrements it) (20_memory.md section 2). -/
def Obligations.RomWriteRefused : Prop :=
  (∀ (s : State) (a : Word) (v : Byte), regionOf s.cfg a = .rom →
    memWrite s a v = { s with diag := s.diag ++ [.writeToReadOnly a v] } ∧
    (memRead (memWrite s a v) a).1 = (memRead s a).1) ∧
  (∀ (s : State) (a : Word), regionOf s.cfg a = .rom →
    ∀ p ∈ [(Instr.movMemA a, s.a), (Instr.movMemB a, s.b), (Instr.movMemC a, s.c), (Instr.movMemD a, s.d)],
      exec p.1 s = .next { s with diag := s.diag ++ [.writeToReadOnly a p.2] }) ∧
  (∀ (s : State), regionOf s.cfg s.sp = .rom →
    ∀ p ∈ [(Instr.pushA, s.a), (Instr.pushB, s.b), (Instr.pushC, s.c), (Instr.pushD, s.d)],
      exec p.1 s = .next { s with sp := s.sp - 1, diag := s.diag ++ [.writeToReadOnly s.sp p.2] })

/-- The Ram bank's insert and eviction rule (20_memory.md section 3, D19): an overwrite keeps the entry's age, a new entry
is the youngest, and in a full bank the oldest entry goes, is diagnosed and reads 0x00. -/
def Obligations.RamInsertAndEvict : Prop :=
  ∀ (s : State) (a : Word) (v : Byte), RamOk s → inRam s.cfg a = true →
    let t := ramWrite s a v
    RamOk t ∧ a ∈ t.ram.order ∧
    (a ∈ s.ram.order → t.ram.order = s.ram.order ∧ t.diag = s.diag ∧
      ∀ b, ramRead t b = if b = a then v else ramRead s b) ∧
    (a ∉ s.ram.order → s.ram.order.length < s.cfg.ramMaxEntries →
      t.ram.order = s.ram.order ++ [a] ∧ t.diag = s.diag ∧ ∀ b, ramRead t b = if b = a then v else ramRead s b) ∧
    (∀ e es, a ∉ s.ram.order → s.ram.order = e :: es → s.ram.order.length = s.cfg.ramMaxEntries →
      t.ram.order = es ++ [a] ∧ t.diag = s.diag ++ [.storageOverflow e] ∧
      ∀ b, ramRead t b = if b = a then v else if b = e then 0x00 else ramRead s b)

/-! ## Slots and ports (20_memory.md section 4, 50_dma_and_devices.md, 60_exceptions.md section 1) -/

/-- An access to a slot with no device: a read gives 0x00, a write does nothing, each with `UnknownPort` (20_memory.md
section 4; the controller and the engine as slots are D16's and D30's). -/
def Obligations.UnregisteredSlotAccess : Prop :=
  ∀ (s : State) (a : Word), regionOf s.cfg a = .io →
    let off := a.toNat - s.cfg.ioStart.toNat
    off / 16 ≠ s.cfg.intcDev → off / 16 ≠ s.cfg.dmaDev → off / 16 ∉ s.cfg.devices →
    memRead s a = (0x00, { s with diag := s.diag ++ [.unknownPort (off / 16) (off % 16) .read] }) ∧
    ∀ v, memWrite s a v = { s with diag := s.diag ++ [.unknownPort (off / 16) (off % 16) .write] }

/-- An access to a device outside the block: the environment answers, the access is recorded, and the requests the device
makes are latched before the access returns (50_dma_and_devices.md section 1; how State holds the answers is entry 6's,
and past the listed answers the answer is the free value). -/
def Obligations.OutsideDeviceAccess : Prop :=
  ∀ (s : State) (a : Word), regionOf s.cfg a = .io →
    let off := a.toNat - s.cfg.ioStart.toNat
    off / 16 ∈ s.cfg.devices →
    let after (e : DeviceEvent) : State :=
      { s with env := { s.env with replies := s.env.replies.tail, trace := s.env.trace ++ [e] } }
    let rd : DeviceEvent := .read (off / 16) (off % 16)
    let wr (v : Byte) : DeviceEvent := .write (off / 16) (off % 16) v
    (∀ r rs, s.env.replies = r :: rs →
      memRead s a = (r.value, requestAll (after rd) r.requests) ∧
      ∀ v, memWrite s a v = requestAll (after (wr v)) r.requests) ∧
    (s.env.replies = [] →
      (let r := Config.portReply (s.env.trace ++ [rd])
       memRead s a = (r.value, requestAll (after rd) r.requests)) ∧
      ∀ v, memWrite s a v = requestAll (after (wr v)) (Config.portReply (s.env.trace ++ [wr v])).requests)

/-- The interrupt controller's ports (60_exceptions.md section 1, D16, D17, D34). -/
def Obligations.ControllerPorts : Prop :=
  ∀ (s : State) (a : Word) (p : Nat), regionOf s.cfg a = .io →
    a.toNat = s.cfg.ioStart.toNat + 16 * s.cfg.intcDev + p →
    (p = 0 → memRead s a = (s.intc.enable, s) ∧
      ∀ v, memWrite s a v = { s with intc := { s.intc with enable := v } }) ∧
    (p = 1 → (∃ x, memRead s a = (x, s) ∧ ∀ n : Fin 8, x.getLsbD n = true ↔ lineOf s n = .pending) ∧
      ∀ v, memWrite s a v = s) ∧
    (p = 2 → memRead s a = (0x00, s) ∧
      (∀ (v : Byte) (n : Fin 8), v.toNat = n.val →
        memWrite s a v = { s with intc := { s.intc with lines := s.intc.lines.set n .idle } }) ∧
      ∀ v : Byte, 8 ≤ v.toNat → memWrite s a v = s) ∧
    (p = 3 → memRead s a = (s.intc.handlerLow, s) ∧
      ∀ v, memWrite s a v = { s with intc := { s.intc with handlerLow := v } }) ∧
    (p = 4 → memRead s a = (s.intc.handlerHigh, s) ∧
      ∀ v, memWrite s a v = { s with intc := { s.intc with handlerHigh := v } }) ∧
    (5 ≤ p → p < 16 →
      memRead s a = (0x00, { s with diag := s.diag ++ [.unknownPort s.cfg.intcDev p .read] }) ∧
      ∀ v, memWrite s a v = { s with diag := s.diag ++ [.unknownPort s.cfg.intcDev p .write] })

/-- The DMA engine's ports (50_dma_and_devices.md section 2, D23): each byte register reads back, a write leaves the other
byte of a 16-bit register, and any value written to port 7 runs the transfer. -/
def Obligations.DmaPorts : Prop :=
  ∀ (s : State) (a : Word) (p : Nat), regionOf s.cfg a = .io →
    a.toNat = s.cfg.ioStart.toNat + 16 * s.cfg.dmaDev + p →
    (p = 0 → memRead s a = (s.dma.dev, s) ∧ ∀ v, memWrite s a v = { s with dma := { s.dma with dev := v } }) ∧
    (p = 1 → memRead s a = (lo8 s.dma.srcStart, s) ∧
      ∀ v, memWrite s a v = { s with dma := { s.dma with srcStart := concat16 (hi8 s.dma.srcStart) v } }) ∧
    (p = 2 → memRead s a = (hi8 s.dma.srcStart, s) ∧
      ∀ v, memWrite s a v = { s with dma := { s.dma with srcStart := concat16 v (lo8 s.dma.srcStart) } }) ∧
    (p = 3 → memRead s a = (lo8 s.dma.srcEnd, s) ∧
      ∀ v, memWrite s a v = { s with dma := { s.dma with srcEnd := concat16 (hi8 s.dma.srcEnd) v } }) ∧
    (p = 4 → memRead s a = (hi8 s.dma.srcEnd, s) ∧
      ∀ v, memWrite s a v = { s with dma := { s.dma with srcEnd := concat16 v (lo8 s.dma.srcEnd) } }) ∧
    (p = 5 → memRead s a = (lo8 s.dma.target, s) ∧
      ∀ v, memWrite s a v = { s with dma := { s.dma with target := concat16 (hi8 s.dma.target) v } }) ∧
    (p = 6 → memRead s a = (hi8 s.dma.target, s) ∧
      ∀ v, memWrite s a v = { s with dma := { s.dma with target := concat16 v (lo8 s.dma.target) } }) ∧
    (p = 7 → memRead s a = (0x00, s) ∧ ∀ v, memWrite s a v = transfer s) ∧
    (8 ≤ p → p < 16 →
      memRead s a = (0x00, { s with diag := s.diag ++ [.unknownPort s.cfg.dmaDev p .read] }) ∧
      ∀ v, memWrite s a v = { s with diag := s.diag ++ [.unknownPort s.cfg.dmaDev p .write] })

/-! ## The DMA transfer (50_dma_and_devices.md section 2) -/

/-- An empty source range does nothing; a target range that is not inside RAM is abandoned before any access, with the
diagnostic as the whole effect (50_dma_and_devices.md section 2, D22). -/
def Obligations.TransferGuards : Prop :=
  ∀ (s : State),
    (s.dma.srcEnd.toNat < s.dma.srcStart.toNat → transfer s = s) ∧
    (∀ n, s.dma.srcStart.toNat ≤ s.dma.srcEnd.toNat → n = s.dma.srcEnd.toNat - s.dma.srcStart.toNat + 1 →
      ¬ (s.cfg.ramStart.toNat ≤ s.dma.target.toNat ∧ s.dma.target.toNat + n - 1 ≤ s.cfg.ramEnd.toNat) →
      transfer s = { s with diag := s.diag ++ [.dmaOutOfRange s.dma.target n] })

/-- A transfer from a device outside the block leaves at each target address the byte the device holds at the
source address, if the range check passes and the entry written is still there. The device answers the data read
that follows the drive of address `x` with `byteAt x`; the accesses it sees are, per byte, the low address byte, the
high one and the read, through the three ports of D21. With room for all bytes none is evicted, and then nothing is
diagnosed (50_dma_and_devices.md section 2, R235; how State holds the device's answers and the accesses is entry 6's). -/
def Obligations.TransferCopiesDeviceBytes : Prop :=
  ∀ (s : State) (byteAt : Word → Byte) (n : Nat),
    RamOk s → s.dma.dev.toNat ∈ s.cfg.devices →
    s.dma.srcStart.toNat ≤ s.dma.srcEnd.toNat → n = s.dma.srcEnd.toNat - s.dma.srcStart.toNat + 1 →
    s.cfg.ramStart.toNat ≤ s.dma.target.toNat → s.dma.target.toNat + n - 1 ≤ s.cfg.ramEnd.toNat →
    (∀ i, i < n → (s.env.replies[3 * i + 2]?).map PortReply.value =
      some (byteAt (s.dma.srcStart + BitVec.ofNat 16 i))) →
    (∀ i, i < n → ramHas (transfer s) (s.dma.target + BitVec.ofNat 16 i) = true →
      bankByte (transfer s) (s.dma.target + BitVec.ofNat 16 i) = some (byteAt (s.dma.srcStart + BitVec.ofNat 16 i))) ∧
    (s.ram.order.length + n ≤ s.cfg.ramMaxEntries →
      (transfer s).diag = s.diag ∧
      ∀ i, i < n → ramHas (transfer s) (s.dma.target + BitVec.ofNat 16 i) = true) ∧
    (transfer s).env.trace = s.env.trace ++ (List.range n).flatMap (fun i =>
      let x := s.dma.srcStart + BitVec.ofNat 16 i
      [.write s.dma.dev.toNat s.cfg.dmaSrcAddrLoPort (lo8 x),
       .write s.dma.dev.toNat s.cfg.dmaSrcAddrHiPort (hi8 x),
       .read s.dma.dev.toNat s.cfg.dmaSrcDataPort])

/-- A transfer from a slot with no device fills the target range with 0x00 and emits three diagnostics a byte
(50_dma_and_devices.md section 2, D21); while the bank has room every other byte reads as before. -/
def Obligations.TransferFromEmptySlot : Prop :=
  ∀ (s : State) (n : Nat),
    RamOk s → s.dma.dev.toNat ≠ s.cfg.intcDev → s.dma.dev.toNat ≠ s.cfg.dmaDev →
    s.dma.dev.toNat ∉ s.cfg.devices →
    s.dma.srcStart.toNat ≤ s.dma.srcEnd.toNat → n = s.dma.srcEnd.toNat - s.dma.srcStart.toNat + 1 →
    s.cfg.ramStart.toNat ≤ s.dma.target.toNat → s.dma.target.toNat + n - 1 ≤ s.cfg.ramEnd.toNat →
    s.ram.order.length + n ≤ s.cfg.ramMaxEntries →
    transfer s =
      { s with
        ram := (transfer s).ram
        diag := s.diag ++ (List.replicate n
          [Diagnostic.unknownPort s.dma.dev.toNat s.cfg.dmaSrcAddrLoPort .write,
           Diagnostic.unknownPort s.dma.dev.toNat s.cfg.dmaSrcAddrHiPort .write,
           Diagnostic.unknownPort s.dma.dev.toNat s.cfg.dmaSrcDataPort .read]).flatten } ∧
    ∀ b : Word, bankByte (transfer s) b =
      if s.dma.target.toNat ≤ b.toNat ∧ b.toNat < s.dma.target.toNat + n then some 0x00 else bankByte s b

/-- What any transfer leaves: the DMA registers as they were unless the engine is its own source, the CPU's registers,
`IE` and the Rom bank always, every bank byte outside the target range unless the occupancy rule evicts it, and no line
goes into service, whatever the source (50_dma_and_devices.md section 2, D19, D22). In the clauses about bytes and about the
controller's registers no transfer is nested in this one (entry 4). -/
def Obligations.TransferFrame : Prop :=
  ∀ (s : State),
    let t := transfer s
    let n := s.dma.srcEnd.toNat + 1 - s.dma.srcStart.toNat
    (∀ m, lineOf t m = .servicing → lineOf s m = .servicing) ∧
    (¬ SelfTriggering s → RamOk s →
      ∀ b : Word, ¬ (s.dma.target.toNat ≤ b.toNat ∧ b.toNat < s.dma.target.toNat + n) →
        (s.ram.order.length + n ≤ s.cfg.ramMaxEntries → bankByte t b = bankByte s b) ∧
        (bankByte t b = bankByte s b ∨
          ramHas s b = true ∧ ramHas t b = false ∧ bankByte t b = some 0x00 ∧ .storageOverflow b ∈ t.diag)) ∧
    (s.dma.dev.toNat ≠ s.cfg.dmaDev → t.dma = s.dma) ∧
    (¬ SelfTriggering s → s.dma.dev.toNat ≠ s.cfg.intcDev →
      t.intc = { s.intc with lines := t.intc.lines } ∧
      ∀ n, lineOf t n = lineOf s n ∨ lineOf s n = .idle ∧ lineOf t n = .pending) ∧
    t = { s with intc := t.intc, dma := t.dma, ram := t.ram, diag := t.diag, env := t.env } ∧
    t.intc.ie = s.intc.ie ∧ (RamOk s → RamOk t) ∧ s.diag <+: t.diag

/-- A transfer that cannot trigger itself ends, from every state. One whose source is the engine itself, with the low
address port its trigger, a range that is not empty and a target inside RAM starts itself for ever: the store, the push or
the interrupt entry that triggers it is refused (50_dma_and_devices.md section 2, R229 and R233;
93_implementation_defined.md V4, entry 4). -/
def Obligations.EndlessTransferRefused : Prop :=
  (∀ s : State, ¬ SelfTriggering s → transferResult s = some (transfer s)) ∧
  ∀ (s : State) (a : Word),
    regionOf s.cfg a = .io → a.toNat = s.cfg.ioStart.toNat + 16 * s.cfg.dmaDev + 7 →
    s.dma.dev.toNat = s.cfg.dmaDev → s.cfg.dmaSrcAddrLoPort = 7 → s.dma.srcStart.toNat ≤ s.dma.srcEnd.toNat →
    s.cfg.ramStart.toNat ≤ s.dma.target.toNat →
    s.dma.target.toNat + (s.dma.srcEnd.toNat - s.dma.srcStart.toNat) ≤ s.cfg.ramEnd.toNat →
    writeEnds s a = false ∧
    (∀ i ∈ [Instr.movMemA a, .movMemB a, .movMemC a, .movMemD a], exec i s = .refused .endlessTransfer) ∧
    (s.sp = a → ∀ i ∈ [Instr.pushA, .pushB, .pushC, .pushD], exec i s = .refused .endlessTransfer) ∧
    (∀ n, s.sp = a → entryEnds s n = false)

/-! ## Interrupts (60_exceptions.md sections 1 and 2, 40_execution_cycle.md) -/

/-- A request latches an idle line whatever the enables; any other request changes nothing (60_exceptions.md section 1,
D18). -/
def Obligations.RequestLatchesIdleLine : Prop :=
  ∀ (s : State),
    (∀ n : Fin 8, lineOf s n = .idle →
      requestInterrupt s n.val = { s with intc := { s.intc with lines := s.intc.lines.set n .pending } }) ∧
    (∀ n : Fin 8, lineOf s n ≠ .idle → requestInterrupt s n.val = s) ∧
    ∀ n, 8 ≤ n → requestInterrupt s n = s

/-- The poll enters the interrupt of the lowest pending enabled line when the CPU runs, interrupts are on, no handler is
active and no line is in service, and does nothing in every other case (40_execution_cycle.md section 2, 60_exceptions.md
section 1, D9, D12). -/
def Obligations.PollEntersLowestEligibleLine : Prop :=
  ∀ (s : State),
    (∀ n : Fin 8, s.run = .running → s.intc.ie = true → s.inh = false → (∀ m, lineOf s m ≠ .servicing) →
      lineOf s n = .pending → s.intc.enable.getLsbD n = true →
      (∀ m, m < n → ¬ (lineOf s m = .pending ∧ s.intc.enable.getLsbD m = true)) →
      poll s = interruptEntry s n) ∧
    (s.run = .halted ∨ s.intc.ie = false ∨ s.inh = true ∨ (∃ m, lineOf s m = .servicing) ∨
      (∀ n : Fin 8, ¬ (lineOf s n = .pending ∧ s.intc.enable.getLsbD n = true)) → poll s = s)

/-- A masked line is not dispatched: no number of requests on a line whose enable bit is 0 makes the poll do anything when
no other line is eligible, and the poll never puts a disabled line into service (60_exceptions.md section 1). -/
def Obligations.MaskedLineNotDispatched : Prop :=
  (∀ (s : State) (n : Fin 8) (k : Nat), s.intc.enable.getLsbD n = false →
    (∀ m, m ≠ n → ¬ (lineOf s m = .pending ∧ s.intc.enable.getLsbD m = true)) →
    let t := requestAll s (List.replicate k n.val)
    poll t = t ∧ t.pc = s.pc ∧ (1 ≤ k → lineOf t n ≠ .idle)) ∧
  (∀ (s : State) (n : Fin 8), s.intc.enable.getLsbD n = false → lineOf (poll s) n = .servicing →
    lineOf s n = .servicing)

/-- Interrupt entry, wherever `SP` points: the line goes into service, then `PC` high, `PC` low, `FLAGS` and `A` are four bus
writes at `SP` and below, each with `SP` at its address; then `SP` is 4 lower, `PC` comes from the handler registers as the
writes leave them and the handler context begins. No other register of the CPU changes, nor `IE`; no other line goes into
service; it comes to its end exactly if the four writes do (60_exceptions.md section 2, D8, D11; the last is entry 4's). -/
def Obligations.InterruptEntryFrame : Prop :=
  ∀ (s : State) (n : Fin 8),
    let t := interruptEntry s n
    let s1 := { s with intc := { s.intc with lines := s.intc.lines.set n .servicing } }
    let s2 := { memWrite s1 s.sp (hi8 s.pc) with sp := s.sp - 1 }
    let s3 := { memWrite s2 (s.sp - 1) (lo8 s.pc) with sp := s.sp - 2 }
    let s4 := { memWrite s3 (s.sp - 2) s.flags with sp := s.sp - 3 }
    let s5 := memWrite s4 (s.sp - 3) s.a
    t = { s5 with sp := s.sp - 4, pc := concat16 s5.intc.handlerHigh s5.intc.handlerLow, inh := true } ∧
    (entryEnds s n = true ↔
      writeEnds s1 s.sp = true ∧ writeEnds s2 (s.sp - 1) = true ∧ writeEnds s3 (s.sp - 2) = true ∧
      writeEnds s4 (s.sp - 3) = true) ∧
    t = { s with
          pc := concat16 t.intc.handlerHigh t.intc.handlerLow, sp := s.sp - 4, inh := true,
          intc := t.intc, dma := t.dma, ram := t.ram, diag := t.diag, env := t.env } ∧
    t.intc.ie = s.intc.ie ∧ s.diag <+: t.diag ∧ (RamOk s → RamOk t) ∧
    ∀ m, lineOf t m = .servicing → m = n ∨ lineOf s m = .servicing

/-- Interrupt entry with its frame in RAM: the line is in service, `PC` is the handler vector, and the four bytes hold
`PC` high, `PC` low, `FLAGS` and `A` from the old `SP` downward; nothing else changes (60_exceptions.md section 2, D8,
D11). -/
def Obligations.InterruptEntryToRam : Prop :=
  ∀ (s : State) (n : Fin 8), RamOk s →
    (∀ k, k < 4 → regionOf s.cfg (s.sp - BitVec.ofNat 16 k) = .ram) →
    s.ram.order.length + 4 ≤ s.cfg.ramMaxEntries →
    let t := interruptEntry s n
    t = { s with
          pc := concat16 s.intc.handlerHigh s.intc.handlerLow, sp := s.sp - 4, inh := true,
          intc := { s.intc with lines := s.intc.lines.set n .servicing }, ram := t.ram } ∧
    bankByte t s.sp = some (hi8 s.pc) ∧ bankByte t (s.sp - 1) = some (lo8 s.pc) ∧
    bankByte t (s.sp - 2) = some s.flags ∧ bankByte t (s.sp - 3) = some s.a ∧
    ∀ b, b ≠ s.sp → b ≠ s.sp - 1 → b ≠ s.sp - 2 → b ≠ s.sp - 3 → bankByte t b = bankByte s b

/-- An `IRET` executed in the handler with the frame as entry left it resumes the interrupted program: `PC`, `SP`, `A` and
`FLAGS` are what they were before entry, and the line stays in service until it is acknowledged (60_exceptions.md section
2, 45_interrupt_and_system.md section 1, D8, D9). The handler may have changed everything else meanwhile. -/
def Obligations.ReturnResumesInterruptedProgram : Prop :=
  ∀ (s h : State) (n : Fin 8), RamOk s → FlagsOk s →
    (∀ k, k < 4 → regionOf s.cfg (s.sp - BitVec.ofNat 16 k) = .ram) →
    s.ram.order.length + 4 ≤ s.cfg.ramMaxEntries →
    h.inh = true → h.sp = (interruptEntry s n).sp →
    (∀ k, k < 4 → bankByte h (s.sp - BitVec.ofNat 16 k) =
      bankByte (interruptEntry s n) (s.sp - BitVec.ofNat 16 k)) →
    exec .iret h = .next { h with a := s.a, flags := s.flags, pc := s.pc, sp := s.sp, inh := false }

/-! ## The whole machine -/

/-- Every step keeps the invariant: the two banks in canonical form and in their ranges, the Ram bank within its capacity,
`FLAGS` bits 7:2 zero, at most one line in service, the turn counter below the turn's length (10_state.md sections 1, 3
and 5; the last is entry 8's). -/
def Obligations.StepKeepsInvariant : Prop :=
  ∀ (s t : State), Inv s → step s = .next t → Inv t

/-- The invariant holds after a cold reset of every configuration, and so at the reset state (10_state.md section 8; the
reference configuration is entry 2's). -/
def Obligations.ResetMeetsInvariant : Prop :=
  (∀ c : Cfg, Inv (coldReset c)) ∧ Inv State.reset

/-- The host's operations and a device's request keep the invariant (70_reset_and_hazards.md sections 1, 2 and 6). -/
def Obligations.HostKeepsInvariant : Prop :=
  ∀ (s : State), Inv s →
    Inv (warmReset s) ∧ (∀ n, Inv (requestInterrupt s n)) ∧
    ∀ (bank : Bank) (im : Image) (base : Word), Inv (load s bank im base)

/-- However long the machine runs, the configuration and the Rom bank stay and `DIAG` only grows (10_state.md sections 5
and 6; that no record is ever removed is D14's). -/
def Obligations.RunKeepsRomAndLog : Prop :=
  ∀ (s t : State), Reaches s t → t.cfg = s.cfg ∧ t.rom = s.rom ∧ s.diag <+: t.diag

/-- `DIAG` is invisible to the machine: a step from the same state with another log does the same and appends the same
records (60_exceptions.md section 3). -/
def Obligations.LogIsInvisible : Prop :=
  ∀ (s t : State) (l : List Diagnostic), step s = .next t →
    ∃ new, t.diag = s.diag ++ new ∧ step { s with diag := l } = .next { t with diag := l ++ new }

/-- Which instructions write `FLAGS`, and how: the arithmetic and logic instructions and the moves into a data register
replace the whole byte, `IRET` in a handler context restores it to the second byte popped, masked, and no other instruction,
no unrecognised opcode and no interrupt entry changes it (10_state.md section 1; the moves by D3, the mask by D6). -/
def Obligations.FlagWriters : Prop :=
  let arithmetic : List Mnemonic := [.ADD, .SUB, .AND, .OR, .XOR, .ADD_IMM, .SUB_IMM, .AND_IMM, .OR_IMM, .XOR_IMM]
  let counting : List Mnemonic := [.INC_A, .INC_B, .INC_C, .INC_D, .DEC_A, .DEC_B, .DEC_C, .DEC_D]
  let loads : List Mnemonic :=
    [.MOV_A_IMM, .MOV_B_IMM, .MOV_C_IMM, .MOV_D_IMM, .MOV_A_MEM, .MOV_B_MEM, .MOV_C_MEM, .MOV_D_MEM]
  let copies : List Mnemonic :=
    [.MOV_A_B, .MOV_A_C, .MOV_A_D, .MOV_B_A, .MOV_B_C, .MOV_B_D, .MOV_C_A, .MOV_C_B, .MOV_C_D, .MOV_D_A, .MOV_D_B,
     .MOV_D_C]
  let writers := arithmetic ++ counting ++ loads ++ copies
  (∀ (i : Instr) (s t : State), exec i s = .next t →
    (i.mnemonic ∈ writers →
      ∃ z c : Bool, t.flags = (if z then 0x02 else 0x00) ||| (if c then 0x01 else 0x00)) ∧
    (i = .iret → s.inh = true → t.flags = (pop8 (setReg (pop8 s).2 .A (pop8 s).1)).1 &&& 0x03) ∧
    (i = .iret → s.inh = false → t.flags = s.flags) ∧
    (i.mnemonic ∉ writers → i ≠ .iret → t.flags = s.flags)) ∧
  ∀ (s : State) (n : Fin 8), (unrecognized s).flags = s.flags ∧ (interruptEntry s n).flags = s.flags

/-- Which instructions write which register: the data registers, `SP`, and `PC` beyond the fetch (10_state.md section 1;
the frame's `A` is D8's). -/
def Obligations.RegisterWriters : Prop :=
  ∀ (i : Instr) (s t : State), exec i s = .next t →
    (t.a ≠ s.a → i.mnemonic ∈
      [.MOV_A_IMM, .MOV_A_MEM, .MOV_A_B, .MOV_A_C, .MOV_A_D, .ADD, .SUB, .AND, .OR, .XOR, .ADD_IMM, .SUB_IMM, .AND_IMM,
       .OR_IMM, .XOR_IMM, .INC_A, .DEC_A, .POP_A, .IRET]) ∧
    (t.b ≠ s.b → i.mnemonic ∈ [.MOV_B_IMM, .MOV_B_MEM, .MOV_B_A, .MOV_B_C, .MOV_B_D, .INC_B, .DEC_B, .POP_B]) ∧
    (t.c ≠ s.c → i.mnemonic ∈ [.MOV_C_IMM, .MOV_C_MEM, .MOV_C_A, .MOV_C_B, .MOV_C_D, .INC_C, .DEC_C, .POP_C]) ∧
    (t.d ≠ s.d → i.mnemonic ∈ [.MOV_D_IMM, .MOV_D_MEM, .MOV_D_A, .MOV_D_B, .MOV_D_C, .INC_D, .DEC_D, .POP_D]) ∧
    (t.sp ≠ s.sp → i.mnemonic ∈
      [.SET_SP, .PUSH_A, .PUSH_B, .PUSH_C, .PUSH_D, .POP_A, .POP_B, .POP_C, .POP_D, .IRET]) ∧
    (t.pc ≠ s.pc → i.mnemonic ∈ [.JMP, .JZ, .JNZ, .IRET])

/-- `IR` holds the opcode byte the step fetched, recognised or not; nothing else of a step writes it, and a halted tick
leaves it (10_state.md section 1). -/
def Obligations.OpcodeStaysInIr : Prop :=
  (∀ (i : Instr) (s t : State), exec i s = .next t → t.ir = s.ir) ∧
  ∀ (s t : State), step s = .next t →
    (s.run = .running → t.ir = (memRead (turnBoundary s) s.pc).1) ∧ (s.run = .halted → t.ir = s.ir)

/-- Of the instructions only `EI` and `DI` write `IE` and only `IRET` ends the handler context; the poll leaves `IE` and begins
the context by interrupt entry only; fetch, an unrecognised opcode, the turn boundary (entry 8) and a load leave both; both
resets clear both (10_state.md sections 2, 3 and 8, D9, D11). -/
def Obligations.EnableAndContextWriters : Prop :=
  (∀ (i : Instr) (s t : State), exec i s = .next t →
    t.intc.ie = (if i = .ei then true else if i = .di then false else s.intc.ie) ∧
    t.inh = (if i = .iret then false else s.inh)) ∧
  (∀ (s : State), (poll s).intc.ie = s.intc.ie ∧
    ((poll s).inh = s.inh ∨ s.inh = false ∧ (poll s).inh = true ∧ ∃ n, poll s = interruptEntry s n)) ∧
  (∀ (s : State) (bank : Bank) (im : Image) (base : Word),
    ∀ t ∈ [(fetchInstr s).2, unrecognized s, turnBoundary s, load s bank im base],
      t.intc.ie = s.intc.ie ∧ t.inh = s.inh) ∧
  ∀ (c : Cfg) (s : State), ∀ t ∈ [coldReset c, warmReset s], t.intc.ie = false ∧ t.inh = false

/-! ## Reset and loading (10_state.md section 8, 70_reset_and_hazards.md) -/

/-- The state after a cold reset (10_state.md section 8: registers, `RUN`; the values the source does not give are D14's,
the empty banks D19's and D20's; REF is entry 2's), and a warm reset, which restarts the CPU, the controller and the DMA
registers and keeps the handler vector, the two banks and `DIAG` (70_reset_and_hazards.md section 1, D14; the record of the
devices' reset and the turn counter are entries 6 and 8). -/
def Obligations.ResetValues : Prop :=
  (∀ (c : Cfg),
    let s := coldReset c
    s.cfg = c ∧ s.a = 0 ∧ s.b = 0 ∧ s.c = 0 ∧ s.d = 0 ∧ s.flags = 0 ∧ s.pc = c.resetVector ∧ s.sp = c.stackEnd ∧
    s.run = .running ∧ s.ir = 0 ∧ s.inh = false ∧ s.intc.ie = false ∧ s.intc.enable = 0 ∧
    (∀ n, lineOf s n = .idle) ∧ s.intc.handlerLow = 0 ∧ s.intc.handlerHigh = 0 ∧
    s.dma = { dev := 0, srcStart := 0, srcEnd := 0, target := 0 } ∧ s.diag = [] ∧ s.ram.order = [] ∧
    ∀ a v, bankByte s a = some v → v = 0x00) ∧
  State.reset.pc = 0x8100 ∧ State.reset.sp = 0x7FFF ∧
  ∀ (s : State),
    warmReset s =
      { coldReset s.cfg with
        intc := { (coldReset s.cfg).intc with handlerLow := s.intc.handlerLow, handlerHigh := s.intc.handlerHigh }
        rom := s.rom, ram := s.ram, diag := s.diag
        env := { s.env with trace := s.env.trace ++ [.reset] } }

/-- Loading into ROM puts the last byte of the image for an address there, leaves every other byte, refuses the entries
outside the bank, and changes nothing else (70_reset_and_hazards.md section 2, D28). -/
def Obligations.LoadFillsRom : Prop :=
  ∀ (s : State) (im : Image) (base : Word), Memory.wf s.rom = true →
    let t := load s .rom im base
    t = { s with rom := t.rom } ∧
    (∀ x : Word, inRom s.cfg x = true →
      romRead t x =
        (((imageEntries im).filter (fun e => base + e.address == x)).getLast?.map ImageEntry.value).getD (romRead s x)) ∧
    (∀ x : Word, inRom s.cfg x = false → romRead t x = romRead s x) ∧
    loadRefused s.cfg .rom im base = (imageEntries im).filter (fun e => !inRom s.cfg (base + e.address))
end

