-- ==== Sys2Proof/Laws/Decode.lean ====
section
/-! SUPPORT. Laws/Decode.lean: the byte halves of a word and the rows of an opcode map. -/

namespace Sys2Proof

@[simp] theorem concat16_hi8_lo8 (w : Word) : concat16 (hi8 w) (lo8 w) = w := by
  apply BitVec.eq_of_getLsbD_eq
  intro i hi
  simp only [concat16, hi8, lo8, BitVec.getLsbD_append, BitVec.getLsbD_extractLsb']
  by_cases h : i < 8
  · simp [h]
  · have h2 : i - 8 < 8 := by omega
    have h3 : 8 + (i - 8) = i := by omega
    simp [h, h2, h3]

@[simp] theorem lo8_concat16 (h l : Byte) : lo8 (concat16 h l) = l := by
  apply BitVec.eq_of_getLsbD_eq
  intro i hi
  simp only [concat16, lo8, BitVec.getLsbD_extractLsb', BitVec.getLsbD_append]
  simp [hi]

@[simp] theorem hi8_concat16 (h l : Byte) : hi8 (concat16 h l) = h := by
  apply BitVec.eq_of_getLsbD_eq
  intro i hi
  simp only [concat16, hi8, BitVec.getLsbD_append, BitVec.getLsbD_extractLsb']
  simp [hi]

/-- `{h, l} = 256*h + l` (00_scope.md section 5). -/
theorem concat16_toNat (h l : Byte) : (concat16 h l).toNat = 256 * h.toNat + l.toNat := by
  have := l.isLt
  simp only [concat16, BitVec.toNat_append]
  rw [← Nat.shiftLeft_add_eq_or_of_lt this, Nat.shiftLeft_eq]
  omega

/-! ## Rows of a well-formed opcode map (00_scope.md R3) -/

/-- Looking a key up finds its row. -/
theorem find_key {α β : Type} [BEq α] [LawfulBEq α] {l : List (α × β)} (hn : (l.map Prod.fst).Nodup) {a : α} {b : β}
    (h : (a, b) ∈ l) : l.find? (fun row => row.1 == a) = some (a, b) := by
  induction l with
  | nil => simp at h
  | cons x l ih =>
    obtain ⟨x1, x2⟩ := x
    simp only [List.map_cons, List.nodup_cons] at hn
    rcases List.mem_cons.1 h with h | h
    · cases h; simp
    · have hx : x1 ≠ a := fun e => hn.1 (e ▸ List.mem_map_of_mem (f := Prod.fst) h)
      simp only [List.find?_cons, beq_false_of_ne hx]
      exact ih hn.2 h

/-- Looking a value up finds its row. -/
theorem find_value {α β : Type} [BEq β] [LawfulBEq β] {l : List (α × β)} (hn : (l.map Prod.snd).Nodup) {a : α} {b : β}
    (h : (a, b) ∈ l) : l.find? (fun row => row.2 == b) = some (a, b) := by
  induction l with
  | nil => simp at h
  | cons x l ih =>
    obtain ⟨x1, x2⟩ := x
    simp only [List.map_cons, List.nodup_cons] at hn
    rcases List.mem_cons.1 h with h | h
    · cases h; simp
    · have hx : x2 ≠ b := fun e => hn.1 (e ▸ List.mem_map_of_mem (f := Prod.snd) h)
      simp only [List.find?_cons, beq_false_of_ne hx]
      exact ih hn.2 h

theorem mnemonic_mem_all (m : Mnemonic) : m ∈ Mnemonic.all := by cases m <;> decide

theorem mnemonic_all_nodup : Mnemonic.all.Nodup := by decide

/-- Every mnemonic has a row, and its byte is the one of that row. -/
theorem byteOf_mem {t : OpcodeMap} (h : t.wf = true) (m : Mnemonic) : (m, t.byteOf m) ∈ t := by
  simp only [OpcodeMap.wf, Bool.and_eq_true, decide_eq_true_eq] at h
  have hm : m ∈ t.map Prod.fst := h.1 ▸ mnemonic_mem_all m
  obtain ⟨⟨m', b⟩, hb, rfl⟩ := List.mem_map.1 hm
  have hf := find_key (h.1 ▸ mnemonic_all_nodup) hb
  simp only [OpcodeMap.byteOf, hf, Option.map_some, Option.getD_some]
  exact hb

/-- A row's byte selects the row's mnemonic. -/
theorem mnemonicOf_of_mem {t : OpcodeMap} (h : t.wf = true) {m : Mnemonic} {b : Byte} (hb : (m, b) ∈ t) :
    t.mnemonicOf b = some m := by
  simp only [OpcodeMap.wf, Bool.and_eq_true, decide_eq_true_eq] at h
  simp only [OpcodeMap.mnemonicOf, find_value h.2 hb, Option.map_some]

end Sys2Proof
end

