-- ==== Sys2Proof/Laws/State.lean ====
section
/-! SUPPORT. Laws/State.lean: what each named update of State does to each field. -/

namespace Sys2Proof.Machine

/-! ## addDiag: only `diag` changes (60_exceptions.md R270) -/

@[simp] theorem addDiag_cfg (s : State) (x : Diagnostic) : (addDiag s x).cfg = s.cfg := rfl
@[simp] theorem addDiag_a (s : State) (x : Diagnostic) : (addDiag s x).a = s.a := rfl
@[simp] theorem addDiag_b (s : State) (x : Diagnostic) : (addDiag s x).b = s.b := rfl
@[simp] theorem addDiag_c (s : State) (x : Diagnostic) : (addDiag s x).c = s.c := rfl
@[simp] theorem addDiag_d (s : State) (x : Diagnostic) : (addDiag s x).d = s.d := rfl
@[simp] theorem addDiag_pc (s : State) (x : Diagnostic) : (addDiag s x).pc = s.pc := rfl
@[simp] theorem addDiag_sp (s : State) (x : Diagnostic) : (addDiag s x).sp = s.sp := rfl
@[simp] theorem addDiag_ir (s : State) (x : Diagnostic) : (addDiag s x).ir = s.ir := rfl
@[simp] theorem addDiag_flags (s : State) (x : Diagnostic) : (addDiag s x).flags = s.flags := rfl
@[simp] theorem addDiag_run (s : State) (x : Diagnostic) : (addDiag s x).run = s.run := rfl
@[simp] theorem addDiag_inh (s : State) (x : Diagnostic) : (addDiag s x).inh = s.inh := rfl
@[simp] theorem addDiag_intc (s : State) (x : Diagnostic) : (addDiag s x).intc = s.intc := rfl
@[simp] theorem addDiag_dma (s : State) (x : Diagnostic) : (addDiag s x).dma = s.dma := rfl
@[simp] theorem addDiag_rom (s : State) (x : Diagnostic) : (addDiag s x).rom = s.rom := rfl
@[simp] theorem addDiag_ram (s : State) (x : Diagnostic) : (addDiag s x).ram = s.ram := rfl
@[simp] theorem addDiag_diag (s : State) (x : Diagnostic) : (addDiag s x).diag = s.diag ++ [x] := rfl
@[simp] theorem addDiag_env (s : State) (x : Diagnostic) : (addDiag s x).env = s.env := rfl
@[simp] theorem addDiag_turnStep (s : State) (x : Diagnostic) : (addDiag s x).turnStep = s.turnStep := rfl

/-! ## setFlags: only `flags` changes (10_state.md R17) -/

@[simp] theorem setFlags_cfg (s : State) (z c : Bool) : (setFlags s z c).cfg = s.cfg := rfl
@[simp] theorem setFlags_a (s : State) (z c : Bool) : (setFlags s z c).a = s.a := rfl
@[simp] theorem setFlags_b (s : State) (z c : Bool) : (setFlags s z c).b = s.b := rfl
@[simp] theorem setFlags_c (s : State) (z c : Bool) : (setFlags s z c).c = s.c := rfl
@[simp] theorem setFlags_d (s : State) (z c : Bool) : (setFlags s z c).d = s.d := rfl
@[simp] theorem setFlags_pc (s : State) (z c : Bool) : (setFlags s z c).pc = s.pc := rfl
@[simp] theorem setFlags_sp (s : State) (z c : Bool) : (setFlags s z c).sp = s.sp := rfl
@[simp] theorem setFlags_ir (s : State) (z c : Bool) : (setFlags s z c).ir = s.ir := rfl
@[simp] theorem setFlags_flags (s : State) (z c : Bool) : (setFlags s z c).flags = flagsByte z c := rfl
@[simp] theorem setFlags_run (s : State) (z c : Bool) : (setFlags s z c).run = s.run := rfl
@[simp] theorem setFlags_inh (s : State) (z c : Bool) : (setFlags s z c).inh = s.inh := rfl
@[simp] theorem setFlags_intc (s : State) (z c : Bool) : (setFlags s z c).intc = s.intc := rfl
@[simp] theorem setFlags_dma (s : State) (z c : Bool) : (setFlags s z c).dma = s.dma := rfl
@[simp] theorem setFlags_rom (s : State) (z c : Bool) : (setFlags s z c).rom = s.rom := rfl
@[simp] theorem setFlags_ram (s : State) (z c : Bool) : (setFlags s z c).ram = s.ram := rfl
@[simp] theorem setFlags_diag (s : State) (z c : Bool) : (setFlags s z c).diag = s.diag := rfl
@[simp] theorem setFlags_env (s : State) (z c : Bool) : (setFlags s z c).env = s.env := rfl
@[simp] theorem setFlags_turnStep (s : State) (z c : Bool) : (setFlags s z c).turnStep = s.turnStep := rfl

/-! ## loadFlags: only `flags` changes (10_state.md R14) -/

@[simp] theorem loadFlags_flags (s : State) (f : Byte) : (loadFlags s f).flags = f := rfl
@[simp] theorem loadFlags_cfg (s : State) (f : Byte) : (loadFlags s f).cfg = s.cfg := rfl
@[simp] theorem loadFlags_a (s : State) (f : Byte) : (loadFlags s f).a = s.a := rfl
@[simp] theorem loadFlags_b (s : State) (f : Byte) : (loadFlags s f).b = s.b := rfl
@[simp] theorem loadFlags_c (s : State) (f : Byte) : (loadFlags s f).c = s.c := rfl
@[simp] theorem loadFlags_d (s : State) (f : Byte) : (loadFlags s f).d = s.d := rfl
@[simp] theorem loadFlags_pc (s : State) (f : Byte) : (loadFlags s f).pc = s.pc := rfl
@[simp] theorem loadFlags_sp (s : State) (f : Byte) : (loadFlags s f).sp = s.sp := rfl
@[simp] theorem loadFlags_ir (s : State) (f : Byte) : (loadFlags s f).ir = s.ir := rfl
@[simp] theorem loadFlags_run (s : State) (f : Byte) : (loadFlags s f).run = s.run := rfl
@[simp] theorem loadFlags_inh (s : State) (f : Byte) : (loadFlags s f).inh = s.inh := rfl
@[simp] theorem loadFlags_intc (s : State) (f : Byte) : (loadFlags s f).intc = s.intc := rfl
@[simp] theorem loadFlags_dma (s : State) (f : Byte) : (loadFlags s f).dma = s.dma := rfl
@[simp] theorem loadFlags_rom (s : State) (f : Byte) : (loadFlags s f).rom = s.rom := rfl
@[simp] theorem loadFlags_ram (s : State) (f : Byte) : (loadFlags s f).ram = s.ram := rfl
@[simp] theorem loadFlags_diag (s : State) (f : Byte) : (loadFlags s f).diag = s.diag := rfl
@[simp] theorem loadFlags_env (s : State) (f : Byte) : (loadFlags s f).env = s.env := rfl
@[simp] theorem loadFlags_turnStep (s : State) (f : Byte) : (loadFlags s f).turnStep = s.turnStep := rfl

/-! ## setLine: only the one line changes -/

@[simp] theorem setLine_cfg (s : State) (n : Fin 8) (l : LineState) : (setLine s n l).cfg = s.cfg := rfl
@[simp] theorem setLine_a (s : State) (n : Fin 8) (l : LineState) : (setLine s n l).a = s.a := rfl
@[simp] theorem setLine_b (s : State) (n : Fin 8) (l : LineState) : (setLine s n l).b = s.b := rfl
@[simp] theorem setLine_c (s : State) (n : Fin 8) (l : LineState) : (setLine s n l).c = s.c := rfl
@[simp] theorem setLine_d (s : State) (n : Fin 8) (l : LineState) : (setLine s n l).d = s.d := rfl
@[simp] theorem setLine_pc (s : State) (n : Fin 8) (l : LineState) : (setLine s n l).pc = s.pc := rfl
@[simp] theorem setLine_sp (s : State) (n : Fin 8) (l : LineState) : (setLine s n l).sp = s.sp := rfl
@[simp] theorem setLine_ir (s : State) (n : Fin 8) (l : LineState) : (setLine s n l).ir = s.ir := rfl
@[simp] theorem setLine_flags (s : State) (n : Fin 8) (l : LineState) : (setLine s n l).flags = s.flags := rfl
@[simp] theorem setLine_run (s : State) (n : Fin 8) (l : LineState) : (setLine s n l).run = s.run := rfl
@[simp] theorem setLine_inh (s : State) (n : Fin 8) (l : LineState) : (setLine s n l).inh = s.inh := rfl
@[simp] theorem setLine_ie (s : State) (n : Fin 8) (l : LineState) : (setLine s n l).intc.ie = s.intc.ie := rfl
@[simp] theorem setLine_enable (s : State) (n : Fin 8) (l : LineState) : (setLine s n l).intc.enable = s.intc.enable := rfl
@[simp] theorem setLine_handlerLow (s : State) (n : Fin 8) (l : LineState) : (setLine s n l).intc.handlerLow = s.intc.handlerLow := rfl
@[simp] theorem setLine_handlerHigh (s : State) (n : Fin 8) (l : LineState) : (setLine s n l).intc.handlerHigh = s.intc.handlerHigh := rfl
@[simp] theorem setLine_lines (s : State) (n : Fin 8) (l : LineState) :
    (setLine s n l).intc.lines = s.intc.lines.set n l := rfl
@[simp] theorem setLine_dma (s : State) (n : Fin 8) (l : LineState) : (setLine s n l).dma = s.dma := rfl
@[simp] theorem setLine_rom (s : State) (n : Fin 8) (l : LineState) : (setLine s n l).rom = s.rom := rfl
@[simp] theorem setLine_ram (s : State) (n : Fin 8) (l : LineState) : (setLine s n l).ram = s.ram := rfl
@[simp] theorem setLine_diag (s : State) (n : Fin 8) (l : LineState) : (setLine s n l).diag = s.diag := rfl
@[simp] theorem setLine_env (s : State) (n : Fin 8) (l : LineState) : (setLine s n l).env = s.env := rfl
@[simp] theorem setLine_turnStep (s : State) (n : Fin 8) (l : LineState) : (setLine s n l).turnStep = s.turnStep := rfl

theorem lineOf_setLine (s : State) (n m : Fin 8) (l : LineState) :
    lineOf (setLine s n l) m = if n = m then l else lineOf s m := by
  simp [lineOf, Vector.getElem_set, Fin.ext_iff]

@[simp] theorem lineOf_setLine_self (s : State) (n : Fin 8) (l : LineState) : lineOf (setLine s n l) n = l := by
  simp [lineOf_setLine]

theorem lineOf_setLine_ne (s : State) {n m : Fin 8} (l : LineState) (h : n ≠ m) :
    lineOf (setLine s n l) m = lineOf s m := by
  simp [lineOf_setLine, h]

/-! ## setReg: only the one data register changes (10_state.md R10) -/

@[simp] theorem setReg_cfg (s : State) (r : Reg) (v : Byte) : (setReg s r v).cfg = s.cfg := by cases r <;> rfl
@[simp] theorem setReg_a (s : State) (r : Reg) (v : Byte) : (setReg s r v).a = if r = .A then v else s.a := by
  cases r <;> rfl
@[simp] theorem setReg_b (s : State) (r : Reg) (v : Byte) : (setReg s r v).b = if r = .B then v else s.b := by
  cases r <;> rfl
@[simp] theorem setReg_c (s : State) (r : Reg) (v : Byte) : (setReg s r v).c = if r = .C then v else s.c := by
  cases r <;> rfl
@[simp] theorem setReg_d (s : State) (r : Reg) (v : Byte) : (setReg s r v).d = if r = .D then v else s.d := by
  cases r <;> rfl
@[simp] theorem setReg_pc (s : State) (r : Reg) (v : Byte) : (setReg s r v).pc = s.pc := by cases r <;> rfl
@[simp] theorem setReg_sp (s : State) (r : Reg) (v : Byte) : (setReg s r v).sp = s.sp := by cases r <;> rfl
@[simp] theorem setReg_ir (s : State) (r : Reg) (v : Byte) : (setReg s r v).ir = s.ir := by cases r <;> rfl
@[simp] theorem setReg_flags (s : State) (r : Reg) (v : Byte) : (setReg s r v).flags = s.flags := by cases r <;> rfl
@[simp] theorem setReg_run (s : State) (r : Reg) (v : Byte) : (setReg s r v).run = s.run := by cases r <;> rfl
@[simp] theorem setReg_inh (s : State) (r : Reg) (v : Byte) : (setReg s r v).inh = s.inh := by cases r <;> rfl
@[simp] theorem setReg_intc (s : State) (r : Reg) (v : Byte) : (setReg s r v).intc = s.intc := by cases r <;> rfl
@[simp] theorem setReg_dma (s : State) (r : Reg) (v : Byte) : (setReg s r v).dma = s.dma := by cases r <;> rfl
@[simp] theorem setReg_rom (s : State) (r : Reg) (v : Byte) : (setReg s r v).rom = s.rom := by cases r <;> rfl
@[simp] theorem setReg_ram (s : State) (r : Reg) (v : Byte) : (setReg s r v).ram = s.ram := by cases r <;> rfl
@[simp] theorem setReg_diag (s : State) (r : Reg) (v : Byte) : (setReg s r v).diag = s.diag := by cases r <;> rfl
@[simp] theorem setReg_env (s : State) (r : Reg) (v : Byte) : (setReg s r v).env = s.env := by cases r <;> rfl
@[simp] theorem setReg_turnStep (s : State) (r : Reg) (v : Byte) : (setReg s r v).turnStep = s.turnStep := by cases r <;> rfl

@[simp] theorem getReg_setReg_self (s : State) (r : Reg) (v : Byte) : getReg (setReg s r v) r = v := by cases r <;> rfl

theorem getReg_setReg_ne (s : State) {r q : Reg} (v : Byte) (h : r ≠ q) : getReg (setReg s r v) q = getReg s q := by
  cases r <;> cases q <;> first | rfl | exact absurd rfl h

/-! ## writeResult: one data register and `flags` change -/

@[simp] theorem writeResult_cfg (s : State) (r : Reg) (x : AluResult) : (writeResult s r x).cfg = s.cfg := by
  simp [writeResult]
@[simp] theorem writeResult_a (s : State) (r : Reg) (x : AluResult) :
    (writeResult s r x).a = if r = .A then x.value else s.a := by simp [writeResult]
@[simp] theorem writeResult_b (s : State) (r : Reg) (x : AluResult) :
    (writeResult s r x).b = if r = .B then x.value else s.b := by simp [writeResult]
@[simp] theorem writeResult_c (s : State) (r : Reg) (x : AluResult) :
    (writeResult s r x).c = if r = .C then x.value else s.c := by simp [writeResult]
@[simp] theorem writeResult_d (s : State) (r : Reg) (x : AluResult) :
    (writeResult s r x).d = if r = .D then x.value else s.d := by simp [writeResult]
@[simp] theorem writeResult_pc (s : State) (r : Reg) (x : AluResult) : (writeResult s r x).pc = s.pc := by
  simp [writeResult]
@[simp] theorem writeResult_sp (s : State) (r : Reg) (x : AluResult) : (writeResult s r x).sp = s.sp := by
  simp [writeResult]
@[simp] theorem writeResult_ir (s : State) (r : Reg) (x : AluResult) : (writeResult s r x).ir = s.ir := by
  simp [writeResult]
@[simp] theorem writeResult_flags (s : State) (r : Reg) (x : AluResult) :
    (writeResult s r x).flags = flagsByte (x.value == 0) x.carry := rfl
@[simp] theorem writeResult_run (s : State) (r : Reg) (x : AluResult) : (writeResult s r x).run = s.run := by
  simp [writeResult]
@[simp] theorem writeResult_inh (s : State) (r : Reg) (x : AluResult) : (writeResult s r x).inh = s.inh := by
  simp [writeResult]
@[simp] theorem writeResult_intc (s : State) (r : Reg) (x : AluResult) : (writeResult s r x).intc = s.intc := by
  simp [writeResult]
@[simp] theorem writeResult_dma (s : State) (r : Reg) (x : AluResult) : (writeResult s r x).dma = s.dma := by
  simp [writeResult]
@[simp] theorem writeResult_rom (s : State) (r : Reg) (x : AluResult) : (writeResult s r x).rom = s.rom := by
  simp [writeResult]
@[simp] theorem writeResult_ram (s : State) (r : Reg) (x : AluResult) : (writeResult s r x).ram = s.ram := by
  simp [writeResult]
@[simp] theorem writeResult_diag (s : State) (r : Reg) (x : AluResult) : (writeResult s r x).diag = s.diag := by
  simp [writeResult]
@[simp] theorem writeResult_env (s : State) (r : Reg) (x : AluResult) : (writeResult s r x).env = s.env := by
  simp [writeResult]
@[simp] theorem writeResult_turnStep (s : State) (r : Reg) (x : AluResult) : (writeResult s r x).turnStep = s.turnStep := by
  simp [writeResult]

/-! ## romWrite is one diagnostic (20_memory.md R46) -/

@[simp] theorem romWrite_eq (s : State) (a : Word) (v : Byte) : romWrite s a v = addDiag s (.writeToReadOnly a v) := rfl

end Sys2Proof.Machine
end

