-- ==== Sys2Proof/Laws/Memory.lean ====
section
/-! SUPPORT. Laws/Memory.lean: read after write, the canonical form, and what a store to RAM can do (20_memory.md
section 3). -/

namespace Sys2Proof.Machine

/-! ## The canonical form -/

/-- The canonical form, said over the whole list: strictly rising addresses, no byte an unlisted address reads as. -/
def Rising (m : Memory) : Prop := m.Pairwise (fun x y => x.1 < y.1) ∧ ∀ x ∈ m, x.2 ≠ unlistedByte

theorem wf_iff_rising (m : Memory) : Memory.wf m = true ↔ Rising m := by
  induction m with
  | nil => simp [Memory.wf, Rising]
  | cons x m ih =>
    obtain ⟨a, v⟩ := x
    cases m with
    | nil => simp [Memory.wf, Rising, unlistedByte]
    | cons y m =>
      obtain ⟨b, w⟩ := y
      simp only [Memory.wf, Bool.and_eq_true, bne_iff_ne, decide_eq_true_eq, ih]
      constructor
      · rintro ⟨⟨hv, hab⟩, hp, hz⟩
        refine ⟨List.pairwise_cons.2 ⟨?_, hp⟩, ?_⟩
        · intro z hz'
          rcases List.mem_cons.1 hz' with rfl | hm
          · exact hab
          · exact Nat.lt_trans hab ((List.pairwise_cons.1 hp).1 z hm)
        · intro z hz'
          rcases List.mem_cons.1 hz' with rfl | hm
          · exact hv
          · exact hz z hm
      · rintro ⟨hp, hz⟩
        have hc := List.pairwise_cons.1 hp
        exact ⟨⟨hz (a, v) (by simp), hc.1 (b, w) (by simp)⟩, hc.2, fun z hm => hz z (by simp [hm])⟩

theorem rising_nil : Rising [] := by simp [Rising]

theorem rising_cons {a : Nat} {v : Byte} {m : Memory} :
    Rising ((a, v) :: m) ↔ (∀ x ∈ m, a < x.1) ∧ v ≠ unlistedByte ∧ Rising m := by
  simp only [Rising, List.pairwise_cons, List.forall_mem_cons]
  tauto

/-- An address below every listed one reads as unlisted. -/
theorem read_below {m : Memory} {a : Nat} (h : ∀ x ∈ m, a < x.1) : m.read a = unlistedByte := by
  induction m with
  | nil => rfl
  | cons x m ih =>
    obtain ⟨k, v⟩ := x
    have hk : a < k := h (k, v) (by simp)
    simp only [Memory.read, Nat.ne_of_lt hk, if_false]
    exact ih fun y hy => h y (by simp [hy])

/-- Every address a store lists was listed before or is the address stored to. -/
theorem mem_write {m : Memory} {a : Nat} {v : Byte} {x : Host.Cell} (h : x ∈ m.write a v) :
    x ∈ m ∨ x = (a, v) ∧ v ≠ unlistedByte := by
  induction m with
  | nil =>
    simp only [Memory.write] at h
    split at h <;> simp_all
  | cons y m ih =>
    obtain ⟨k, w⟩ := y
    simp only [Memory.write] at h
    split at h
    · split at h
      · exact .inl h
      · rename_i hv
        rcases List.mem_cons.1 h with rfl | h
        · exact .inr ⟨rfl, hv⟩
        · exact .inl h
    · split at h
      · split at h
        · exact .inl (List.mem_cons_of_mem _ h)
        · rename_i hv
          rcases List.mem_cons.1 h with rfl | h
          · exact .inr ⟨rfl, hv⟩
          · exact .inl (List.mem_cons_of_mem _ h)
      · rcases List.mem_cons.1 h with rfl | h
        · simp
        · rcases ih h with h | h
          · simp [h]
          · exact .inr h

/-- A store keeps the canonical form. -/
theorem rising_write {m : Memory} (h : Rising m) (a : Nat) (v : Byte) : Rising (m.write a v) := by
  induction m with
  | nil =>
    simp only [Memory.write]
    split
    · exact rising_nil
    · rename_i hv; exact rising_cons.2 ⟨by simp, hv, rising_nil⟩
  | cons y m ih =>
    obtain ⟨k, w⟩ := y
    obtain ⟨hk, hw, hm⟩ := rising_cons.1 h
    simp only [Memory.write]
    split
    · rename_i hak
      split
      · exact h
      · rename_i hv
        refine rising_cons.2 ⟨?_, hv, h⟩
        intro x hx
        rcases List.mem_cons.1 hx with rfl | hx
        · exact hak
        · exact Nat.lt_trans hak (hk x hx)
    · split
      · rename_i hak; subst hak
        split
        · exact hm
        · rename_i hv; exact rising_cons.2 ⟨hk, hv, hm⟩
      · rename_i h1 h2
        refine rising_cons.2 ⟨?_, hw, ih hm⟩
        intro x hx
        rcases mem_write hx with hx | ⟨rfl, -⟩
        · exact hk x hx
        · simp only; omega

theorem wf_write {m : Memory} (h : Memory.wf m = true) (a : Nat) (v : Byte) : Memory.wf (m.write a v) = true :=
  (wf_iff_rising _).2 (rising_write ((wf_iff_rising _).1 h) a v)

/-! ## Read after write -/

theorem read_write_self {m : Memory} (h : Memory.wf m = true) (a : Nat) (v : Byte) : (m.write a v).read a = v := by
  replace h := (wf_iff_rising _).1 h
  induction m with
  | nil =>
    simp only [Memory.write]
    split
    · rename_i hv; simp [Memory.read, hv]
    · simp [Memory.read]
  | cons y m ih =>
    obtain ⟨k, w⟩ := y
    obtain ⟨hk, -, hm⟩ := rising_cons.1 h
    simp only [Memory.write]
    split
    · rename_i hak
      split
      · rename_i hv
        rw [hv]
        refine read_below ?_
        intro x hx
        rcases List.mem_cons.1 hx with rfl | hx
        · exact hak
        · exact Nat.lt_trans hak (hk x hx)
      · simp [Memory.read]
    · split
      · rename_i hak; subst hak
        split
        · rename_i hv; rw [hv]; exact read_below hk
        · simp [Memory.read]
      · rename_i h1 h2
        simp only [Memory.read, h2, if_false]
        exact ih hm

theorem read_write_other (m : Memory) {a b : Nat} (v : Byte) (hab : b ≠ a) : (m.write a v).read b = m.read b := by
  induction m with
  | nil =>
    simp only [Memory.write]
    split <;> simp [Memory.read, hab]
  | cons y m ih =>
    obtain ⟨k, w⟩ := y
    simp only [Memory.write]
    split
    · split <;> simp [Memory.read, hab]
    · split
      · rename_i hak; subst hak
        split <;> simp [Memory.read, hab]
      · simp only [Memory.read, ih]

/-- A listed byte is what its address reads as. -/
theorem read_of_mem {m : Memory} (h : Memory.wf m = true) {x : Host.Cell} (hx : x ∈ m) : m.read x.1 = x.2 := by
  replace h := (wf_iff_rising _).1 h
  induction m with
  | nil => simp at hx
  | cons y m ih =>
    obtain ⟨k, w⟩ := y
    obtain ⟨hk, -, hm⟩ := rising_cons.1 h
    rcases List.mem_cons.1 hx with rfl | hx
    · simp [Memory.read]
    · have := hk x hx
      simp only [Memory.read, Nat.ne_of_gt this, if_false]
      exact ih hx hm

/-- An address that is not listed reads as unlisted. -/
theorem read_of_not_mem {m : Memory} {a : Nat} (h : ∀ x ∈ m, x.1 ≠ a) : m.read a = unlistedByte := by
  induction m with
  | nil => rfl
  | cons y m ih =>
    obtain ⟨k, w⟩ := y
    have : a ≠ k := fun e => h (k, w) (by simp) e.symm
    simp only [Memory.read, this, if_false]
    exact ih fun x hx => h x (by simp [hx])

/-! ## Erasing evicted entries -/

theorem wf_eraseCells {m : Memory} (h : Memory.wf m = true) (es : List Word) : Memory.wf (eraseCells m es) = true := by
  induction es generalizing m with
  | nil => exact h
  | cons e es ih => exact ih (wf_write h e.toNat unlistedByte)

theorem read_eraseCells {m : Memory} (h : Memory.wf m = true) (es : List Word) (a : Word) :
    (eraseCells m es).read a.toNat = if a ∈ es then unlistedByte else m.read a.toNat := by
  induction es generalizing m with
  | nil => simp [eraseCells]
  | cons e es ih =>
    have step : eraseCells m (e :: es) = eraseCells (m.write e.toNat unlistedByte) es := rfl
    rw [step, ih (wf_write h _ _)]
    by_cases hae : a = e
    · subst hae; simp [read_write_self h]
    · have : a.toNat ≠ e.toNat := fun x => hae (BitVec.eq_of_toNat_eq x)
      simp [hae, read_write_other _ _ this]

theorem mem_eraseCells {m : Memory} {es : List Word} {x : Host.Cell} (h : x ∈ eraseCells m es) : x ∈ m := by
  induction es generalizing m with
  | nil => exact h
  | cons e es ih =>
    rcases mem_write (ih (m := m.write e.toNat unlistedByte) h) with h | ⟨-, h⟩
    · exact h
    · exact absurd rfl h

/-! ## What a store to RAM can do (20_memory.md R48) -/

@[simp] theorem evict_cfg (s : State) : (evict s).cfg = s.cfg := rfl
@[simp] theorem evict_rom (s : State) : (evict s).rom = s.rom := rfl

/-- A store to RAM changes the Ram bank and appends to `DIAG`, and nothing else. -/
theorem ramWrite_effect (s : State) (a : Word) (v : Byte) :
    ∃ r ds, ramWrite s a v = { s with ram := r, diag := s.diag ++ ds } := by
  unfold ramWrite
  split
  · exact ⟨{ s.ram with cells := s.ram.cells.write a.toNat v }, [], by simp⟩
  · exact ⟨_, _, rfl⟩

/-- An overwrite keeps the entry's age and emits nothing. -/
theorem ramWrite_present {s : State} {a : Word} (v : Byte) (h : ramHas s a = true) :
    ramWrite s a v = { s with ram := { s.ram with cells := s.ram.cells.write a.toNat v } } := by
  simp [ramWrite, h]

/-- A new entry is the youngest one; with room left nothing is evicted. -/
theorem ramWrite_absent_room {s : State} {a : Word} (v : Byte) (h : ramHas s a = false)
    (hn : s.ram.order.length < s.cfg.ramMaxEntries) :
    ramWrite s a v =
      { s with ram := { cells := s.ram.cells.write a.toNat v, order := s.ram.order ++ [a] } } := by
  have : s.ram.order.length + 1 - s.cfg.ramMaxEntries = 0 := by omega
  simp [ramWrite, h, evict, this, eraseCells]

/-- A new entry in a full bank pushes the oldest one out. -/
theorem ramWrite_absent_full {s : State} {a e : Word} {es : List Word} (v : Byte) (h : ramHas s a = false)
    (ho : s.ram.order = e :: es) (hn : s.ram.order.length = s.cfg.ramMaxEntries) :
    ramWrite s a v =
      { s with
        ram := { cells := (s.ram.cells.write a.toNat v).write e.toNat unlistedByte, order := es ++ [a] }
        diag := s.diag ++ [.storageOverflow e] } := by
  have h1 : (s.ram.order ++ [a]).length - s.cfg.ramMaxEntries = 1 := by simp; omega
  simp only [ramWrite, h, evict, h1, Bool.false_eq_true, if_false]
  simp [ho, eraseCells]

theorem wf_ramWrite {s : State} (h : Memory.wf s.ram.cells = true) (a : Word) (v : Byte) :
    Memory.wf (ramWrite s a v).ram.cells = true := by
  unfold ramWrite
  split
  · exact wf_write h _ _
  · exact wf_eraseCells (wf_write h _ _) _

/-- A RAM address that was just stored to has an entry. -/
theorem ramHas_ramWrite_self (s : State) (a : Word) (v : Byte) : ramHas (ramWrite s a v) a = true := by
  have hmax : 1 ≤ s.cfg.ramMaxEntries := by
    have := s.cfg.ok
    simp only [CfgData.wf, CfgData.countsOk, Bool.and_eq_true, decide_eq_true_eq] at this
    omega
  unfold ramWrite
  split
  · assumption
  · simp only [ramHas, evict, List.contains_eq_mem, decide_eq_true_eq, List.length_append, List.length_singleton]
    rw [List.drop_append_of_le_length (by omega)]
    simp

/-- Reading back a byte just stored to RAM (20_memory.md R49). -/
theorem ramRead_ramWrite_self {s : State} (h : Memory.wf s.ram.cells = true) (a : Word) (v : Byte) :
    ramRead (ramWrite s a v) a = v := by
  have hmax : 1 ≤ s.cfg.ramMaxEntries := by
    have := s.cfg.ok
    simp only [CfgData.wf, CfgData.countsOk, Bool.and_eq_true, decide_eq_true_eq] at this
    omega
  unfold ramWrite
  split
  · exact read_write_self h _ _
  · rename_i hn
    have ha : a ∉ s.ram.order := by simpa [ramHas] using hn
    simp only [ramRead, evict, List.length_append, List.length_singleton]
    rw [read_eraseCells (wf_write h _ _), List.take_append_of_le_length (by omega), if_neg, read_write_self h]
    exact fun hm => ha (List.mem_of_mem_take hm)

/-- An address the store does not name keeps its byte unless its entry is evicted. -/
theorem ramRead_ramWrite_other {s : State} {a b : Word} (v : Byte) (hab : b ≠ a)
    (hroom : ramHas s a = true ∨ s.ram.order.length < s.cfg.ramMaxEntries) :
    ramRead (ramWrite s a v) b = ramRead s b := by
  have hn : b.toNat ≠ a.toNat := fun e => hab (BitVec.eq_of_toNat_eq e)
  by_cases hh : ramHas s a = true
  · rw [ramWrite_present v hh]; exact read_write_other _ _ hn
  · rw [ramWrite_absent_room v (by simpa using hh) (by tauto)]; exact read_write_other _ _ hn

/-! ## The reset memories -/

theorem wf_reset_rom : Memory.wf State.reset.rom = true := rfl
theorem wf_reset_ram : Memory.wf State.reset.ram.cells = true := rfl

end Sys2Proof.Machine
end

