-- ==== Sys2Proof/Laws/Ops.lean ====
section
/-! SUPPORT. Laws/Ops.lean: for each shared operation, once, everything it can do. -/

namespace Sys2Proof.Machine

/-! ## Effects -/

/-- Every line is as it was, or went from idle to pending (60_exceptions.md R252, R253). -/
def LinesRaised (s t : State) : Prop :=
  ∀ n : Fin 8, lineOf t n = lineOf s n ∨ lineOf s n = .idle ∧ lineOf t n = .pending

/-- What a bus read can do: raise lines, append to `DIAG`, and move the environment on (20_memory.md R42). -/
structure ReadEffect (s t : State) : Prop where
  cfg : t.cfg = s.cfg
  a : t.a = s.a
  b : t.b = s.b
  c : t.c = s.c
  d : t.d = s.d
  pc : t.pc = s.pc
  sp : t.sp = s.sp
  ir : t.ir = s.ir
  flags : t.flags = s.flags
  run : t.run = s.run
  inh : t.inh = s.inh
  dma : t.dma = s.dma
  rom : t.rom = s.rom
  ram : t.ram = s.ram
  turnStep : t.turnStep = s.turnStep
  ie : t.intc.ie = s.intc.ie
  enable : t.intc.enable = s.intc.enable
  handlerLow : t.intc.handlerLow = s.intc.handlerLow
  handlerHigh : t.intc.handlerHigh = s.intc.handlerHigh
  raised : LinesRaised s t
  diag : s.diag <+: t.diag
  boundary : t.env.boundary = s.env.boundary

/-- What a bus write can do: change RAM, the controller but for `IE`, the DMA registers, `DIAG` and the environment; no
line goes into service (20_memory.md R43). -/
structure WriteEffect (s t : State) : Prop where
  cfg : t.cfg = s.cfg
  a : t.a = s.a
  b : t.b = s.b
  c : t.c = s.c
  d : t.d = s.d
  pc : t.pc = s.pc
  sp : t.sp = s.sp
  ir : t.ir = s.ir
  flags : t.flags = s.flags
  run : t.run = s.run
  inh : t.inh = s.inh
  rom : t.rom = s.rom
  turnStep : t.turnStep = s.turnStep
  ie : t.intc.ie = s.intc.ie
  lines : ∀ n : Fin 8, lineOf t n = .servicing → lineOf s n = .servicing
  diag : s.diag <+: t.diag
  boundary : t.env.boundary = s.env.boundary
  wf : Memory.wf s.ram.cells = true → Memory.wf t.ram.cells = true
  ramOk : RamOk s → RamOk t

theorem LinesRaised.refl (s : State) : LinesRaised s s := fun _ => .inl rfl

theorem LinesRaised.trans {s t u : State} (h : LinesRaised s t) (g : LinesRaised t u) : LinesRaised s u := by
  intro n
  rcases h n with h | ⟨h1, h2⟩ <;> rcases g n with g | ⟨g1, g2⟩
  · exact .inl (g.trans h)
  · exact .inr ⟨h ▸ g1, g2⟩
  · exact .inr ⟨h1, g.trans h2⟩
  · rw [h2] at g1; cases g1

theorem LinesRaised.not_servicing {s t : State} (h : LinesRaised s t) (n : Fin 8) (ht : lineOf t n = .servicing) :
    lineOf s n = .servicing := by
  rcases h n with h | ⟨-, h⟩
  · exact h ▸ ht
  · rw [h] at ht; cases ht

theorem ReadEffect.refl (s : State) : ReadEffect s s := by
  constructor <;> first | rfl | exact .refl s

theorem ReadEffect.trans {s t u : State} (h : ReadEffect s t) (g : ReadEffect t u) : ReadEffect s u := by
  cases h
  cases g
  constructor <;> first
    | (apply Eq.trans <;> assumption)
    | (apply LinesRaised.trans <;> assumption)
    | (apply List.IsPrefix.trans <;> assumption)

theorem WriteEffect.refl (s : State) : WriteEffect s s := by
  constructor <;> first | rfl | exact fun _ h => h | exact fun h => h

theorem WriteEffect.trans {s t u : State} (h : WriteEffect s t) (g : WriteEffect t u) : WriteEffect s u := by
  have hl := fun n x => h.lines n (g.lines n x)
  have hw := fun x => g.wf (h.wf x)
  have hr := fun x => g.ramOk (h.ramOk x)
  cases h
  cases g
  constructor <;> first
    | (apply Eq.trans <;> assumption)
    | (apply List.IsPrefix.trans <;> assumption)
    | assumption

/-- A read's result state, written out. -/
theorem ReadEffect.eq {s t : State} (h : ReadEffect s t) :
    t = { s with intc := { s.intc with lines := t.intc.lines }, diag := t.diag, env := t.env } := by
  obtain ⟨_, _, _, _, _, _, _, _, _, _, _, ⟨_, _, _, _, _⟩, _, _, _, _, _, _⟩ := t
  cases h
  simp_all

/-- A write's result state, written out. -/
theorem WriteEffect.eq {s t : State} (h : WriteEffect s t) :
    t = { s with intc := t.intc, dma := t.dma, ram := t.ram, diag := t.diag, env := t.env } := by
  obtain ⟨_, _, _, _, _, _, _, _, _, _, _, _, _, _, _, _, _, _⟩ := t
  cases h
  simp_all

/-- `RamOk` looks at the configuration and the Ram bank only. -/
theorem RamOk.congr {s t : State} (hc : t.cfg = s.cfg) (hr : t.ram = s.ram) (h : RamOk s) : RamOk t := by
  unfold RamOk at *
  rw [hc, hr]
  exact h

/-- What a read can do, a write can do. -/
theorem ReadEffect.toWrite {s t : State} (h : ReadEffect s t) : WriteEffect s t := by
  have hl := h.raised.not_servicing
  have hr := RamOk.congr h.cfg h.ram
  have hw : Memory.wf s.ram.cells = true → Memory.wf t.ram.cells = true := fun x => h.ram ▸ x
  cases h
  constructor <;> assumption

theorem readEffect_addDiag (s : State) (x : Diagnostic) : ReadEffect s (addDiag s x) := by
  constructor <;> first | rfl | exact LinesRaised.refl s | exact List.prefix_append _ _

/-! ## Requests (60_exceptions.md R251 to R253) -/

/-- `requestInterrupt` changes one line at most, from idle to pending. -/
theorem requestInterrupt_effect (s : State) (n : Nat) :
    requestInterrupt s n = s ∨
    ∃ h : n < 8, lineOf s ⟨n, h⟩ = .idle ∧ requestInterrupt s n = setLine s ⟨n, h⟩ .pending := by
  unfold requestInterrupt
  split
  · rename_i h
    cases hl : lineOf s ⟨n, h⟩ with
    | idle => exact .inr ⟨h, hl, rfl⟩
    | pending => exact .inl rfl
    | servicing => exact .inl rfl
  · exact .inl rfl

theorem readEffect_requestInterrupt (s : State) (n : Nat) : ReadEffect s (requestInterrupt s n) := by
  rcases requestInterrupt_effect s n with h | ⟨h, hi, e⟩
  · rw [h]; exact .refl s
  · rw [e]
    have hr : LinesRaised s (setLine s ⟨n, h⟩ .pending) := by
      intro m
      rw [lineOf_setLine]
      split
      · rename_i hm; subst hm; exact .inr ⟨hi, rfl⟩
      · exact .inl rfl
    constructor <;> first | rfl | exact hr

theorem requestInterrupt_env (s : State) (n : Nat) : (requestInterrupt s n).env = s.env := by
  rcases requestInterrupt_effect s n with h | ⟨h, -, e⟩
  · rw [h]
  · rw [e]; rfl

theorem requestInterrupt_diag (s : State) (n : Nat) : (requestInterrupt s n).diag = s.diag := by
  rcases requestInterrupt_effect s n with h | ⟨h, -, e⟩
  · rw [h]
  · rw [e]; rfl

/-- Requests change nothing but lines, from idle to pending. -/
theorem requestAll_effect (s : State) (ns : List Nat) :
    ReadEffect s (requestAll s ns) ∧ (requestAll s ns).env = s.env ∧ (requestAll s ns).diag = s.diag := by
  induction ns generalizing s with
  | nil => exact ⟨.refl s, rfl, rfl⟩
  | cons n ns ih =>
    obtain ⟨h1, h2, h3⟩ := ih (requestInterrupt s n)
    exact ⟨(readEffect_requestInterrupt s n).trans h1, h2.trans (requestInterrupt_env s n),
      h3.trans (requestInterrupt_diag s n)⟩

/-! ## Port reads (60_exceptions.md R259, 50_dma_and_devices.md R222, R227) -/

theorem intcRead_effect (s : State) (p : Nat) : ReadEffect s (intcRead s p).2 := by
  unfold intcRead
  split <;> first | exact .refl s | exact readEffect_addDiag s _

theorem dmaRead_effect (s : State) (p : Nat) : ReadEffect s (dmaRead s p).2 := by
  unfold dmaRead
  split <;> first | exact .refl s | exact readEffect_addDiag s _

/-- An access to a device outside the block takes the environment's next answer, records the access and latches the
requests; it emits no diagnostic. -/
theorem deviceAccess_effect (s : State) (e : DeviceEvent) :
    ReadEffect s (deviceAccess s e).2 ∧ (deviceAccess s e).2.diag = s.diag ∧
    (deviceAccess s e).2.env = { s.env with replies := s.env.replies.tail, trace := s.env.trace ++ [e] } := by
  obtain ⟨h1, h2, h3⟩ := requestAll_effect
    { s with env := { s.env with replies := s.env.replies.tail, trace := s.env.trace ++ [e] } }
    (environmentReply s e).requests
  refine ⟨?_, h3, h2⟩
  cases h1
  constructor <;> assumption

theorem portRead_effect (s : State) (dev port : Nat) : ReadEffect s (portRead s dev port).2 := by
  unfold portRead
  split
  · exact intcRead_effect s port
  · split
    · exact dmaRead_effect s port
    · split
      · exact (deviceAccess_effect s _).1
      · exact readEffect_addDiag s _

/-! ## Port writes (60_exceptions.md R259, 50_dma_and_devices.md R226) -/

theorem acknowledge_effect (s : State) (v : Byte) :
    acknowledge s v = s ∨ ∃ h : v.toNat < 8, acknowledge s v = setLine s ⟨v.toNat, h⟩ .idle := by
  unfold acknowledge
  split
  · rename_i h; exact .inr ⟨h, rfl⟩
  · exact .inl rfl

theorem intcWrite_effect (s : State) (p : Nat) (v : Byte) : WriteEffect s (intcWrite s p v) := by
  unfold intcWrite
  split
  · constructor <;> first | rfl | exact fun _ h => h | exact fun h => h
  · exact .refl s
  · rcases acknowledge_effect s v with h | ⟨h, e⟩
    · rw [h]; exact .refl s
    · rw [e]
      have hl : ∀ m, lineOf (setLine s ⟨v.toNat, h⟩ .idle) m = .servicing → lineOf s m = .servicing := by
        intro m hm
        rw [lineOf_setLine] at hm
        split at hm
        · cases hm
        · exact hm
      constructor <;> first | rfl | exact hl | exact fun h => h
  · constructor <;> first | rfl | exact fun _ h => h | exact fun h => h
  · constructor <;> first | rfl | exact fun _ h => h | exact fun h => h
  · exact (readEffect_addDiag s _).toWrite

theorem dmaWrite_effect (s : State) (p : Nat) (v : Byte) : WriteEffect s (dmaWrite s p v) := by
  unfold dmaWrite
  split <;> first
    | exact .refl s
    | exact (readEffect_addDiag s _).toWrite
    | (constructor <;> first | rfl | exact fun _ h => h | exact fun h => h)

theorem plainPortWrite_effect (s : State) (dev port : Nat) (v : Byte) : WriteEffect s (plainPortWrite s dev port v) := by
  unfold plainPortWrite
  split
  · exact intcWrite_effect s port v
  · split
    · exact dmaWrite_effect s port v
    · split
      · exact (deviceAccess_effect s _).1.toWrite
      · exact (readEffect_addDiag s _).toWrite

/-! ## Stores to RAM (20_memory.md R48) -/

theorem ramMax_pos (c : Cfg) : 1 ≤ c.ramMaxEntries := by
  have := c.ok
  simp only [CfgData.wf, CfgData.countsOk, Bool.and_eq_true, decide_eq_true_eq] at this
  omega

/-- A store to a RAM address keeps the Ram bank in order. -/
theorem ramOk_ramWrite {s : State} {a : Word} (v : Byte) (ha : inRam s.cfg a = true) (h : RamOk s) :
    RamOk (ramWrite s a v) := by
  obtain ⟨hw, hc, hn, hi, hl⟩ := h
  by_cases hp : ramHas s a = true
  · rw [ramWrite_present v hp]
    refine ⟨wf_write hw _ _, ?_, hn, hi, hl⟩
    intro x hx
    rcases mem_write hx with hx | ⟨rfl, -⟩
    · exact hc x hx
    · refine ⟨?_, a.isLt⟩
      simpa [ramHas] using hp
  · have ha' : a ∉ s.ram.order := by simpa [ramHas] using hp
    have hp' : ramHas s a = false := by simpa using hp
    have hn' : (s.ram.order ++ [a]).Nodup := by
      rw [List.nodup_append]
      refine ⟨hn, by simp, ?_⟩
      intro x hx y hy
      simp only [List.mem_singleton] at hy
      subst hy
      intro e; subst e; exact ha' hx
    by_cases hr : s.ram.order.length < s.cfg.ramMaxEntries
    · rw [ramWrite_absent_room v hp' hr]
      refine ⟨wf_write hw _ _, ?_, hn', ?_, ?_⟩
      · intro x hx
        rcases mem_write hx with hx | ⟨rfl, -⟩
        · exact ⟨by simp [(hc x hx).1], (hc x hx).2⟩
        · exact ⟨by simp, a.isLt⟩
      · intro x hx
        rcases List.mem_append.1 hx with hx | hx
        · exact hi x hx
        · simp only [List.mem_singleton] at hx; subst hx; exact ha
      · simp; omega
    · have hf : s.ram.order.length = s.cfg.ramMaxEntries := by omega
      have hmax := ramMax_pos s.cfg
      obtain ⟨e, es, ho⟩ : ∃ e es, s.ram.order = e :: es := by
        cases h : s.ram.order with
        | nil => rw [h] at hf; simp at hf; omega
        | cons e es => exact ⟨e, es, rfl⟩
      rw [ramWrite_absent_full v hp' ho hf]
      rw [ho] at hn' hi ha' hf hc
      have hea : e ≠ a := fun x => ha' (by simp [x])
      refine ⟨wf_write (wf_write hw _ _) _ _, ?_, ?_, ?_, ?_⟩
      · intro x hx
        have hwx := wf_write (wf_write hw a.toNat v) e.toNat unlistedByte
        have hne : x.1 ≠ e.toNat := by
          intro he
          have h1 := read_of_mem hwx hx
          rw [he, read_write_self (wf_write hw _ _)] at h1
          exact ((wf_iff_rising _).1 hwx).2 x hx h1.symm
        rcases mem_write hx with hx | ⟨-, hz⟩
        · rcases mem_write hx with hx | ⟨rfl, -⟩
          · obtain ⟨h1, h2⟩ := hc x hx
            refine ⟨?_, h2⟩
            rcases List.mem_cons.1 h1 with h1 | h1
            · exfalso
              apply hne
              rw [← h1, BitVec.toNat_ofNat]
              omega
            · simp [h1]
          · exact ⟨by simp, a.isLt⟩
        · exact absurd rfl hz
      · have := List.nodup_cons.1 hn'
        exact this.2
      · intro x hx
        rcases List.mem_append.1 hx with hx | hx
        · exact hi x (by simp [hx])
        · simp only [List.mem_singleton] at hx; subst hx; exact ha
      · simp only [List.length_cons] at hf
        simp; omega

theorem ramWrite_writeEffect {s : State} {a : Word} (v : Byte) (ha : inRam s.cfg a = true) :
    WriteEffect s (ramWrite s a v) := by
  obtain ⟨r, ds, e⟩ := ramWrite_effect s a v
  have hr := ramOk_ramWrite (s := s) v ha
  have hw := fun h => wf_ramWrite (s := s) h a v
  rw [e] at hr hw ⊢
  constructor <;> first | rfl | exact hr | exact hw | exact fun _ h => h | exact List.prefix_append _ _

/-! ## The DMA transfer (50_dma_and_devices.md R229 to R234) -/

/-- A port write of a transfer writes as a bus write does, if a nested transfer does. -/
theorem dmaPortWrite_effect {trigger : State → Option State} (ht : ∀ {s t}, trigger s = some t → WriteEffect s t)
    {d p : Nat} {v : Byte} {s t : State} (h : dmaPortWrite trigger d p v s = some t) : WriteEffect s t := by
  unfold dmaPortWrite at h
  split at h
  · exact ht h
  · cases h; exact plainPortWrite_effect s d p v

/-- A port write that is not a trigger. -/
theorem dmaPortWrite_plain (trigger : State → Option State) {d p : Nat} (v : Byte) {s : State}
    (h : ¬ (d = s.cfg.dmaDev ∧ p = 7)) : dmaPortWrite trigger d p v s = some (plainPortWrite s d p v) := if_neg h

theorem dmaByte_effect {trigger : State → Option State} (ht : ∀ {s t}, trigger s = some t → WriteEffect s t)
    {d : Nat} {a x : Word} {s t : State} (hx : inRam s.cfg x = true) (h : dmaByte trigger d a x s = some t) :
    WriteEffect s t := by
  simp only [dmaByte, Option.bind_eq_some_iff, Option.map_eq_some_iff] at h
  obtain ⟨s1, h1, s2, h2, rfl⟩ := h
  have g := (dmaPortWrite_effect ht h1).trans (dmaPortWrite_effect ht h2)
  have g := g.trans (portRead_effect s2 d s2.cfg.dmaSrcDataPort).toWrite
  exact g.trans (ramWrite_writeEffect _ (by rw [g.cfg]; exact hx))

/-- One iteration of a transfer that drives no trigger. -/
theorem dmaByte_plain (trigger : State → Option State) {d : Nat} (a x : Word) {s : State}
    (h : ¬ (d = s.cfg.dmaDev ∧ (s.cfg.dmaSrcAddrLoPort = 7 ∨ s.cfg.dmaSrcAddrHiPort = 7))) :
    dmaByte trigger d a x s =
      let s1 := plainPortWrite s d s.cfg.dmaSrcAddrLoPort (lo8 a)
      let s2 := plainPortWrite s1 d s.cfg.dmaSrcAddrHiPort (hi8 a)
      let r := portRead s2 d s.cfg.dmaSrcDataPort
      some (ramWrite r.2 x r.1) := by
  have e1 := (plainPortWrite_effect s d s.cfg.dmaSrcAddrLoPort (lo8 a)).cfg
  have e2 := (plainPortWrite_effect (plainPortWrite s d s.cfg.dmaSrcAddrLoPort (lo8 a)) d s.cfg.dmaSrcAddrHiPort
    (hi8 a)).cfg
  simp only [dmaByte]
  rw [dmaPortWrite_plain trigger _ (fun g => h ⟨g.1, .inl g.2⟩), Option.bind_some, e1,
    dmaPortWrite_plain trigger _ (fun g => h ⟨e1 ▸ g.1, .inr g.2⟩), Option.map_some, e2, e1]

/-- The target addresses of a checked transfer are RAM addresses (50_dma_and_devices.md R231, R232). -/
theorem dmaLoop_effect {trigger : State → Option State} (ht : ∀ {s t}, trigger s = some t → WriteEffect s t)
    {d n : Nat} {a x : Word} {s t : State} (h0 : s.cfg.ramStart.toNat ≤ x.toNat)
    (h1 : x.toNat + n ≤ s.cfg.ramEnd.toNat + 1) (h : dmaLoop trigger d n a x s = some t) : WriteEffect s t := by
  induction n generalizing a x s with
  | zero => cases h; exact .refl _
  | succ n ih =>
    simp only [dmaLoop, Option.bind_eq_some_iff] at h
    obtain ⟨u, hu, h⟩ := h
    have hb := s.cfg.ramEnd.isLt
    have hx : inRam s.cfg x = true := by
      simp only [inRam, Bool.and_eq_true, decide_eq_true_eq, BitVec.le_def]
      omega
    have g := dmaByte_effect ht hx hu
    cases n with
    | zero => cases h; exact g
    | succ n =>
      have hx1 : (x + 1).toNat = x.toNat + 1 := by
        rw [BitVec.toNat_add, Nat.mod_eq_of_lt]
        · rfl
        · change x.toNat + 1 < 65536
          omega
      exact g.trans (ih (by rw [g.cfg, hx1]; omega) (by rw [g.cfg, hx1]; omega) h)

/-- The loop of a transfer that drives no trigger ends. -/
theorem dmaLoop_ends (trigger : State → Option State) {d n : Nat} (a x : Word) {s : State}
    (h0 : s.cfg.ramStart.toNat ≤ x.toNat) (h1 : x.toNat + n ≤ s.cfg.ramEnd.toNat + 1)
    (h : ¬ (d = s.cfg.dmaDev ∧ (s.cfg.dmaSrcAddrLoPort = 7 ∨ s.cfg.dmaSrcAddrHiPort = 7))) :
    ∃ t, dmaLoop trigger d n a x s = some t := by
  induction n generalizing a x s with
  | zero => exact ⟨s, rfl⟩
  | succ n ih =>
    have hb := s.cfg.ramEnd.isLt
    have hx : inRam s.cfg x = true := by
      simp only [inRam, Bool.and_eq_true, decide_eq_true_eq, BitVec.le_def]
      omega
    have e : dmaByte trigger d a x s = dmaByte (fun _ => none) d a x s := by
      rw [dmaByte_plain trigger a x h, dmaByte_plain _ a x h]
    obtain ⟨u, hu⟩ : ∃ u, dmaByte trigger d a x s = some u := ⟨_, dmaByte_plain trigger a x h⟩
    have hc : u.cfg = s.cfg := (dmaByte_effect (trigger := fun _ => none) (fun g => by cases g) hx (e.symm.trans hu)).cfg
    simp only [dmaLoop, hu, Option.bind_some]
    cases n with
    | zero => exact ⟨u, rfl⟩
    | succ n =>
      have hx1 : (x + 1).toNat = x.toNat + 1 := by
        rw [BitVec.toNat_add, Nat.mod_eq_of_lt]
        · rfl
        · change x.toNat + 1 < 65536
          omega
      exact ih _ _ (by rw [hc, hx1]; omega) (by rw [hc, hx1]; omega) (by rw [hc]; exact h)

theorem transferWith_effect {trigger : State → Option State} (ht : ∀ {s t}, trigger s = some t → WriteEffect s t)
    {s t : State} (h : transferWith trigger s = some t) : WriteEffect s t := by
  simp only [transferWith] at h
  split at h
  · cases h; exact .refl s
  · split at h
    · rename_i hn hr
      simp only [dmaInRange, Bool.and_eq_true, decide_eq_true_eq] at hr
      exact dmaLoop_effect ht hr.1 (by omega) h
    · cases h; exact (readEffect_addDiag s _).toWrite

theorem transferDepth_effect {depth : Nat} {s t : State} (h : transferDepth depth s = some t) : WriteEffect s t := by
  induction depth generalizing s t with
  | zero => cases h
  | succ depth ih => exact transferWith_effect ih h

/-- A transfer, and within it at most 255 more under way at once. -/
theorem transferResult_eq (s : State) : transferResult s = transferWith (transferDepth 255) s := rfl

theorem transfer_effect (s : State) : WriteEffect s (transfer s) := by
  unfold transfer
  cases h : transferResult s with
  | none => exact .refl s
  | some t => exact transferDepth_effect h

/-- A transfer that cannot trigger itself ends (entry 4). -/
theorem transferResult_ends {s : State} (h : ¬ SelfTriggering s) : (transferResult s).isSome = true := by
  rw [Option.isSome_iff_exists]
  change ∃ a, transferWith (transferDepth 255) s = some a
  simp only [transferWith]
  split
  · exact ⟨_, rfl⟩
  · split
    · rename_i hn hr
      simp only [dmaInRange, Bool.and_eq_true, decide_eq_true_eq] at hr
      exact dmaLoop_ends _ _ _ hr.1 (by omega) h
    · exact ⟨_, rfl⟩

theorem portWrite_effect (s : State) (dev port : Nat) (v : Byte) : WriteEffect s (portWrite s dev port v) := by
  unfold portWrite
  split
  · exact transfer_effect s
  · exact plainPortWrite_effect s dev port v

/-! ## The bus (20_memory.md R41 to R43) -/

/-- What decodes to RAM lies in the RAM range (20_memory.md R41). -/
theorem inRam_of_regionOf {c : Cfg} {a : Word} (h : regionOf c a = .ram) : inRam c a = true := by
  have hok := c.ok
  simp only [CfgData.wf, CfgData.rangesNonempty, CfgData.rangesDisjoint, CfgData.rangesCover, rangeSize, Bool.and_eq_true,
    Bool.or_eq_true, decide_eq_true_eq, beq_iff_eq, BitVec.le_def, BitVec.lt_def] at hok
  obtain ⟨⟨⟨⟨⟨⟨⟨⟨n1, n2⟩, n3⟩, ⟨d1, d2⟩, d3⟩, hs⟩, -⟩, -⟩, -⟩, -⟩ := hok
  unfold regionOf at h
  split at h
  · cases h
  · split at h
    · cases h
    · rename_i hr hi
      simp only [inRom, inIo, inRam, Bool.and_eq_true, decide_eq_true_eq, BitVec.le_def] at hr hi ⊢
      have := a.isLt
      have := c.romEnd.isLt
      have := c.ioEnd.isLt
      have := c.ramEnd.isLt
      omega

/-- What lies in the RAM range decodes to RAM (20_memory.md R41). -/
theorem regionOf_of_inRam {c : Cfg} {a : Word} (h : inRam c a = true) : regionOf c a = .ram := by
  have hc := c.ok
  simp only [CfgData.wf, CfgData.rangesDisjoint, CfgData.rangesNonempty, Bool.and_eq_true, Bool.or_eq_true,
    decide_eq_true_eq] at hc
  simp only [regionOf, inRom, inIo, inRam, Bool.and_eq_true, decide_eq_true_eq, BitVec.le_def, BitVec.lt_def] at *
  have h1 : ¬ (c.romStart.toNat ≤ a.toNat ∧ a.toNat ≤ c.romEnd.toNat) := by omega
  have h2 : ¬ (c.ioStart.toNat ≤ a.toNat ∧ a.toNat ≤ c.ioEnd.toNat) := by omega
  simp [h1, h2]

/-- A registered device outside the block is neither the controller nor the DMA engine (00_scope.md R3). -/
theorem device_ne_own {c : Cfg} {d : Nat} (h : d ∈ c.devices) : d ≠ c.intcDev ∧ d ≠ c.dmaDev := by
  have hc := c.ok
  simp only [CfgData.wf, CfgData.devicesOk, Bool.and_eq_true, decide_eq_true_eq, List.nodup_cons, List.mem_cons,
    not_or] at hc
  have hd := hc.1.1.1.2
  exact ⟨fun e => hd.1.1.2 (e ▸ h), fun e => hd.1.2.1 (e ▸ h)⟩

/-- An address that a store to RAM does not name and that has an entry after it had it before, with the same byte. -/
theorem ramWrite_keeps {s : State} {x y : Word} (v : Byte) (h : RamOk s) (hxy : y ≠ x)
    (hy : ramHas (ramWrite s x v) y = true) : ramHas s y = true ∧ ramRead (ramWrite s x v) y = ramRead s y := by
  obtain ⟨hw, -, hn, -, -⟩ := h
  have hne : y.toNat ≠ x.toNat := fun e => hxy (BitVec.eq_of_toNat_eq e)
  unfold ramWrite at hy ⊢
  split at hy
  · rename_i h1
    simp only [h1, if_true]
    exact ⟨hy, read_write_other _ _ hne⟩
  · rename_i h1
    simp only [h1]
    have hx : x ∉ s.ram.order := by simpa [ramHas] using h1
    simp only [ramHas, evict, List.contains_eq_mem, decide_eq_true_eq] at hy ⊢
    have nd : (s.ram.order ++ [x]).Nodup := by
      rw [List.nodup_append]
      exact ⟨hn, by simp, by simp; exact fun a ha e => hx (e ▸ ha)⟩
    refine ⟨by simpa [hxy] using List.mem_of_mem_drop hy, ?_⟩
    simp only [ramRead, Bool.false_eq_true, if_false]
    rw [read_eraseCells (wf_write hw _ _), if_neg, read_write_other _ _ hne]
    intro ht
    rw [← List.take_append_drop ((s.ram.order ++ [x]).length - s.cfg.ramMaxEntries) (s.ram.order ++ [x]),
      List.nodup_append] at nd
    exact nd.2.2 _ ht _ hy rfl

theorem memRead_effect (s : State) (a : Word) : ReadEffect s (memRead s a).2 := by
  unfold memRead
  split
  · exact .refl s
  · exact .refl s
  · exact portRead_effect s _ _

theorem memWrite_effect (s : State) (a : Word) (v : Byte) : WriteEffect s (memWrite s a v) := by
  unfold memWrite
  split
  · exact (readEffect_addDiag s _).toWrite
  · rename_i h; exact ramWrite_writeEffect v (inRam_of_regionOf h)
  · exact portWrite_effect s _ _ v

/-- A bank address is read without any effect (20_memory.md R42, R45, R47). -/
theorem memRead_bank {s : State} {a : Word} {v : Byte} (h : bankByte s a = some v) : memRead s a = (v, s) := by
  unfold bankByte at h
  unfold memRead
  split at h <;> simp_all

/-- Reading back a byte just stored to RAM (20_memory.md R49). -/
theorem bankByte_memWrite_self {s : State} {a : Word} (v : Byte) (hw : Memory.wf s.ram.cells = true)
    (ha : regionOf s.cfg a = .ram) : bankByte (memWrite s a v) a = some v := by
  have hc := (memWrite_effect s a v).cfg
  unfold bankByte
  rw [hc, ha]
  simp only [memWrite, ha, ramRead_ramWrite_self hw]

/-- A write comes to its end unless it triggers a transfer that may trigger itself (entry 4). -/
theorem writeEnds_of_plain {s : State} (a : Word) (h : ¬ SelfTriggering s) : writeEnds s a = true := by
  unfold writeEnds
  split
  · rfl
  · rfl
  · split
    · exact transferResult_ends h
    · rfl

/-- A write to ROM or RAM comes to its end. -/
theorem writeEnds_bank {s : State} {a : Word} (h : regionOf s.cfg a ≠ .io) : writeEnds s a = true := by
  unfold writeEnds
  split
  · rfl
  · rfl
  · rename_i e; exact absurd e h

@[simp] theorem nextIf_true (t : State) : nextIf true t = .next t := rfl

theorem nextIf_next {b : Bool} {t u : State} (h : nextIf b t = .next u) : b = true ∧ u = t := by
  cases b
  · cases h
  · cases h; exact ⟨rfl, rfl⟩

/-! ## The stack (44_stack.md R186, R187) -/

@[simp] theorem push8_sp (s : State) (v : Byte) : (push8 s v).sp = s.sp - 1 := by
  simp only [push8, (memWrite_effect s s.sp v).sp]

/-- A push writes through the bus and decrements `SP`. -/
theorem push8_eq (s : State) (v : Byte) : push8 s v = { memWrite s s.sp v with sp := s.sp - 1 } := by
  simp only [push8, (memWrite_effect s s.sp v).sp]

/-- A pop reads through the bus at the incremented `SP`. -/
theorem pop8_effect (s : State) : ReadEffect { s with sp := s.sp + 1 } (pop8 s).2 :=
  memRead_effect _ _

/-- A pop from a bank address has no effect but the increment of `SP`. -/
theorem pop8_bank {s : State} {v : Byte} (h : bankByte s (s.sp + 1) = some v) :
    pop8 s = (v, { s with sp := s.sp + 1 }) :=
  memRead_bank (s := { s with sp := s.sp + 1 }) h

/-! ## Fetch (40_execution_cycle.md R102) -/

/-- A fetch reads through the bus at `PC` and advances `PC`. -/
theorem fetch8_effect (s : State) : ReadEffect { s with pc := s.pc + 1 } (fetch8 s).2 := by
  have h := memRead_effect s s.pc
  have hp : (fetch8 s).2.pc = s.pc + 1 := by simp only [fetch8, h.pc]
  cases h
  constructor <;> first | exact hp | assumption

/-- A fetch from a bank address has no effect but the advance of `PC`. -/
theorem fetch8_bank {s : State} {v : Byte} (h : bankByte s s.pc = some v) :
    fetch8 s = (v, { s with pc := s.pc + 1 }) := by
  simp only [fetch8, memRead_bank h]

/-! ## The poll (40_execution_cycle.md R105) -/

/-- A poll does nothing, or enters the interrupt of a pending enabled line of a running CPU with interrupts on, no
handler active and no line in service. -/
theorem poll_cases (s : State) :
    poll s = s ∧ pollEnds s = true ∨
    ∃ n, poll s = interruptEntry s n ∧ pollEnds s = entryEnds s n ∧ s.run = .running ∧ s.intc.ie = true ∧
      s.inh = false ∧ anyServicing s = false ∧ selectLine s = some n := by
  unfold poll pollEnds
  cases h : pollLine s with
  | none => exact .inl ⟨rfl, rfl⟩
  | some n =>
    refine .inr ⟨n, rfl, rfl, ?_⟩
    unfold pollLine at h
    cases hr : s.run <;> simp_all

/-- What is selected is pending and enabled (60_exceptions.md R254). -/
theorem selectLine_some {s : State} {n : Fin 8} (h : selectLine s = some n) :
    lineOf s n = .pending ∧ lineEnabled s n = true := by
  have := List.find?_some h
  simpa using this

end Sys2Proof.Machine
end

