-- ==== Sys2Proof/Laws/Step.lean ====
section
/-! SUPPORT. Laws/Step.lean: what fetch, interrupt entry and return, the turn boundary and the operand forms can do. -/

namespace Sys2Proof.Machine

/-! ## Effects on everything but the CPU's registers -/

/-- What any part of a step does outside the CPU's registers: the configuration, the Rom bank, the turn counter and the
environment's boundary list stay, no line goes into service, `DIAG` grows, and the Ram bank stays in order. -/
structure BusEffect (s t : State) : Prop where
  cfg : t.cfg = s.cfg
  rom : t.rom = s.rom
  turnStep : t.turnStep = s.turnStep
  lines : ∀ n : Fin 8, lineOf t n = .servicing → lineOf s n = .servicing
  diag : s.diag <+: t.diag
  boundary : t.env.boundary = s.env.boundary
  wf : Memory.wf s.ram.cells = true → Memory.wf t.ram.cells = true
  ramOk : RamOk s → RamOk t

theorem BusEffect.refl (s : State) : BusEffect s s :=
  ⟨rfl, rfl, rfl, fun _ h => h, List.prefix_rfl, rfl, id, id⟩

theorem BusEffect.trans {s t u : State} (h : BusEffect s t) (g : BusEffect t u) : BusEffect s u :=
  ⟨g.cfg.trans h.cfg, g.rom.trans h.rom, g.turnStep.trans h.turnStep, fun n x => h.lines n (g.lines n x),
    h.diag.trans g.diag, g.boundary.trans h.boundary, fun x => g.wf (h.wf x), fun x => g.ramOk (h.ramOk x)⟩

theorem WriteEffect.toBus {s t : State} (h : WriteEffect s t) : BusEffect s t :=
  ⟨h.cfg, h.rom, h.turnStep, h.lines, h.diag, h.boundary, h.wf, h.ramOk⟩

theorem ReadEffect.toBus {s t : State} (h : ReadEffect s t) : BusEffect s t := h.toWrite.toBus

/-- A change of CPU registers and `IE` only. -/
theorem busEffect_cpu {s t : State} (hc : t.cfg = s.cfg) (hr : t.rom = s.rom) (ht : t.turnStep = s.turnStep)
    (hl : t.intc.lines = s.intc.lines) (hd : t.diag = s.diag) (he : t.env = s.env) (hm : t.ram = s.ram) :
    BusEffect s t :=
  ⟨hc, hr, ht, fun n h => by unfold lineOf at *; rwa [← hl], hd ▸ List.prefix_rfl, by rw [he], fun h => by rwa [hm],
    RamOk.congr hc hm⟩

theorem busEffect_writeResult (s : State) (r : Reg) (x : AluResult) : BusEffect s (writeResult s r x) :=
  busEffect_cpu (by simp) (by simp) (by simp) (by simp) (by simp) (by simp) (by simp)

theorem busEffect_setReg (s : State) (r : Reg) (v : Byte) : BusEffect s (setReg s r v) :=
  busEffect_cpu (by simp) (by simp) (by simp) (by simp) (by simp) (by simp) (by simp)

theorem busEffect_addDiag (s : State) (x : Diagnostic) : BusEffect s (addDiag s x) := (readEffect_addDiag s x).toBus

/-! ## Chains of reads and writes that move `PC` and `SP` -/

theorem ReadEffect.pc_trans {s t u : State} {p q : Word} (h : ReadEffect { s with pc := p } t)
    (g : ReadEffect { t with pc := q } u) : ReadEffect { s with pc := q } u :=
  ⟨g.cfg.trans h.cfg, g.a.trans h.a, g.b.trans h.b, g.c.trans h.c, g.d.trans h.d, g.pc, g.sp.trans h.sp,
    g.ir.trans h.ir, g.flags.trans h.flags, g.run.trans h.run, g.inh.trans h.inh, g.dma.trans h.dma, g.rom.trans h.rom,
    g.ram.trans h.ram, g.turnStep.trans h.turnStep, g.ie.trans h.ie, g.enable.trans h.enable,
    g.handlerLow.trans h.handlerLow, g.handlerHigh.trans h.handlerHigh,
    LinesRaised.trans (s := { s with pc := p }) h.raised g.raised, h.diag.trans g.diag, g.boundary.trans h.boundary⟩

theorem WriteEffect.sp_trans {s t u : State} {p q : Word} (h : WriteEffect { s with sp := p } t)
    (g : WriteEffect { t with sp := q } u) : WriteEffect { s with sp := q } u :=
  ⟨g.cfg.trans h.cfg, g.a.trans h.a, g.b.trans h.b, g.c.trans h.c, g.d.trans h.d, g.pc.trans h.pc, g.sp,
    g.ir.trans h.ir, g.flags.trans h.flags, g.run.trans h.run, g.inh.trans h.inh, g.rom.trans h.rom,
    g.turnStep.trans h.turnStep, g.ie.trans h.ie, fun n x => h.lines n (g.lines n x), h.diag.trans g.diag,
    g.boundary.trans h.boundary, fun x => g.wf (h.wf x), fun x => g.ramOk (h.ramOk x)⟩

/-! ## Fetch (40_execution_cycle.md R101 to R104) -/

theorem fetch16_effect (s : State) : ReadEffect { s with pc := s.pc + 2 } (fetch16 s).2 := by
  have h1 := fetch8_effect s
  have h2 := fetch8_effect (fetch8 s).2
  have h := h1.pc_trans h2
  have hp : (fetch8 s).2.pc + 1 = s.pc + 2 := by
    rw [h1.pc]
    simp only [BitVec.add_assoc]
    rfl
  rw [hp] at h
  exact h

/-- Fetching an operand reads through the bus and advances `PC` by the operand's length. -/
theorem fetchOperand_effect (f : Format) (s : State) :
    ReadEffect { s with pc := s.pc + BitVec.ofNat 16 f.operandCount } (fetchOperand f s).2 := by
  cases f with
  | op =>
    have h : s.pc + BitVec.ofNat 16 Format.op.operandCount = s.pc := by simp [Format.operandCount]
    rw [h]
    exact .refl s
  | opI8 => exact fetch8_effect s
  | opI16 => exact fetch16_effect s

/-- Fetching an opcode reads through the bus, advances `PC` and writes `IR`. -/
theorem fetchOpcode_effect (s : State) :
    ReadEffect { s with pc := s.pc + 1, ir := (fetchOpcode s).1 } (fetchOpcode s).2 := by
  have h := fetch8_effect s
  exact ⟨h.cfg, h.a, h.b, h.c, h.d, h.pc, h.sp, rfl, h.flags, h.run, h.inh, h.dma, h.rom, h.ram, h.turnStep, h.ie,
    h.enable, h.handlerLow, h.handlerHigh, h.raised, h.diag, h.boundary⟩

/-- Fetching an instruction reads through the bus, advances `PC` by the instruction's length and writes `IR`. -/
theorem fetchInstr_effect (s : State) :
    ReadEffect
      { s with
        pc := s.pc + BitVec.ofNat 16 (lengthOf s.cfg.opcodes (fetchOpcode s).1), ir := (fetchOpcode s).1 }
      (fetchInstr s).2 := by
  have h0 := fetchOpcode_effect s
  simp only [fetchInstr, lengthOf]
  cases s.cfg.opcodes.mnemonicOf (fetchOpcode s).1 with
  | none => exact h0
  | some m =>
    have h1 := fetchOperand_effect m.format (fetchOpcode s).2
    have h := ReadEffect.pc_trans (s := { s with ir := (fetchOpcode s).1 }) h0 h1
    have hp : (fetchOpcode s).2.pc + BitVec.ofNat 16 m.format.operandCount =
        s.pc + BitVec.ofNat 16 m.format.length := by
      rw [h0.pc]
      simp only [Format.length, BitVec.ofNat_add, BitVec.add_assoc]
      congr 1
      exact BitVec.add_comm _ _
    rw [hp] at h
    exact h

/-- What is fetched is the instruction of the mnemonic the opcode byte selects; `none` is an unrecognised byte. -/
theorem fetchInstr_fst (s : State) :
    (fetchInstr s).1 =
      (s.cfg.opcodes.mnemonicOf (fetchOpcode s).1).map
        (fun m => m.toInstr (fetchOperand m.format (fetchOpcode s).2).1) := by
  simp only [fetchInstr]
  cases s.cfg.opcodes.mnemonicOf (fetchOpcode s).1 <;> rfl

/-! ## Interrupt entry and return (60_exceptions.md R260, 45_interrupt_and_system.md R202) -/

theorem push8_effect (s : State) (v : Byte) : WriteEffect { s with sp := s.sp - 1 } (push8 s v) := by
  have h := memWrite_effect s s.sp v
  exact ⟨h.cfg, h.a, h.b, h.c, h.d, h.pc, push8_sp s v, h.ir, h.flags, h.run, h.inh, h.rom, h.turnStep, h.ie, h.lines,
    h.diag, h.boundary, h.wf, h.ramOk⟩

/-- Four pushes in a row. -/
theorem push4_effect (s : State) (v w x y : Byte) :
    WriteEffect { s with sp := s.sp - 4 } (push8 (push8 (push8 (push8 s v) w) x) y) := by
  have h := ((push8_effect s v).sp_trans (push8_effect (push8 s v) w)).sp_trans
    (push8_effect (push8 (push8 s v) w) x)
  have h := h.sp_trans (push8_effect (push8 (push8 (push8 s v) w) x) y)
  have hs : (push8 (push8 (push8 s v) w) x).sp - 1 = s.sp - 4 := by
    simp only [push8_sp, BitVec.sub_sub]
    rfl
  rw [hs] at h
  exact h

/-- The state interrupt entry makes by its pushes, before it loads `PC` and begins the handler context. -/
def framePushed (s : State) (n : Fin 8) : State :=
  push8 (push8 (push8 (push8 (setLine s n .servicing) (hi8 s.pc)) (lo8 s.pc)) s.flags) s.a

/-- Interrupt entry: the line goes into service, four bytes are pushed through the bus, `PC` comes from the handler
registers as the pushes leave them, and the handler context begins. -/
theorem interruptEntry_eq (s : State) (n : Fin 8) :
    interruptEntry s n =
      { framePushed s n with
        pc := concat16 (framePushed s n).intc.handlerHigh (framePushed s n).intc.handlerLow
        inh := true } := by
  have h1 := push8_effect (setLine s n .servicing) (hi8 s.pc)
  have h2 := push8_effect (push8 (setLine s n .servicing) (hi8 s.pc)) (lo8 s.pc)
  have h3 := push8_effect (push8 (push8 (setLine s n .servicing) (hi8 s.pc)) (lo8 s.pc)) s.flags
  have e1 : (push8 (setLine s n .servicing) (hi8 s.pc)).pc = s.pc := h1.pc
  have e2 : (push8 (push8 (setLine s n .servicing) (hi8 s.pc)) (lo8 s.pc)).flags = s.flags := h2.flags.trans h1.flags
  have e3 : (push8 (push8 (push8 (setLine s n .servicing) (hi8 s.pc)) (lo8 s.pc)) s.flags).a = s.a :=
    (h3.a.trans h2.a).trans h1.a
  simp only [interruptEntry, framePushed, setLine_pc, e1, e2, e3]

theorem framePushed_effect (s : State) (n : Fin 8) :
    WriteEffect (setLine { s with sp := s.sp - 4 } n .servicing) (framePushed s n) := by
  unfold framePushed
  exact push4_effect (setLine s n .servicing) (hi8 s.pc) (lo8 s.pc) s.flags s.a

/-- Interrupt entry: what it writes of the CPU's registers, and beside them what its pushes do. -/
theorem interruptEntry_effect (s : State) (n : Fin 8) :
    WriteEffect
      { setLine s n .servicing with sp := s.sp - 4, pc := (interruptEntry s n).pc, inh := true } (interruptEntry s n) := by
  have h := framePushed_effect s n
  rw [interruptEntry_eq]
  generalize framePushed s n = t at h
  exact ⟨h.cfg, h.a, h.b, h.c, h.d, rfl, h.sp, h.ir, h.flags, h.run, rfl, h.rom, h.turnStep, h.ie, h.lines, h.diag,
    h.boundary, h.wf, h.ramOk⟩

/-- Interrupt entry seen from outside the CPU: what its pushes do after the line went into service. -/
theorem interruptEntry_bus (s : State) (n : Fin 8) : BusEffect (setLine s n .servicing) (interruptEntry s n) := by
  have h := (framePushed_effect s n).toBus
  rw [interruptEntry_eq]
  generalize framePushed s n = t at h
  exact ⟨h.cfg, h.rom, h.turnStep, h.lines, h.diag, h.boundary, h.wf, h.ramOk⟩

/-- Four reads with changes of `A`, `FLAGS`, `PC` and `INH` between and after them. -/
theorem pop_chain {s s1 s2 s3 s4 : State} {x f : Byte} {p : Word} (h1 : ReadEffect { s with sp := s.sp + 1 } s1)
    (h2 : ReadEffect { setReg s1 .A x with sp := (setReg s1 .A x).sp + 1 } s2)
    (h3 : ReadEffect { loadFlags s2 f with sp := (loadFlags s2 f).sp + 1 } s3) (h4 : ReadEffect { s3 with sp := s3.sp + 1 } s4) :
    ReadEffect { s with a := x, flags := f, pc := p, sp := s.sp + 4, inh := false }
      { s4 with pc := p, inh := false } := by
  have hs : s4.sp = s.sp + 4 := by
    have e1 := h1.sp
    have e2 := h2.sp
    have e3 := h3.sp
    have e4 := h4.sp
    simp only [setReg, loadFlags] at e1 e2 e3 e4
    rw [e4, e3, e2, e1]
    simp only [BitVec.add_assoc]
    rfl
  have hl : LinesRaised s s4 :=
    ((LinesRaised.trans (s := s) (t := s1) h1.raised (u := s2) h2.raised).trans (u := s3) h3.raised).trans h4.raised
  exact ⟨h4.cfg.trans (h3.cfg.trans (h2.cfg.trans h1.cfg)), h4.a.trans (h3.a.trans h2.a),
    h4.b.trans (h3.b.trans (h2.b.trans h1.b)), h4.c.trans (h3.c.trans (h2.c.trans h1.c)),
    h4.d.trans (h3.d.trans (h2.d.trans h1.d)), rfl, hs, h4.ir.trans (h3.ir.trans (h2.ir.trans h1.ir)),
    h4.flags.trans h3.flags, h4.run.trans (h3.run.trans (h2.run.trans h1.run)), rfl,
    h4.dma.trans (h3.dma.trans (h2.dma.trans h1.dma)), h4.rom.trans (h3.rom.trans (h2.rom.trans h1.rom)),
    h4.ram.trans (h3.ram.trans (h2.ram.trans h1.ram)),
    h4.turnStep.trans (h3.turnStep.trans (h2.turnStep.trans h1.turnStep)),
    h4.ie.trans (h3.ie.trans (h2.ie.trans h1.ie)), h4.enable.trans (h3.enable.trans (h2.enable.trans h1.enable)),
    h4.handlerLow.trans (h3.handlerLow.trans (h2.handlerLow.trans h1.handlerLow)),
    h4.handlerHigh.trans (h3.handlerHigh.trans (h2.handlerHigh.trans h1.handlerHigh)), hl,
    h1.diag.trans (h2.diag.trans (h3.diag.trans h4.diag)),
    h4.boundary.trans (h3.boundary.trans (h2.boundary.trans h1.boundary))⟩

/-- A valid return reads four bytes through the bus, `SP` ends 4 higher, and `A`, `FLAGS` (masked), `PC` and `INH`
change. -/
theorem interruptReturn_effect (s : State) :
    ∃ x f p, ReadEffect { s with a := x, flags := restoredFlags f, pc := p, sp := s.sp + 4, inh := false }
      (interruptReturn s) :=
  ⟨_, _, _, pop_chain (pop8_effect s) (pop8_effect _) (pop8_effect _) (pop8_effect _)⟩

/-- What `IRET` restores has its reserved bits 0 (10_state.md R14). -/
theorem flagsOk_restored (f : Byte) : (restoredFlags f).extractLsb' 2 6 = 0 := by
  revert f
  decide

/-- What an instruction writes to `FLAGS` has its reserved bits 0 (10_state.md R17). -/
theorem flagsOk_flagsByte (z c : Bool) : (flagsByte z c).extractLsb' 2 6 = 0 := by
  revert z c
  decide

/-! ## The turn boundary (40_execution_cycle.md R110) -/

/-- A turn boundary latches requests and takes them off the environment's list. -/
theorem turnBoundary_effect (s : State) :
    ReadEffect { s with env := (turnBoundary s).env } (turnBoundary s) ∧ (turnBoundary s).diag = s.diag ∧
    (turnBoundary s).env =
      if s.turnStep = 0 then { s.env with boundary := s.env.boundary.tail } else s.env := by
  unfold turnBoundary
  split
  · obtain ⟨h1, h2, h3⟩ := requestAll_effect { s with env := { s.env with boundary := s.env.boundary.tail } }
      (s.env.boundary.headD [])
    refine ⟨?_, h3, h2⟩
    rw [h2]
    exact h1
  · exact ⟨.refl s, rfl, rfl⟩

/-! ## Operand forms (41_data_movement.md R144) -/

/-- A load is one bus read, then the move of the byte read. -/
theorem loadInto_bus (r : Reg) (a : Word) (s : State) : BusEffect s (loadInto r a s) :=
  (memRead_effect s a).toBus.trans (busEffect_writeResult _ r _)

/-- A load from a bank address has no effect but the move. -/
theorem loadInto_bank {s : State} {a : Word} {v : Byte} (r : Reg) (h : bankByte s a = some v) :
    loadInto r a s = writeResult s r (moved v) := by
  simp only [loadInto, absoluteAddr, memRead_bank h, moveInto]

/-- A store is one bus write; no CPU register changes. -/
theorem storeFrom_effect (r : Reg) (a : Word) (s : State) : WriteEffect s (storeFrom r a s) :=
  memWrite_effect s a (getReg s r)

/-- A push is one bus write at `SP`; of the CPU's registers only `SP` changes. -/
theorem pushFrom_effect (r : Reg) (s : State) : WriteEffect { s with sp := s.sp - 1 } (pushFrom r s) :=
  push8_effect s (getReg s r)

/-- A pop is one bus read at the incremented `SP`, then the write of the register. -/
theorem popInto_bus (r : Reg) (s : State) : BusEffect s (popInto r s) := by
  have h : BusEffect s { s with sp := s.sp + 1 } := busEffect_cpu rfl rfl rfl rfl rfl rfl rfl
  exact (h.trans (pop8_effect s).toBus).trans (busEffect_setReg _ r _)

/-- A pop from a bank address changes `SP` and the register only. -/
theorem popInto_bank {s : State} {v : Byte} (r : Reg) (h : bankByte s (s.sp + 1) = some v) :
    popInto r s = setReg { s with sp := s.sp + 1 } r v := by
  simp only [popInto, pop8_bank h]

end Sys2Proof.Machine
end

