-- ==== Sys2Proof/Laws/Exec.lean ====
section
/-! SUPPORT. Laws/Exec.lean: what an instruction, the poll and a step can do outside the CPU's registers. -/

namespace Sys2Proof.Machine

/-! ## Instructions -/

/-- Changing `SP`, and then what a push does. -/
theorem pushFrom_bus (r : Reg) (s : State) : BusEffect s (pushFrom r s) := by
  have h : BusEffect s { s with sp := s.sp - 1 } := busEffect_cpu rfl rfl rfl rfl rfl rfl rfl
  exact h.trans (pushFrom_effect r s).toBus

theorem interruptReturn_bus (s : State) : BusEffect s (interruptReturn s) := by
  obtain ⟨x, f, p, h⟩ := interruptReturn_effect s
  have h0 : BusEffect s { s with a := x, flags := restoredFlags f, pc := p, sp := s.sp + 4, inh := false } :=
    busEffect_cpu rfl rfl rfl rfl rfl rfl rfl
  exact h0.trans h.toBus

/-- No instruction changes the configuration, the Rom bank, the turn counter or the boundary list, none puts a line into
service, none removes a diagnostic, and each keeps the Ram bank in order. -/
theorem exec_bus {i : Instr} {s t : State} (h : exec i s = .next t) : BusEffect s t := by
  cases i with
  | nop => cases h; exact .refl s
  | halt => cases h; exact busEffect_cpu rfl rfl rfl rfl rfl rfl rfl
  | syscall v =>
    cases h
    split
    · exact busEffect_cpu rfl rfl rfl rfl rfl rfl rfl
    · exact busEffect_addDiag s _
  | ei => cases h; exact busEffect_cpu rfl rfl rfl rfl rfl rfl rfl
  | di => cases h; exact busEffect_cpu rfl rfl rfl rfl rfl rfl rfl
  | iret =>
    cases h
    split
    · exact interruptReturn_bus s
    · exact busEffect_addDiag s _
  | setSp w => cases h; exact busEffect_cpu rfl rfl rfl rfl rfl rfl rfl
  | movAImm v => cases h; exact busEffect_writeResult s _ _
  | movBImm v => cases h; exact busEffect_writeResult s _ _
  | movCImm v => cases h; exact busEffect_writeResult s _ _
  | movDImm v => cases h; exact busEffect_writeResult s _ _
  | movAMem w => cases h; exact loadInto_bus .A w s
  | movBMem w => cases h; exact loadInto_bus .B w s
  | movCMem w => cases h; exact loadInto_bus .C w s
  | movDMem w => cases h; exact loadInto_bus .D w s
  | movMemA w => obtain ⟨-, rfl⟩ := nextIf_next h; exact (storeFrom_effect .A w s).toBus
  | movMemB w => obtain ⟨-, rfl⟩ := nextIf_next h; exact (storeFrom_effect .B w s).toBus
  | movMemC w => obtain ⟨-, rfl⟩ := nextIf_next h; exact (storeFrom_effect .C w s).toBus
  | movMemD w => obtain ⟨-, rfl⟩ := nextIf_next h; exact (storeFrom_effect .D w s).toBus
  | movAB => cases h; exact busEffect_writeResult s _ _
  | movAC => cases h; exact busEffect_writeResult s _ _
  | movAD => cases h; exact busEffect_writeResult s _ _
  | movBA => cases h; exact busEffect_writeResult s _ _
  | movBC => cases h; exact busEffect_writeResult s _ _
  | movBD => cases h; exact busEffect_writeResult s _ _
  | movCA => cases h; exact busEffect_writeResult s _ _
  | movCB => cases h; exact busEffect_writeResult s _ _
  | movCD => cases h; exact busEffect_writeResult s _ _
  | movDA => cases h; exact busEffect_writeResult s _ _
  | movDB => cases h; exact busEffect_writeResult s _ _
  | movDC => cases h; exact busEffect_writeResult s _ _
  | add => cases h; exact busEffect_writeResult s _ _
  | sub => cases h; exact busEffect_writeResult s _ _
  | and => cases h; exact busEffect_writeResult s _ _
  | or => cases h; exact busEffect_writeResult s _ _
  | xor => cases h; exact busEffect_writeResult s _ _
  | addImm v => cases h; exact busEffect_writeResult s _ _
  | subImm v => cases h; exact busEffect_writeResult s _ _
  | andImm v => cases h; exact busEffect_writeResult s _ _
  | orImm v => cases h; exact busEffect_writeResult s _ _
  | xorImm v => cases h; exact busEffect_writeResult s _ _
  | incA => cases h; exact busEffect_writeResult s _ _
  | incB => cases h; exact busEffect_writeResult s _ _
  | incC => cases h; exact busEffect_writeResult s _ _
  | incD => cases h; exact busEffect_writeResult s _ _
  | decA => cases h; exact busEffect_writeResult s _ _
  | decB => cases h; exact busEffect_writeResult s _ _
  | decC => cases h; exact busEffect_writeResult s _ _
  | decD => cases h; exact busEffect_writeResult s _ _
  | pushA => obtain ⟨-, rfl⟩ := nextIf_next h; exact pushFrom_bus .A s
  | pushB => obtain ⟨-, rfl⟩ := nextIf_next h; exact pushFrom_bus .B s
  | pushC => obtain ⟨-, rfl⟩ := nextIf_next h; exact pushFrom_bus .C s
  | pushD => obtain ⟨-, rfl⟩ := nextIf_next h; exact pushFrom_bus .D s
  | popA => cases h; exact popInto_bus .A s
  | popB => cases h; exact popInto_bus .B s
  | popC => cases h; exact popInto_bus .C s
  | popD => cases h; exact popInto_bus .D s
  | jmp w => cases h; exact busEffect_cpu rfl rfl rfl rfl rfl rfl rfl
  | jz w =>
    cases h
    split
    · exact busEffect_cpu rfl rfl rfl rfl rfl rfl rfl
    · exact .refl s
  | jnz w =>
    cases h
    split
    · exact .refl s
    · exact busEffect_cpu rfl rfl rfl rfl rfl rfl rfl

/-! ## The poll and the step (40_execution_cycle.md R100, R101, R105) -/

/-- A poll does nothing, or puts one pending enabled line into service and then writes through the bus. -/
theorem poll_bus (s : State) :
    poll s = s ∨ ∃ n, anyServicing s = false ∧ poll s = interruptEntry s n ∧
      BusEffect (setLine s n .servicing) (poll s) := by
  rcases poll_cases s with ⟨h, -⟩ | ⟨n, h, -, -, -, -, ha, -⟩
  · exact .inl h
  · exact .inr ⟨n, ha, h, h ▸ interruptEntry_bus s n⟩

/-- What follows an instruction's effect, if it comes to its end. -/
theorem finishStep_next {s t : State} (h : finishStep s = .next t) : pollEnds s = true ∧ t = endStep s := nextIf_next h

/-- A step that answers a next state: a halted tick, an unrecognised opcode, or an instruction, and in the last two a poll
that comes to its end. -/
theorem step_cases {s t : State} (h : step s = .next t) :
    (turnBoundary s).run = .halted ∧ t = countStep (turnBoundary s) ∨
    (turnBoundary s).run = .running ∧
      ((fetchInstr (turnBoundary s)).1 = none ∧ t = endStep (unrecognized (fetchInstr (turnBoundary s)).2) ∨
       ∃ i u, (fetchInstr (turnBoundary s)).1 = some i ∧ exec i (fetchInstr (turnBoundary s)).2 = .next u ∧
         t = endStep u) := by
  simp only [step] at h
  split at h
  · rename_i hr
    cases h
    exact .inl ⟨hr, rfl⟩
  · rename_i hr
    refine .inr ⟨hr, ?_⟩
    split at h
    · rename_i s1 e
      rw [e]
      exact .inl ⟨rfl, (finishStep_next h).2⟩
    · rename_i i s1 e
      rw [e]
      split at h
      · rename_i u hu
        exact .inr ⟨i, u, rfl, hu, (finishStep_next h).2⟩
      · cases h
      · cases h

end Sys2Proof.Machine
end

