-- ==== Sys2Proof/Laws/PerInstr.lean ====
section
/-! SUPPORT. Laws/PerInstr.lean: statements about every instruction as syntax, one lemma a constructor. -/

namespace Sys2Proof.Laws

/-! ## EncodedLength: an instruction has as many bytes as its format says (30_encoding.md R80 to R83) -/

def EncodedLength.Statement (i : Instr) : Prop :=
  i.wf = true ∧ 1 ≤ i.length ∧ i.length ≤ 3 ∧ ∀ t : OpcodeMap, (encode t i).length = i.length

theorem EncodedLength.nop : EncodedLength.Statement .nop :=
  ⟨rfl, Nat.le_of_ble_eq_true rfl, Nat.le_of_ble_eq_true rfl, fun _ => rfl⟩
theorem EncodedLength.halt : EncodedLength.Statement .halt :=
  ⟨rfl, Nat.le_of_ble_eq_true rfl, Nat.le_of_ble_eq_true rfl, fun _ => rfl⟩
theorem EncodedLength.syscall (v : Byte) : EncodedLength.Statement (.syscall v) :=
  ⟨rfl, Nat.le_of_ble_eq_true rfl, Nat.le_of_ble_eq_true rfl, fun _ => rfl⟩
theorem EncodedLength.ei : EncodedLength.Statement .ei :=
  ⟨rfl, Nat.le_of_ble_eq_true rfl, Nat.le_of_ble_eq_true rfl, fun _ => rfl⟩
theorem EncodedLength.di : EncodedLength.Statement .di :=
  ⟨rfl, Nat.le_of_ble_eq_true rfl, Nat.le_of_ble_eq_true rfl, fun _ => rfl⟩
theorem EncodedLength.iret : EncodedLength.Statement .iret :=
  ⟨rfl, Nat.le_of_ble_eq_true rfl, Nat.le_of_ble_eq_true rfl, fun _ => rfl⟩
theorem EncodedLength.setSp (v : Word) : EncodedLength.Statement (.setSp v) :=
  ⟨rfl, Nat.le_of_ble_eq_true rfl, Nat.le_of_ble_eq_true rfl, fun _ => rfl⟩
theorem EncodedLength.movAImm (v : Byte) : EncodedLength.Statement (.movAImm v) :=
  ⟨rfl, Nat.le_of_ble_eq_true rfl, Nat.le_of_ble_eq_true rfl, fun _ => rfl⟩
theorem EncodedLength.movBImm (v : Byte) : EncodedLength.Statement (.movBImm v) :=
  ⟨rfl, Nat.le_of_ble_eq_true rfl, Nat.le_of_ble_eq_true rfl, fun _ => rfl⟩
theorem EncodedLength.movCImm (v : Byte) : EncodedLength.Statement (.movCImm v) :=
  ⟨rfl, Nat.le_of_ble_eq_true rfl, Nat.le_of_ble_eq_true rfl, fun _ => rfl⟩
theorem EncodedLength.movDImm (v : Byte) : EncodedLength.Statement (.movDImm v) :=
  ⟨rfl, Nat.le_of_ble_eq_true rfl, Nat.le_of_ble_eq_true rfl, fun _ => rfl⟩
theorem EncodedLength.movAMem (v : Word) : EncodedLength.Statement (.movAMem v) :=
  ⟨rfl, Nat.le_of_ble_eq_true rfl, Nat.le_of_ble_eq_true rfl, fun _ => rfl⟩
theorem EncodedLength.movBMem (v : Word) : EncodedLength.Statement (.movBMem v) :=
  ⟨rfl, Nat.le_of_ble_eq_true rfl, Nat.le_of_ble_eq_true rfl, fun _ => rfl⟩
theorem EncodedLength.movCMem (v : Word) : EncodedLength.Statement (.movCMem v) :=
  ⟨rfl, Nat.le_of_ble_eq_true rfl, Nat.le_of_ble_eq_true rfl, fun _ => rfl⟩
theorem EncodedLength.movDMem (v : Word) : EncodedLength.Statement (.movDMem v) :=
  ⟨rfl, Nat.le_of_ble_eq_true rfl, Nat.le_of_ble_eq_true rfl, fun _ => rfl⟩
theorem EncodedLength.movMemA (v : Word) : EncodedLength.Statement (.movMemA v) :=
  ⟨rfl, Nat.le_of_ble_eq_true rfl, Nat.le_of_ble_eq_true rfl, fun _ => rfl⟩
theorem EncodedLength.movMemB (v : Word) : EncodedLength.Statement (.movMemB v) :=
  ⟨rfl, Nat.le_of_ble_eq_true rfl, Nat.le_of_ble_eq_true rfl, fun _ => rfl⟩
theorem EncodedLength.movMemC (v : Word) : EncodedLength.Statement (.movMemC v) :=
  ⟨rfl, Nat.le_of_ble_eq_true rfl, Nat.le_of_ble_eq_true rfl, fun _ => rfl⟩
theorem EncodedLength.movMemD (v : Word) : EncodedLength.Statement (.movMemD v) :=
  ⟨rfl, Nat.le_of_ble_eq_true rfl, Nat.le_of_ble_eq_true rfl, fun _ => rfl⟩
theorem EncodedLength.movAB : EncodedLength.Statement .movAB :=
  ⟨rfl, Nat.le_of_ble_eq_true rfl, Nat.le_of_ble_eq_true rfl, fun _ => rfl⟩
theorem EncodedLength.movAC : EncodedLength.Statement .movAC :=
  ⟨rfl, Nat.le_of_ble_eq_true rfl, Nat.le_of_ble_eq_true rfl, fun _ => rfl⟩
theorem EncodedLength.movAD : EncodedLength.Statement .movAD :=
  ⟨rfl, Nat.le_of_ble_eq_true rfl, Nat.le_of_ble_eq_true rfl, fun _ => rfl⟩
theorem EncodedLength.movBA : EncodedLength.Statement .movBA :=
  ⟨rfl, Nat.le_of_ble_eq_true rfl, Nat.le_of_ble_eq_true rfl, fun _ => rfl⟩
theorem EncodedLength.movBC : EncodedLength.Statement .movBC :=
  ⟨rfl, Nat.le_of_ble_eq_true rfl, Nat.le_of_ble_eq_true rfl, fun _ => rfl⟩
theorem EncodedLength.movBD : EncodedLength.Statement .movBD :=
  ⟨rfl, Nat.le_of_ble_eq_true rfl, Nat.le_of_ble_eq_true rfl, fun _ => rfl⟩
theorem EncodedLength.movCA : EncodedLength.Statement .movCA :=
  ⟨rfl, Nat.le_of_ble_eq_true rfl, Nat.le_of_ble_eq_true rfl, fun _ => rfl⟩
theorem EncodedLength.movCB : EncodedLength.Statement .movCB :=
  ⟨rfl, Nat.le_of_ble_eq_true rfl, Nat.le_of_ble_eq_true rfl, fun _ => rfl⟩
theorem EncodedLength.movCD : EncodedLength.Statement .movCD :=
  ⟨rfl, Nat.le_of_ble_eq_true rfl, Nat.le_of_ble_eq_true rfl, fun _ => rfl⟩
theorem EncodedLength.movDA : EncodedLength.Statement .movDA :=
  ⟨rfl, Nat.le_of_ble_eq_true rfl, Nat.le_of_ble_eq_true rfl, fun _ => rfl⟩
theorem EncodedLength.movDB : EncodedLength.Statement .movDB :=
  ⟨rfl, Nat.le_of_ble_eq_true rfl, Nat.le_of_ble_eq_true rfl, fun _ => rfl⟩
theorem EncodedLength.movDC : EncodedLength.Statement .movDC :=
  ⟨rfl, Nat.le_of_ble_eq_true rfl, Nat.le_of_ble_eq_true rfl, fun _ => rfl⟩
theorem EncodedLength.add : EncodedLength.Statement .add :=
  ⟨rfl, Nat.le_of_ble_eq_true rfl, Nat.le_of_ble_eq_true rfl, fun _ => rfl⟩
theorem EncodedLength.sub : EncodedLength.Statement .sub :=
  ⟨rfl, Nat.le_of_ble_eq_true rfl, Nat.le_of_ble_eq_true rfl, fun _ => rfl⟩
theorem EncodedLength.and : EncodedLength.Statement .and :=
  ⟨rfl, Nat.le_of_ble_eq_true rfl, Nat.le_of_ble_eq_true rfl, fun _ => rfl⟩
theorem EncodedLength.or : EncodedLength.Statement .or :=
  ⟨rfl, Nat.le_of_ble_eq_true rfl, Nat.le_of_ble_eq_true rfl, fun _ => rfl⟩
theorem EncodedLength.xor : EncodedLength.Statement .xor :=
  ⟨rfl, Nat.le_of_ble_eq_true rfl, Nat.le_of_ble_eq_true rfl, fun _ => rfl⟩
theorem EncodedLength.addImm (v : Byte) : EncodedLength.Statement (.addImm v) :=
  ⟨rfl, Nat.le_of_ble_eq_true rfl, Nat.le_of_ble_eq_true rfl, fun _ => rfl⟩
theorem EncodedLength.subImm (v : Byte) : EncodedLength.Statement (.subImm v) :=
  ⟨rfl, Nat.le_of_ble_eq_true rfl, Nat.le_of_ble_eq_true rfl, fun _ => rfl⟩
theorem EncodedLength.andImm (v : Byte) : EncodedLength.Statement (.andImm v) :=
  ⟨rfl, Nat.le_of_ble_eq_true rfl, Nat.le_of_ble_eq_true rfl, fun _ => rfl⟩
theorem EncodedLength.orImm (v : Byte) : EncodedLength.Statement (.orImm v) :=
  ⟨rfl, Nat.le_of_ble_eq_true rfl, Nat.le_of_ble_eq_true rfl, fun _ => rfl⟩
theorem EncodedLength.xorImm (v : Byte) : EncodedLength.Statement (.xorImm v) :=
  ⟨rfl, Nat.le_of_ble_eq_true rfl, Nat.le_of_ble_eq_true rfl, fun _ => rfl⟩
theorem EncodedLength.incA : EncodedLength.Statement .incA :=
  ⟨rfl, Nat.le_of_ble_eq_true rfl, Nat.le_of_ble_eq_true rfl, fun _ => rfl⟩
theorem EncodedLength.incB : EncodedLength.Statement .incB :=
  ⟨rfl, Nat.le_of_ble_eq_true rfl, Nat.le_of_ble_eq_true rfl, fun _ => rfl⟩
theorem EncodedLength.incC : EncodedLength.Statement .incC :=
  ⟨rfl, Nat.le_of_ble_eq_true rfl, Nat.le_of_ble_eq_true rfl, fun _ => rfl⟩
theorem EncodedLength.incD : EncodedLength.Statement .incD :=
  ⟨rfl, Nat.le_of_ble_eq_true rfl, Nat.le_of_ble_eq_true rfl, fun _ => rfl⟩
theorem EncodedLength.decA : EncodedLength.Statement .decA :=
  ⟨rfl, Nat.le_of_ble_eq_true rfl, Nat.le_of_ble_eq_true rfl, fun _ => rfl⟩
theorem EncodedLength.decB : EncodedLength.Statement .decB :=
  ⟨rfl, Nat.le_of_ble_eq_true rfl, Nat.le_of_ble_eq_true rfl, fun _ => rfl⟩
theorem EncodedLength.decC : EncodedLength.Statement .decC :=
  ⟨rfl, Nat.le_of_ble_eq_true rfl, Nat.le_of_ble_eq_true rfl, fun _ => rfl⟩
theorem EncodedLength.decD : EncodedLength.Statement .decD :=
  ⟨rfl, Nat.le_of_ble_eq_true rfl, Nat.le_of_ble_eq_true rfl, fun _ => rfl⟩
theorem EncodedLength.pushA : EncodedLength.Statement .pushA :=
  ⟨rfl, Nat.le_of_ble_eq_true rfl, Nat.le_of_ble_eq_true rfl, fun _ => rfl⟩
theorem EncodedLength.pushB : EncodedLength.Statement .pushB :=
  ⟨rfl, Nat.le_of_ble_eq_true rfl, Nat.le_of_ble_eq_true rfl, fun _ => rfl⟩
theorem EncodedLength.pushC : EncodedLength.Statement .pushC :=
  ⟨rfl, Nat.le_of_ble_eq_true rfl, Nat.le_of_ble_eq_true rfl, fun _ => rfl⟩
theorem EncodedLength.pushD : EncodedLength.Statement .pushD :=
  ⟨rfl, Nat.le_of_ble_eq_true rfl, Nat.le_of_ble_eq_true rfl, fun _ => rfl⟩
theorem EncodedLength.popA : EncodedLength.Statement .popA :=
  ⟨rfl, Nat.le_of_ble_eq_true rfl, Nat.le_of_ble_eq_true rfl, fun _ => rfl⟩
theorem EncodedLength.popB : EncodedLength.Statement .popB :=
  ⟨rfl, Nat.le_of_ble_eq_true rfl, Nat.le_of_ble_eq_true rfl, fun _ => rfl⟩
theorem EncodedLength.popC : EncodedLength.Statement .popC :=
  ⟨rfl, Nat.le_of_ble_eq_true rfl, Nat.le_of_ble_eq_true rfl, fun _ => rfl⟩
theorem EncodedLength.popD : EncodedLength.Statement .popD :=
  ⟨rfl, Nat.le_of_ble_eq_true rfl, Nat.le_of_ble_eq_true rfl, fun _ => rfl⟩
theorem EncodedLength.jmp (v : Word) : EncodedLength.Statement (.jmp v) :=
  ⟨rfl, Nat.le_of_ble_eq_true rfl, Nat.le_of_ble_eq_true rfl, fun _ => rfl⟩
theorem EncodedLength.jz (v : Word) : EncodedLength.Statement (.jz v) :=
  ⟨rfl, Nat.le_of_ble_eq_true rfl, Nat.le_of_ble_eq_true rfl, fun _ => rfl⟩
theorem EncodedLength.jnz (v : Word) : EncodedLength.Statement (.jnz v) :=
  ⟨rfl, Nat.le_of_ble_eq_true rfl, Nat.le_of_ble_eq_true rfl, fun _ => rfl⟩

/-! ## OperandRoundTrip: the operand bytes give the operand back, and with the mnemonic the instruction (R84) -/

def OperandRoundTrip.Statement (i : Instr) : Prop :=
  ∀ rest : List Byte, ∃ w, i.mnemonic.format.operand (i.operandBytes ++ rest) = some (w, rest) ∧ i.mnemonic.toInstr w = i

theorem OperandRoundTrip.nop : OperandRoundTrip.Statement .nop :=
  fun _ => ⟨_, rfl, rfl⟩
theorem OperandRoundTrip.halt : OperandRoundTrip.Statement .halt :=
  fun _ => ⟨_, rfl, rfl⟩
theorem OperandRoundTrip.syscall (v : Byte) : OperandRoundTrip.Statement (.syscall v) :=
  fun _ => ⟨_, rfl, congrArg Instr.syscall (lo8_concat16 0 v)⟩
theorem OperandRoundTrip.ei : OperandRoundTrip.Statement .ei :=
  fun _ => ⟨_, rfl, rfl⟩
theorem OperandRoundTrip.di : OperandRoundTrip.Statement .di :=
  fun _ => ⟨_, rfl, rfl⟩
theorem OperandRoundTrip.iret : OperandRoundTrip.Statement .iret :=
  fun _ => ⟨_, rfl, rfl⟩
theorem OperandRoundTrip.setSp (v : Word) : OperandRoundTrip.Statement (.setSp v) :=
  fun _ => ⟨_, rfl, congrArg Instr.setSp (concat16_hi8_lo8 v)⟩
theorem OperandRoundTrip.movAImm (v : Byte) : OperandRoundTrip.Statement (.movAImm v) :=
  fun _ => ⟨_, rfl, congrArg Instr.movAImm (lo8_concat16 0 v)⟩
theorem OperandRoundTrip.movBImm (v : Byte) : OperandRoundTrip.Statement (.movBImm v) :=
  fun _ => ⟨_, rfl, congrArg Instr.movBImm (lo8_concat16 0 v)⟩
theorem OperandRoundTrip.movCImm (v : Byte) : OperandRoundTrip.Statement (.movCImm v) :=
  fun _ => ⟨_, rfl, congrArg Instr.movCImm (lo8_concat16 0 v)⟩
theorem OperandRoundTrip.movDImm (v : Byte) : OperandRoundTrip.Statement (.movDImm v) :=
  fun _ => ⟨_, rfl, congrArg Instr.movDImm (lo8_concat16 0 v)⟩
theorem OperandRoundTrip.movAMem (v : Word) : OperandRoundTrip.Statement (.movAMem v) :=
  fun _ => ⟨_, rfl, congrArg Instr.movAMem (concat16_hi8_lo8 v)⟩
theorem OperandRoundTrip.movBMem (v : Word) : OperandRoundTrip.Statement (.movBMem v) :=
  fun _ => ⟨_, rfl, congrArg Instr.movBMem (concat16_hi8_lo8 v)⟩
theorem OperandRoundTrip.movCMem (v : Word) : OperandRoundTrip.Statement (.movCMem v) :=
  fun _ => ⟨_, rfl, congrArg Instr.movCMem (concat16_hi8_lo8 v)⟩
theorem OperandRoundTrip.movDMem (v : Word) : OperandRoundTrip.Statement (.movDMem v) :=
  fun _ => ⟨_, rfl, congrArg Instr.movDMem (concat16_hi8_lo8 v)⟩
theorem OperandRoundTrip.movMemA (v : Word) : OperandRoundTrip.Statement (.movMemA v) :=
  fun _ => ⟨_, rfl, congrArg Instr.movMemA (concat16_hi8_lo8 v)⟩
theorem OperandRoundTrip.movMemB (v : Word) : OperandRoundTrip.Statement (.movMemB v) :=
  fun _ => ⟨_, rfl, congrArg Instr.movMemB (concat16_hi8_lo8 v)⟩
theorem OperandRoundTrip.movMemC (v : Word) : OperandRoundTrip.Statement (.movMemC v) :=
  fun _ => ⟨_, rfl, congrArg Instr.movMemC (concat16_hi8_lo8 v)⟩
theorem OperandRoundTrip.movMemD (v : Word) : OperandRoundTrip.Statement (.movMemD v) :=
  fun _ => ⟨_, rfl, congrArg Instr.movMemD (concat16_hi8_lo8 v)⟩
theorem OperandRoundTrip.movAB : OperandRoundTrip.Statement .movAB :=
  fun _ => ⟨_, rfl, rfl⟩
theorem OperandRoundTrip.movAC : OperandRoundTrip.Statement .movAC :=
  fun _ => ⟨_, rfl, rfl⟩
theorem OperandRoundTrip.movAD : OperandRoundTrip.Statement .movAD :=
  fun _ => ⟨_, rfl, rfl⟩
theorem OperandRoundTrip.movBA : OperandRoundTrip.Statement .movBA :=
  fun _ => ⟨_, rfl, rfl⟩
theorem OperandRoundTrip.movBC : OperandRoundTrip.Statement .movBC :=
  fun _ => ⟨_, rfl, rfl⟩
theorem OperandRoundTrip.movBD : OperandRoundTrip.Statement .movBD :=
  fun _ => ⟨_, rfl, rfl⟩
theorem OperandRoundTrip.movCA : OperandRoundTrip.Statement .movCA :=
  fun _ => ⟨_, rfl, rfl⟩
theorem OperandRoundTrip.movCB : OperandRoundTrip.Statement .movCB :=
  fun _ => ⟨_, rfl, rfl⟩
theorem OperandRoundTrip.movCD : OperandRoundTrip.Statement .movCD :=
  fun _ => ⟨_, rfl, rfl⟩
theorem OperandRoundTrip.movDA : OperandRoundTrip.Statement .movDA :=
  fun _ => ⟨_, rfl, rfl⟩
theorem OperandRoundTrip.movDB : OperandRoundTrip.Statement .movDB :=
  fun _ => ⟨_, rfl, rfl⟩
theorem OperandRoundTrip.movDC : OperandRoundTrip.Statement .movDC :=
  fun _ => ⟨_, rfl, rfl⟩
theorem OperandRoundTrip.add : OperandRoundTrip.Statement .add :=
  fun _ => ⟨_, rfl, rfl⟩
theorem OperandRoundTrip.sub : OperandRoundTrip.Statement .sub :=
  fun _ => ⟨_, rfl, rfl⟩
theorem OperandRoundTrip.and : OperandRoundTrip.Statement .and :=
  fun _ => ⟨_, rfl, rfl⟩
theorem OperandRoundTrip.or : OperandRoundTrip.Statement .or :=
  fun _ => ⟨_, rfl, rfl⟩
theorem OperandRoundTrip.xor : OperandRoundTrip.Statement .xor :=
  fun _ => ⟨_, rfl, rfl⟩
theorem OperandRoundTrip.addImm (v : Byte) : OperandRoundTrip.Statement (.addImm v) :=
  fun _ => ⟨_, rfl, congrArg Instr.addImm (lo8_concat16 0 v)⟩
theorem OperandRoundTrip.subImm (v : Byte) : OperandRoundTrip.Statement (.subImm v) :=
  fun _ => ⟨_, rfl, congrArg Instr.subImm (lo8_concat16 0 v)⟩
theorem OperandRoundTrip.andImm (v : Byte) : OperandRoundTrip.Statement (.andImm v) :=
  fun _ => ⟨_, rfl, congrArg Instr.andImm (lo8_concat16 0 v)⟩
theorem OperandRoundTrip.orImm (v : Byte) : OperandRoundTrip.Statement (.orImm v) :=
  fun _ => ⟨_, rfl, congrArg Instr.orImm (lo8_concat16 0 v)⟩
theorem OperandRoundTrip.xorImm (v : Byte) : OperandRoundTrip.Statement (.xorImm v) :=
  fun _ => ⟨_, rfl, congrArg Instr.xorImm (lo8_concat16 0 v)⟩
theorem OperandRoundTrip.incA : OperandRoundTrip.Statement .incA :=
  fun _ => ⟨_, rfl, rfl⟩
theorem OperandRoundTrip.incB : OperandRoundTrip.Statement .incB :=
  fun _ => ⟨_, rfl, rfl⟩
theorem OperandRoundTrip.incC : OperandRoundTrip.Statement .incC :=
  fun _ => ⟨_, rfl, rfl⟩
theorem OperandRoundTrip.incD : OperandRoundTrip.Statement .incD :=
  fun _ => ⟨_, rfl, rfl⟩
theorem OperandRoundTrip.decA : OperandRoundTrip.Statement .decA :=
  fun _ => ⟨_, rfl, rfl⟩
theorem OperandRoundTrip.decB : OperandRoundTrip.Statement .decB :=
  fun _ => ⟨_, rfl, rfl⟩
theorem OperandRoundTrip.decC : OperandRoundTrip.Statement .decC :=
  fun _ => ⟨_, rfl, rfl⟩
theorem OperandRoundTrip.decD : OperandRoundTrip.Statement .decD :=
  fun _ => ⟨_, rfl, rfl⟩
theorem OperandRoundTrip.pushA : OperandRoundTrip.Statement .pushA :=
  fun _ => ⟨_, rfl, rfl⟩
theorem OperandRoundTrip.pushB : OperandRoundTrip.Statement .pushB :=
  fun _ => ⟨_, rfl, rfl⟩
theorem OperandRoundTrip.pushC : OperandRoundTrip.Statement .pushC :=
  fun _ => ⟨_, rfl, rfl⟩
theorem OperandRoundTrip.pushD : OperandRoundTrip.Statement .pushD :=
  fun _ => ⟨_, rfl, rfl⟩
theorem OperandRoundTrip.popA : OperandRoundTrip.Statement .popA :=
  fun _ => ⟨_, rfl, rfl⟩
theorem OperandRoundTrip.popB : OperandRoundTrip.Statement .popB :=
  fun _ => ⟨_, rfl, rfl⟩
theorem OperandRoundTrip.popC : OperandRoundTrip.Statement .popC :=
  fun _ => ⟨_, rfl, rfl⟩
theorem OperandRoundTrip.popD : OperandRoundTrip.Statement .popD :=
  fun _ => ⟨_, rfl, rfl⟩
theorem OperandRoundTrip.jmp (v : Word) : OperandRoundTrip.Statement (.jmp v) :=
  fun _ => ⟨_, rfl, congrArg Instr.jmp (concat16_hi8_lo8 v)⟩
theorem OperandRoundTrip.jz (v : Word) : OperandRoundTrip.Statement (.jz v) :=
  fun _ => ⟨_, rfl, congrArg Instr.jz (concat16_hi8_lo8 v)⟩
theorem OperandRoundTrip.jnz (v : Word) : OperandRoundTrip.Statement (.jnz v) :=
  fun _ => ⟨_, rfl, congrArg Instr.jnz (concat16_hi8_lo8 v)⟩

end Sys2Proof.Laws
end

