-- ==== Sys2Proof/Laws/Transfer.lean ====
section
/-! SUPPORT. Laws/Transfer.lean: the depth to which `transferResult` lets transfers nest loses nothing: a transfer that
ends at any depth ends at that one, with the same state (notes/assumptions/4.md). -/

namespace Sys2Proof.Machine

/-! ## A greater depth keeps a result -/

theorem dmaPortWrite_mono {f g : State → Option State} (h : ∀ {s t}, f s = some t → g s = some t) {d p : Nat} {v : Byte}
    {s t : State} (e : dmaPortWrite f d p v s = some t) : dmaPortWrite g d p v s = some t := by
  unfold dmaPortWrite at e ⊢
  split
  · rename_i hc; rw [if_pos hc] at e; exact h e
  · rename_i hc; rw [if_neg hc] at e; exact e

theorem dmaByte_mono {f g : State → Option State} (h : ∀ {s t}, f s = some t → g s = some t) {d : Nat} {a x : Word}
    {s t : State} (e : dmaByte f d a x s = some t) : dmaByte g d a x s = some t := by
  simp only [dmaByte, Option.bind_eq_some_iff, Option.map_eq_some_iff] at e ⊢
  obtain ⟨s1, e1, s2, e2, rfl⟩ := e
  exact ⟨s1, dmaPortWrite_mono h e1, s2, dmaPortWrite_mono h e2, rfl⟩

theorem dmaLoop_mono {f g : State → Option State} (h : ∀ {s t}, f s = some t → g s = some t) {d n : Nat} {a x : Word}
    {s t : State} (e : dmaLoop f d n a x s = some t) : dmaLoop g d n a x s = some t := by
  induction n generalizing a x s with
  | zero => exact e
  | succ n ih =>
    simp only [dmaLoop, Option.bind_eq_some_iff] at e ⊢
    obtain ⟨u, e1, e2⟩ := e
    exact ⟨u, dmaByte_mono h e1, ih e2⟩

theorem transferWith_mono {f g : State → Option State} (h : ∀ {s t}, f s = some t → g s = some t) {s t : State}
    (e : transferWith f s = some t) : transferWith g s = some t := by
  simp only [transferWith] at e ⊢
  split
  · rename_i hn; rw [if_pos hn] at e; exact e
  · rename_i hn
    rw [if_neg hn] at e
    split
    · rename_i hr; rw [if_pos hr] at e; exact dmaLoop_mono h e
    · rename_i hr; rw [if_neg hr] at e; exact e

theorem transferDepth_mono {j k : Nat} (hjk : j ≤ k) {s t : State} (h : transferDepth j s = some t) :
    transferDepth k s = some t := by
  induction j generalizing k s t with
  | zero => cases h
  | succ j ih =>
    obtain ⟨k, rfl⟩ : ∃ i, k = i + 1 := ⟨k - 1, by omega⟩
    exact transferWith_mono (fun e => ih (by omega) e) h

/-! ## Whether a transfer ends depends on the configuration and the DMA registers alone -/

/-- The DMA registers after a write to a port of the engine other than its trigger (50_dma_and_devices.md R226). -/
def dmaAfter (p : Nat) (v : Byte) (x : Dma) : Dma :=
  match p with
  | 0 => { x with dev := v }
  | 1 => { x with srcStart := concat16 (hi8 x.srcStart) v }
  | 2 => { x with srcStart := concat16 v (lo8 x.srcStart) }
  | 3 => { x with srcEnd := concat16 (hi8 x.srcEnd) v }
  | 4 => { x with srcEnd := concat16 v (lo8 x.srcEnd) }
  | 5 => { x with target := concat16 (hi8 x.target) v }
  | 6 => { x with target := concat16 v (lo8 x.target) }
  | _ => x

theorem dmaWrite_dma (s : State) (p : Nat) (v : Byte) : (dmaWrite s p v).dma = dmaAfter p v s.dma := by
  unfold dmaWrite dmaAfter
  split <;> first | rfl | simp_all

/-- A second write to a port leaves nothing of the first. -/
theorem dmaAfter_dmaAfter (p : Nat) (v w : Byte) (x : Dma) : dmaAfter p w (dmaAfter p v x) = dmaAfter p w x := by
  unfold dmaAfter
  split <;> first | rfl | simp only [hi8_concat16, lo8_concat16]

/-- Some write leaves the registers as they are. -/
theorem dmaAfter_self (p : Nat) (x : Dma) : ∃ v, x = dmaAfter p v x := by
  by_cases h : p < 7
  · have c : p = 0 ∨ p = 1 ∨ p = 2 ∨ p = 3 ∨ p = 4 ∨ p = 5 ∨ p = 6 := by omega
    rcases c with rfl | rfl | rfl | rfl | rfl | rfl | rfl
    · exact ⟨x.dev, rfl⟩
    · exact ⟨lo8 x.srcStart, by simp [dmaAfter]⟩
    · exact ⟨hi8 x.srcStart, by simp [dmaAfter]⟩
    · exact ⟨lo8 x.srcEnd, by simp [dmaAfter]⟩
    · exact ⟨hi8 x.srcEnd, by simp [dmaAfter]⟩
    · exact ⟨lo8 x.target, by simp [dmaAfter]⟩
    · exact ⟨hi8 x.target, by simp [dmaAfter]⟩
  · refine ⟨0, ?_⟩
    unfold dmaAfter
    split <;> first | rfl | omega

theorem plainPortWrite_dma (s : State) (d p : Nat) (v : Byte) :
    (plainPortWrite s d p v).dma =
      if d = s.cfg.dmaDev ∧ d ≠ s.cfg.intcDev then dmaAfter p v s.dma else s.dma := by
  unfold plainPortWrite
  by_cases h1 : d = s.cfg.intcDev
  · rw [if_pos h1, if_neg (fun g => g.2 h1)]
    unfold intcWrite
    split <;> first | rfl | (rcases acknowledge_effect s v with h | ⟨h, e⟩ <;> simp [*])
  · rw [if_neg h1]
    by_cases h2 : d = s.cfg.dmaDev
    · rw [if_pos h2, if_pos ⟨h2, h1⟩]
      exact dmaWrite_dma s p v
    · have e : ¬ (d = s.cfg.dmaDev ∧ d ≠ s.cfg.intcDev) := fun g => h2 g.1
      rw [if_neg h2, if_neg e]
      split
      · exact (deviceAccess_effect s _).1.dma
      · rfl

/-- Two states with configuration `c` and the same DMA registers, of which `K` holds. -/
structure SameDma (c : Cfg) (K : Dma → Prop) (u u' : State) : Prop where
  cfg : u.cfg = c
  cfg' : u'.cfg = c
  dma : u'.dma = u.dma
  holds : K u.dma

/-- From such states, where `f` ends `g` ends, in such states. -/
abbrev Follows (c : Cfg) (K : Dma → Prop) (f g : State → Option State) : Prop :=
  ∀ u u' t, SameDma c K u u' → f u = some t → ∃ t', g u' = some t' ∧ SameDma c K t t'

/-- `K` survives what a transfer of the engine from itself writes to a port. -/
abbrev KeptBy (K : Dma → Prop) (p : Nat) : Prop := p = 7 ∨ ∀ v x, K x → K (dmaAfter p v x)

theorem follows_dmaPortWrite {c : Cfg} {K : Dma → Prop} {f g : State → Option State} (h : Follows c K f g) {p : Nat}
    (hp : KeptBy K p) (d : Nat) (v : Byte) : Follows c K (dmaPortWrite f d p v) (dmaPortWrite g d p v) := by
  intro u u' t q ht
  unfold dmaPortWrite at *
  rw [q.cfg']
  rw [q.cfg] at ht
  split at ht
  · rename_i hc; rw [if_pos hc]; exact h u u' t q ht
  · rename_i hc
    rw [if_neg hc]
    cases ht
    refine ⟨_, rfl, ?_, ?_, ?_, ?_⟩
    · exact (plainPortWrite_effect u d p v).cfg.trans q.cfg
    · exact (plainPortWrite_effect u' d p v).cfg.trans q.cfg'
    · rw [plainPortWrite_dma, plainPortWrite_dma, q.cfg, q.cfg', q.dma]
    · rw [plainPortWrite_dma]
      split
      · rename_i hd
        rcases hp with rfl | hp
        · exact absurd ⟨hd.1.trans (by rw [q.cfg]), rfl⟩ hc
        · exact hp v _ q.holds
      · exact q.holds

theorem follows_dmaByte {c : Cfg} {K : Dma → Prop} {f g : State → Option State} (h : Follows c K f g)
    (h1 : KeptBy K c.dmaSrcAddrLoPort) (h2 : KeptBy K c.dmaSrcAddrHiPort) (d : Nat) (a x : Word) :
    Follows c K (dmaByte f d a x) (dmaByte g d a x) := by
  intro u u' t q ht
  simp only [dmaByte, Option.bind_eq_some_iff, Option.map_eq_some_iff] at ht ⊢
  obtain ⟨s1, e1, s2, e2, rfl⟩ := ht
  rw [q.cfg] at e1
  obtain ⟨s1', e1', q1⟩ := follows_dmaPortWrite h h1 d _ u u' s1 q e1
  rw [q1.cfg] at e2
  obtain ⟨s2', e2', q2⟩ := follows_dmaPortWrite h h2 d _ s1 s1' s2 q1 e2
  refine ⟨_, ⟨s1', by rw [q.cfg']; exact e1', s2', by rw [q1.cfg']; exact e2', rfl⟩, ?_⟩
  have key (s : State) (p : Nat) (z : Word) :
      (ramWrite (portRead s d p).2 z (portRead s d p).1).cfg = s.cfg ∧
      (ramWrite (portRead s d p).2 z (portRead s d p).1).dma = s.dma := by
    have e := portRead_effect s d p
    obtain ⟨r, ds, w⟩ := ramWrite_effect (portRead s d p).2 z (portRead s d p).1
    rw [w]
    exact ⟨e.cfg, e.dma⟩
  refine ⟨(key _ _ _).1.trans q2.cfg, (key _ _ _).1.trans q2.cfg', ?_, ?_⟩
  · rw [(key _ _ _).2, (key _ _ _).2]; exact q2.dma
  · rw [(key _ _ _).2]; exact q2.holds

theorem follows_dmaLoop {c : Cfg} {K : Dma → Prop} {f g : State → Option State} (h : Follows c K f g)
    (h1 : KeptBy K c.dmaSrcAddrLoPort) (h2 : KeptBy K c.dmaSrcAddrHiPort) (d n : Nat) (a x : Word) :
    Follows c K (dmaLoop f d n a x) (dmaLoop g d n a x) := by
  induction n generalizing a x with
  | zero => intro u u' t q ht; cases ht; exact ⟨u', rfl, q⟩
  | succ n ih =>
    intro u u' t q ht
    simp only [dmaLoop, Option.bind_eq_some_iff] at ht ⊢
    obtain ⟨s1, e1, e2⟩ := ht
    obtain ⟨s1', e1', q1⟩ := follows_dmaByte h h1 h2 d a x u u' s1 q e1
    obtain ⟨t', et, qt⟩ := ih _ _ s1 s1' t q1 e2
    exact ⟨t', ⟨s1', e1', et⟩, qt⟩

theorem follows_transferWith {c : Cfg} {K : Dma → Prop} {f g : State → Option State} (h : Follows c K f g)
    (h1 : KeptBy K c.dmaSrcAddrLoPort) (h2 : KeptBy K c.dmaSrcAddrHiPort) :
    Follows c K (transferWith f) (transferWith g) := by
  intro u u' t q ht
  simp only [transferWith] at ht ⊢
  rw [q.dma, q.cfg']
  rw [q.cfg] at ht
  split at ht
  · rename_i hn; cases ht; rw [if_pos hn]; exact ⟨u', rfl, q⟩
  · rename_i hn
    rw [if_neg hn]
    split at ht
    · rename_i hr; rw [if_pos hr]; exact follows_dmaLoop h h1 h2 _ _ _ _ u u' t q ht
    · rename_i hr; rw [if_neg hr]; cases ht; exact ⟨_, rfl, q.cfg, q.cfg', q.dma, q.holds⟩

theorem follows_transferDepth {c : Cfg} {K : Dma → Prop} (h1 : KeptBy K c.dmaSrcAddrLoPort)
    (h2 : KeptBy K c.dmaSrcAddrHiPort) (k : Nat) : Follows c K (transferDepth k) (transferDepth k) := by
  induction k with
  | zero => intro u u' t q h; cases h
  | succ k ih => exact follows_transferWith ih h1 h2

/-- Whether a transfer ends depends on the configuration and the DMA registers alone, and a greater depth keeps it. -/
theorem transferDepth_isSome {j k : Nat} {u u' : State} (hjk : j ≤ k) (hc : u'.cfg = u.cfg) (hd : u'.dma = u.dma)
    (h : (transferDepth j u).isSome = true) : (transferDepth k u').isSome = true := by
  obtain ⟨t, ht⟩ := Option.isSome_iff_exists.1 h
  obtain ⟨t', e, -⟩ := follows_transferDepth (K := fun _ => True) (.inr fun _ _ _ => trivial) (.inr fun _ _ _ => trivial)
    k u u' t ⟨rfl, hc, hd, trivial⟩ (transferDepth_mono hjk ht)
  rw [e]
  rfl

/-! ## The depth is enough -/

/-- The registers of transfers under way at once, when the high address port is the trigger. -/
abbrev Nested (s : State) (x : Dma) : Prop := ∃ v, x = dmaAfter s.cfg.dmaSrcAddrLoPort v s.dma

/-- Whether a transfer with these registers ends at a depth. -/
abbrev EndsAt (s : State) (k : Nat) (x : Dma) : Prop := (transferDepth k { s with dma := x }).isSome = true

/-- Where one more level ends no more transfers, two more do not either. -/
theorem endsAt_down {s : State} (hi : s.cfg.dmaSrcAddrHiPort = 7) {k : Nat}
    (hk : ∀ x, Nested s x → EndsAt s (k + 1) x → EndsAt s k x) {x : Dma} (hx : Nested s x)
    (h : EndsAt s (k + 2) x) : EndsAt s (k + 1) x := by
  have kept : KeptBy (Nested s) s.cfg.dmaSrcAddrLoPort := by
    right
    rintro v x ⟨w, rfl⟩
    exact ⟨v, dmaAfter_dmaAfter _ _ _ _⟩
  have sim : Follows s.cfg (Nested s) (transferDepth (k + 1)) (transferDepth k) := by
    intro u u' t q ht
    have h1 : EndsAt s (k + 1) u.dma := transferDepth_isSome (u := u) (le_refl _) q.cfg.symm rfl (by rw [ht]; rfl)
    have h2 : (transferDepth k u').isSome = true :=
      transferDepth_isSome (u := { s with dma := u.dma }) (le_refl _) q.cfg' q.dma (hk _ q.holds h1)
    obtain ⟨t', ht'⟩ := Option.isSome_iff_exists.1 h2
    obtain ⟨t2, e2, q2⟩ := follows_transferDepth kept (.inl hi) (k + 1) u u' t q ht
    have e3 := transferDepth_mono (Nat.le_succ k) ht'
    rw [e2] at e3
    cases e3
    exact ⟨t', ht', q2⟩
  obtain ⟨t, ht⟩ := Option.isSome_iff_exists.1 h
  obtain ⟨t', e, -⟩ := follows_transferWith sim kept (.inl hi) { s with dma := x } { s with dma := x } t
    ⟨rfl, rfl, rfl, hx⟩ ht
  change (transferWith (transferDepth k) { s with dma := x }).isSome = true
  rw [e]
  rfl

/-- Where one more level ends no more transfers, no number of further levels does. -/
theorem endsAt_stop {s : State} (hi : s.cfg.dmaSrcAddrHiPort = 7) {k : Nat}
    (hk : ∀ x, Nested s x → EndsAt s (k + 1) x → EndsAt s k x) (j : Nat) {x : Dma} (hx : Nested s x)
    (h : EndsAt s (k + 1 + j) x) : EndsAt s k x := by
  have all (i : Nat) : ∀ x, Nested s x → EndsAt s (k + i + 1) x → EndsAt s (k + i) x := by
    induction i with
    | zero => exact hk
    | succ i ih => exact fun x hx h => endsAt_down hi ih hx h
  induction j with
  | zero => exact hk x hx h
  | succ j ih =>
    refine ih ?_
    have g := all (j + 1) x hx
    rw [show k + (j + 1) = k + 1 + j by omega] at g
    exact g h

/-- With the high address port the trigger, 256 levels are enough: were there a transfer of rank 257, there would be one of
every rank below, with 257 different values of the one byte in which their registers differ. -/
theorem transferDepth_enough {s : State} (hi : s.cfg.dmaSrcAddrHiPort = 7) {k : Nat}
    (hk : (transferDepth k s).isSome = true) : (transferDepth 256 s).isSome = true := by
  by_contra h256
  have self : Nested s s.dma := dmaAfter_self _ _
  have mono (i j : Nat) (x : Dma) (h : i ≤ j) (hx : EndsAt s i x) : EndsAt s j x := transferDepth_isSome h rfl rfl hx
  have rank (j : Fin 257) :
      ∃ v, EndsAt s (j + 1) (dmaAfter s.cfg.dmaSrcAddrLoPort v s.dma) ∧
        ¬ EndsAt s j (dmaAfter s.cfg.dmaSrcAddrLoPort v s.dma) := by
    by_contra hn
    have hn' : ∀ x, Nested s x → EndsAt s (j + 1) x → EndsAt s j x := by
      rintro x ⟨v, rfl⟩ h
      by_contra g
      exact hn ⟨v, h, g⟩
    have h1 := endsAt_stop hi hn' k self (mono k _ _ (by omega) hk)
    exact h256 (mono j 256 _ (by omega) h1)
  choose f hf using rank
  have inj : Function.Injective (fun j => (f j).toFin) := by
    intro i j e
    have e : f i = f j := BitVec.eq_of_toFin_eq e
    have hi := hf i
    have hj := hf j
    rw [e] at hi
    by_contra hne
    rcases Nat.lt_or_gt_of_ne (fun h => hne (Fin.ext h)) with h | h
    · exact hj.2 (mono _ _ _ h hi.1)
    · exact hi.2 (mono _ _ _ h hj.1)
  have := Fintype.card_le_of_injective _ inj
  simp at this

/-- With the low address port the trigger, a transfer of the engine from itself starts itself before it does anything. -/
theorem transferDepth_none {s : State} (hd : s.dma.dev.toNat = s.cfg.dmaDev) (hlo : s.cfg.dmaSrcAddrLoPort = 7)
    (hn : dmaLength s.dma.srcStart s.dma.srcEnd ≠ 0)
    (hr : dmaInRange s.cfg s.dma.target (dmaLength s.dma.srcStart s.dma.srcEnd) = true) (k : Nat) :
    transferDepth k s = none := by
  induction k with
  | zero => rfl
  | succ k ih =>
    obtain ⟨m, hm⟩ : ∃ m, dmaLength s.dma.srcStart s.dma.srcEnd = m + 1 := ⟨_, (Nat.succ_pred_eq_of_ne_zero hn).symm⟩
    simp only [transferDepth, transferWith]
    rw [if_neg hn, if_pos hr, hm]
    simp only [dmaLoop, dmaByte, dmaPortWrite, hd, hlo, and_self, if_true, ih]
    rfl

/-- The depth of `transferResult` is exact (entry 4): a transfer that ends at some depth has that result. -/
theorem transferResult_exact {s t : State} {k : Nat} (h : transferDepth k s = some t) : transferResult s = some t := by
  have ends : (transferDepth 256 s).isSome = true := by
    by_cases hs : SelfTriggering s
    · by_cases hhi : s.cfg.dmaSrcAddrHiPort = 7
      · exact transferDepth_enough hhi (by rw [h]; rfl)
      · have hlo : s.cfg.dmaSrcAddrLoPort = 7 := hs.2.resolve_right hhi
        change (transferWith (transferDepth 255) s).isSome = true
        simp only [transferWith]
        split
        · rfl
        · rename_i hn
          split
          · rename_i hr
            rw [transferDepth_none hs.1 hlo hn hr k] at h
            cases h
          · rfl
    · exact transferResult_ends hs
  obtain ⟨u, hu⟩ := Option.isSome_iff_exists.1 ends
  have e1 := transferDepth_mono (Nat.le_max_left k 256) h
  have e2 := transferDepth_mono (Nat.le_max_right k 256) hu
  rw [e1] at e2
  cases e2
  exact hu

end Sys2Proof.Machine
end

