-- ==== Sys2Proof/Tests/Slice0.lean ====
section
/-! SUPPORT. Tests/Slice0.lean: the model's own tests: what WellFormed refuses, words decoded, one step of each
instruction with the result spec/95_test_vectors.md gives, and for each statement with hypotheses a state that meets them
all. -/

namespace Sys2Proof.Tests

open Sys2Proof.Machine

/-! ## What WellFormed refuses and what it takes (00_scope.md R2, R3) -/

theorem test_wf_reference : refData.wf = true := by decide
theorem test_wf_refuses_empty_range :
    { refData with romStart := 0xFFFF, romEnd := 0x8100 : CfgData }.wf = false := by decide
theorem test_wf_refuses_overlap : { refData with ramEnd := 0x8000 : CfgData }.wf = false := by decide
theorem test_wf_refuses_hole : { refData with romStart := 0x8101 : CfgData }.wf = false := by decide
theorem test_wf_refuses_shared_slot : { refData with dmaDev := 0 : CfgData }.wf = false := by decide
theorem test_wf_refuses_slot_16 : { refData with devices := [2, 16] : CfgData }.wf = false := by decide
theorem test_wf_accepts_no_timer : { refData with devices := [] : CfgData }.wf = true := by decide
theorem test_wf_refuses_no_ram_entry : { refData with ramMaxEntries := 0 : CfgData }.wf = false := by decide
theorem test_wf_refuses_no_step : { refData with stepsPerTick := 0 : CfgData }.wf = false := by decide
theorem test_wf_refuses_port_16 : { refData with dmaSrcDataPort := 16 : CfgData }.wf = false := by decide
theorem test_wf_accepts_trigger_port :
    { refData with dmaSrcAddrLoPort := 7, dmaSrcAddrHiPort := 7 : CfgData }.wf = true := by decide
theorem test_wf_refuses_missing_row : { refData with opcodes := refOpcodes.tail : CfgData }.wf = false := by decide
theorem test_wf_refuses_shared_byte :
    { refData with opcodes := refOpcodes.dropLast ++ [(.JNZ, 0x00)] : CfgData }.wf = false := by decide

/-! ## Decoding: a word of every instruction, written out from the table of 30_encoding.md R86 -/

/-- Whether each byte sequence decodes to the instruction beside it, with no byte left. -/
def decodesTo (rows : List (List Byte × Instr)) : Bool :=
  rows.all (fun r => decode refOpcodes r.1 == .instr r.2 [])

theorem test_decode_system_and_stack_pointer :
    decodesTo
      [([0x00], .nop), ([0x01], .halt), ([0x02, 0xA5], .syscall 0xA5), ([0x03], .ei), ([0x04], .di), ([0x05], .iret),
       ([0x06, 0x34, 0x92], .setSp 0x9234)] = true := by decide

theorem test_decode_register_immediate_and_memory_moves :
    decodesTo
      [([0x10, 0xA5], .movAImm 0xA5), ([0x11, 0xA5], .movBImm 0xA5), ([0x12, 0xA5], .movCImm 0xA5),
       ([0x13, 0xA5], .movDImm 0xA5), ([0x14, 0x34, 0x92], .movAMem 0x9234), ([0x15, 0x34, 0x92], .movBMem 0x9234),
       ([0x16, 0x34, 0x92], .movCMem 0x9234), ([0x17, 0x34, 0x92], .movDMem 0x9234),
       ([0x18, 0x34, 0x92], .movMemA 0x9234), ([0x19, 0x34, 0x92], .movMemB 0x9234),
       ([0x1A, 0x34, 0x92], .movMemC 0x9234), ([0x1B, 0x34, 0x92], .movMemD 0x9234)] = true := by decide

theorem test_decode_register_moves :
    decodesTo
      [([0x21], .movAB), ([0x22], .movAC), ([0x23], .movAD), ([0x24], .movBA), ([0x26], .movBC), ([0x27], .movBD),
       ([0x28], .movCA), ([0x29], .movCB), ([0x2B], .movCD), ([0x2C], .movDA), ([0x2D], .movDB), ([0x2E], .movDC)] = true := by decide

theorem test_decode_arithmetic :
    decodesTo
      [([0x30], .add), ([0x31], .sub), ([0x32], .and), ([0x33], .or), ([0x34], .xor), ([0x38, 0xA5], .addImm 0xA5),
       ([0x39, 0xA5], .subImm 0xA5), ([0x3A, 0xA5], .andImm 0xA5), ([0x3B, 0xA5], .orImm 0xA5),
       ([0x3C, 0xA5], .xorImm 0xA5)] = true := by decide

theorem test_decode_increments_and_decrements :
    decodesTo
      [([0x40], .incA), ([0x41], .incB), ([0x42], .incC), ([0x43], .incD), ([0x44], .decA), ([0x45], .decB),
       ([0x46], .decC), ([0x47], .decD)] = true := by decide

theorem test_decode_pushes_and_pops :
    decodesTo
      [([0x50], .pushA), ([0x51], .pushB), ([0x52], .pushC), ([0x53], .pushD), ([0x54], .popA), ([0x55], .popB),
       ([0x56], .popC), ([0x57], .popD)] = true := by decide

theorem test_decode_jumps :
    decodesTo
      [([0x60, 0x34, 0x92], .jmp 0x9234), ([0x61, 0x34, 0x92], .jz 0x9234), ([0x62, 0x34, 0x92], .jnz 0x9234)] = true := by decide

theorem test_decode_unrecognized :
    ([0x07, 0x20, 0x25, 0x2A, 0x2F, 0x35, 0x3D, 0x48, 0x58, 0x63, 0xFF] : List Byte).all
      (fun b => decode refOpcodes [b, 0x01] == .unrecognized b [0x01]) = true := by decide
theorem test_decode_truncated : decode refOpcodes [0x62, 0x34] = .truncated := by decide
theorem test_decode_table_word : decodeTableWord 24 0x123462 = some (.jnz 0x1234) := by decide
theorem test_fetch_word :
    (fetchInstr (State.reset.withFetchWord 16 0x0739)).1 = some (.subImm 0x07) := by decide

/-! ## One step of each instruction (95_test_vectors.md part 2) -/

/-- The state after, seen through `f`. -/
def got {α : Type} (o : Host.Outcome State Fault Refusal) (f : State → α) : Option α :=
  match o with
  | .next t => some (f t)
  | .fault _ => none
  | .refused _ => none

/-- The start state of the vectors: bytes loaded into RAM at 0x0000, where `PC` points. -/
def placed (bs : List Byte) : State := placeBytes { State.reset with pc := 0 } 0 bs

/-- `s` with one more byte loaded into RAM. -/
def holding (a : Word) (v : Byte) (s : State) : State := placeByte s a v

def idleLines : Vector LineState 8 := Vector.replicate 8 .idle

/-- V8 row 7: `IRET` at 0x0200 with its frame at the top of RAM. -/
def inHandler : State :=
  { placeBytes (placeByte State.reset 0x0200 0x05) 0x7FFC [0x2A, 0xFE, 0x34, 0x12] with
    pc := 0x0200, sp := 0x7FFB, inh := true }

/-! ### Data movement (V5) -/

theorem test_mov_a_imm_zero :
    got (step { placed [0x10, 0x00] with a := 0x55, flags := 0x01 }) (fun t => (t.a, t.flags, t.pc)) =
      some (0x00, 0x02, 0x0002) := by decide

theorem test_mov_b_imm :
    got (step { placed [0x11, 0x05] with flags := 0x03 }) (fun t => (t.b, t.flags, t.pc)) =
      some (0x05, 0x00, 0x0002) := by decide

theorem test_mov_c_imm :
    got (step { placed [0x12, 0x80] with flags := 0x03 }) (fun t => (t.c, t.flags, t.pc)) =
      some (0x80, 0x00, 0x0002) := by decide

theorem test_mov_d_imm :
    got (step { placed [0x13, 0xFF] with flags := 0x03 }) (fun t => (t.d, t.flags, t.pc)) =
      some (0xFF, 0x00, 0x0002) := by decide

theorem test_mov_a_mem :
    got (step { holding 0x0080 0x2A (placed [0x14, 0x80, 0x00]) with flags := 0x01 }) (fun t => (t.a, t.flags, t.pc)) =
      some (0x2A, 0x00, 0x0003) := by decide

theorem test_mov_a_mem_reads_own_opcode :
    got (step (placed [0x14, 0x00, 0x00])) (fun t => (t.a, t.pc)) =
      some (0x14, 0x0003) := by decide

theorem test_mov_b_mem_unwritten :
    got (step { placed [0x15, 0x34, 0x12] with b := 0x09 }) (fun t => (t.b, t.flags, t.pc)) =
      some (0x00, 0x02, 0x0003) := by decide

theorem test_mov_c_mem_rom :
    got (step { placed [0x16, 0x00, 0x90] with rom := [(0x9000, 0xA7)] }) (fun t => (t.c, t.flags, t.pc)) =
      some (0xA7, 0x00, 0x0003) := by decide

theorem test_mov_d_mem_pending :
    got (step { placed [0x17, 0x01, 0x80] with
      intc := { State.reset.intc with lines := ((idleLines.set 2 .pending).set 6 .pending).set 7 .servicing } })
      (fun t => (t.d, t.flags, t.pc)) =
      some (0x44, 0x00, 0x0003) := by decide

theorem test_mov_mem_a :
    got (step { placed [0x18, 0x80, 0x00] with a := 0x2A, flags := 0x03 })
      (fun t => (bankByte t 0x0080, t.flags, t.pc)) =
      some (some 0x2A, 0x03, 0x0003) := by decide

theorem test_mov_mem_b_rom_refused :
    got (step { placed [0x19, 0x00, 0x90] with b := 0x11, rom := [(0x9000, 0xA7)] })
      (fun t => (bankByte t 0x9000, t.diag, t.pc)) =
      some (some 0xA7, [.writeToReadOnly 0x9000 0x11], 0x0003) := by decide

theorem test_mov_mem_c_over_own_operand :
    got (step { placed [0x1A, 0x01, 0x00] with c := 0x00 }) (fun t => (bankByte t 0x0001, t.pc)) =
      some (some 0x00, 0x0003) := by decide

theorem test_mov_mem_d_empty_slot :
    got (step { placed [0x1B, 0x50, 0x80] with d := 0x01 }) (fun t => (t.diag, t.pc)) =
      some ([.unknownPort 5 0 .write], 0x0003) := by decide

theorem test_mov_a_b :
    got (step { placed [0x21] with a := 0x01, b := 0x00, flags := 0x01 }) (fun t => (t.a, t.flags, t.pc)) =
      some (0x00, 0x02, 0x0001) := by decide

theorem test_mov_a_c :
    got (step { placed [0x22] with a := 0x11, b := 0x22, c := 0x33, d := 0x44, flags := 0x03 })
      (fun t => (t.a, t.b, t.c, t.d, t.flags)) =
      some (0x33, 0x22, 0x33, 0x44, 0x00) := by decide

theorem test_mov_a_d :
    got (step { placed [0x23] with a := 0x11, b := 0x22, c := 0x33, d := 0x44, flags := 0x03 })
      (fun t => (t.a, t.b, t.c, t.d, t.flags)) =
      some (0x44, 0x22, 0x33, 0x44, 0x00) := by decide

theorem test_mov_b_a :
    got (step { placed [0x24] with a := 0x11, b := 0x22, c := 0x33, d := 0x44, flags := 0x03 })
      (fun t => (t.a, t.b, t.c, t.d, t.flags)) =
      some (0x11, 0x11, 0x33, 0x44, 0x00) := by decide

theorem test_mov_b_c :
    got (step { placed [0x26] with a := 0x11, b := 0x22, c := 0x33, d := 0x44, flags := 0x03 })
      (fun t => (t.a, t.b, t.c, t.d, t.flags)) =
      some (0x11, 0x33, 0x33, 0x44, 0x00) := by decide

theorem test_mov_b_d :
    got (step { placed [0x27] with a := 0x11, b := 0x22, c := 0x33, d := 0x44, flags := 0x03 })
      (fun t => (t.a, t.b, t.c, t.d, t.flags)) =
      some (0x11, 0x44, 0x33, 0x44, 0x00) := by decide

theorem test_mov_c_a :
    got (step { placed [0x28] with a := 0x11, b := 0x22, c := 0x33, d := 0x44, flags := 0x03 })
      (fun t => (t.a, t.b, t.c, t.d, t.flags)) =
      some (0x11, 0x22, 0x11, 0x44, 0x00) := by decide

theorem test_mov_c_b :
    got (step { placed [0x29] with a := 0x11, b := 0x22, c := 0x33, d := 0x44, flags := 0x03 })
      (fun t => (t.a, t.b, t.c, t.d, t.flags)) =
      some (0x11, 0x22, 0x22, 0x44, 0x00) := by decide

theorem test_mov_c_d :
    got (step { placed [0x2B] with a := 0x11, b := 0x22, c := 0x33, d := 0x44, flags := 0x03 })
      (fun t => (t.a, t.b, t.c, t.d, t.flags)) =
      some (0x11, 0x22, 0x44, 0x44, 0x00) := by decide

theorem test_mov_d_a :
    got (step { placed [0x2C] with a := 0x11, b := 0x22, c := 0x33, d := 0x44, flags := 0x03 })
      (fun t => (t.a, t.b, t.c, t.d, t.flags)) =
      some (0x11, 0x22, 0x33, 0x11, 0x00) := by decide

theorem test_mov_d_b :
    got (step { placed [0x2D] with a := 0x11, b := 0x22, c := 0x33, d := 0x44, flags := 0x03 })
      (fun t => (t.a, t.b, t.c, t.d, t.flags)) =
      some (0x11, 0x22, 0x33, 0x22, 0x00) := by decide

theorem test_mov_d_c :
    got (step { placed [0x2E] with c := 0x80, d := 0x00, flags := 0x02 }) (fun t => (t.d, t.flags, t.pc)) =
      some (0x80, 0x00, 0x0001) := by decide

/-! ### Arithmetic and logic (V2, V3, V4) -/

theorem test_add_carry_and_zero :
    got (step { placed [0x30] with a := 0xFF, b := 0x01, flags := 0x00 }) (fun t => (t.a, t.b, t.flags)) =
      some (0x00, 0x01, 0x03) := by decide

theorem test_add_into_sign :
    got (step { placed [0x30] with a := 0x7F, b := 0x01, flags := 0x00 }) (fun t => (t.a, t.b, t.flags)) =
      some (0x80, 0x01, 0x00) := by decide

theorem test_sub_borrow :
    got (step { placed [0x31] with a := 0x10, b := 0x20, flags := 0x00 }) (fun t => (t.a, t.b, t.flags)) =
      some (0xF0, 0x20, 0x01) := by decide

theorem test_sub_no_borrow :
    got (step { placed [0x31] with a := 0xF0, b := 0x0F, flags := 0x00 }) (fun t => (t.a, t.b, t.flags)) =
      some (0xE1, 0x0F, 0x00) := by decide

theorem test_and_clears_carry :
    got (step { placed [0x32] with a := 0xFF, b := 0x01, flags := 0x01 }) (fun t => (t.a, t.b, t.flags)) =
      some (0x01, 0x01, 0x00) := by decide

theorem test_and_zero :
    got (step { placed [0x32] with a := 0xAA, b := 0x55, flags := 0x01 }) (fun t => (t.a, t.b, t.flags)) =
      some (0x00, 0x55, 0x02) := by decide

theorem test_or :
    got (step { placed [0x33] with a := 0x10, b := 0x20, flags := 0x01 }) (fun t => (t.a, t.b, t.flags)) =
      some (0x30, 0x20, 0x00) := by decide

theorem test_xor_zero :
    got (step { placed [0x34] with a := 0xFF, b := 0xFF, flags := 0x01 }) (fun t => (t.a, t.b, t.flags)) =
      some (0x00, 0xFF, 0x02) := by decide

theorem test_xor :
    got (step { placed [0x34] with a := 0xFF, b := 0x01, flags := 0x01 }) (fun t => (t.a, t.b, t.flags)) =
      some (0xFE, 0x01, 0x00) := by decide

theorem test_add_imm :
    got (step { placed [0x38, 0xFF] with a := 0xFF, b := 0x77, flags := 0x03 }) (fun t => (t.a, t.b, t.flags)) =
      some (0xFE, 0x77, 0x01) := by decide

theorem test_sub_imm :
    got (step { placed [0x39, 0xFF] with a := 0x00, b := 0x77, flags := 0x03 }) (fun t => (t.a, t.b, t.flags)) =
      some (0x01, 0x77, 0x01) := by decide

theorem test_and_imm :
    got (step { placed [0x3A, 0x81] with a := 0xFF, b := 0x77, flags := 0x03 }) (fun t => (t.a, t.b, t.flags)) =
      some (0x81, 0x77, 0x00) := by decide

theorem test_or_imm :
    got (step { placed [0x3B, 0xF0] with a := 0x0F, b := 0x77, flags := 0x03 }) (fun t => (t.a, t.b, t.flags)) =
      some (0xFF, 0x77, 0x00) := by decide

theorem test_xor_imm :
    got (step { placed [0x3C, 0xFF] with a := 0x5A, b := 0x77, flags := 0x03 }) (fun t => (t.a, t.b, t.flags)) =
      some (0xA5, 0x77, 0x00) := by decide

theorem test_inc_a_wraps :
    got (step { placed [0x40] with a := 0xFF, flags := 0x03 }) (fun t => (t.a, t.flags, t.pc)) =
      some (0x00, 0x03, 0x0001) := by decide

theorem test_inc_a :
    got (step { placed [0x40] with a := 0xFE, flags := 0x03 }) (fun t => (t.a, t.flags, t.pc)) =
      some (0xFF, 0x00, 0x0001) := by decide

theorem test_inc_b :
    got (step { placed [0x41] with b := 0x02, flags := 0x03 }) (fun t => (t.b, t.flags, t.pc)) =
      some (0x03, 0x00, 0x0001) := by decide

theorem test_inc_c :
    got (step { placed [0x42] with c := 0xFF, flags := 0x03 }) (fun t => (t.c, t.flags, t.pc)) =
      some (0x00, 0x03, 0x0001) := by decide

theorem test_inc_d :
    got (step { placed [0x43] with d := 0x7F, flags := 0x03 }) (fun t => (t.d, t.flags, t.pc)) =
      some (0x80, 0x00, 0x0001) := by decide

theorem test_dec_a_to_zero :
    got (step { placed [0x44] with a := 0x01, flags := 0x03 }) (fun t => (t.a, t.flags, t.pc)) =
      some (0x00, 0x02, 0x0001) := by decide

theorem test_dec_a_wraps :
    got (step { placed [0x44] with a := 0x00, flags := 0x03 }) (fun t => (t.a, t.flags, t.pc)) =
      some (0xFF, 0x01, 0x0001) := by decide

theorem test_dec_b :
    got (step { placed [0x45] with b := 0x80, flags := 0x03 }) (fun t => (t.b, t.flags, t.pc)) =
      some (0x7F, 0x00, 0x0001) := by decide

theorem test_dec_c :
    got (step { placed [0x46] with c := 0xFF, flags := 0x03 }) (fun t => (t.c, t.flags, t.pc)) =
      some (0xFE, 0x00, 0x0001) := by decide

theorem test_dec_d_wraps :
    got (step { placed [0x47] with d := 0x00, flags := 0x03 }) (fun t => (t.d, t.flags, t.pc)) =
      some (0xFF, 0x01, 0x0001) := by decide

/-! ### Control flow (V6) -/

theorem test_jmp :
    got (step { placed [0x60, 0x34, 0x12] with flags := 0x03 }) (fun t => (t.pc, t.flags)) =
      some (0x1234, 0x03) := by decide

theorem test_jmp_fetched_across_wrap :
    got (step { placed [0x34, 0x12] with pc := 0xFFFF, rom := [(0xFFFF, 0x60)] }) (fun t => t.pc) =
      some 0x1234 := by decide

theorem test_jz_taken :
    got (step { placed [0x61, 0x07, 0x00] with flags := 0x02 }) (fun t => t.pc) =
      some 0x0007 := by decide

theorem test_jz_ignores_carry :
    got (step { placed [0x61, 0x07, 0x00] with flags := 0x01 }) (fun t => t.pc) =
      some 0x0003 := by decide

theorem test_jnz_taken :
    got (step { placed [0x62, 0x07, 0x00] with flags := 0x01 }) (fun t => t.pc) =
      some 0x0007 := by decide

theorem test_jnz_not_taken :
    got (step { placed [0x62, 0x07, 0x00] with flags := 0x03 }) (fun t => t.pc) =
      some 0x0003 := by decide

/-! ### Stack (V7) -/

theorem test_push_a :
    got (step { placed [0x50] with a := 0xAB, sp := 0x7FFF, flags := 0x03 })
      (fun t => (bankByte t 0x7FFF, t.sp, t.flags, t.pc)) =
      some (some 0xAB, 0x7FFE, 0x03, 0x0001) := by decide

theorem test_push_b_wraps :
    got (step { placed [0x51] with b := 0xCD, sp := 0x0000 }) (fun t => (bankByte t 0x0000, t.sp)) =
      some (some 0xCD, 0xFFFF) := by decide

theorem test_push_c_rom_refused :
    got (step { placed [0x52] with c := 0xEE, sp := 0x8100 }) (fun t => (t.sp, t.diag)) =
      some (0x80FF, [.writeToReadOnly 0x8100 0xEE]) := by decide

theorem test_push_d_acknowledges :
    got (step { placed [0x53] with
      d := 0x05, sp := 0x8002, intc := { State.reset.intc with lines := idleLines.set 5 .servicing } })
      (fun t => (lineOf t 5, t.sp)) =
      some (.idle, 0x8001) := by decide

theorem test_pop_a_keeps_flags :
    got (step { placed [0x54] with sp := 0x7FFE, a := 0x55, flags := 0x01 }) (fun t => (t.a, t.sp, t.flags)) =
      some (0x00, 0x7FFF, 0x01) := by decide

theorem test_pop_b_wraps :
    got (step { holding 0x0010 0x55 (placed [0x77]) with pc := 0x0010, sp := 0xFFFF }) (fun t => (t.b, t.sp, t.pc)) =
      some (0x77, 0x0000, 0x0011) := by decide

theorem test_pop_c_reads_port :
    got (step { placed [0x56] with sp := 0x7FFF, intc := { State.reset.intc with enable := 0x5A } })
      (fun t => (t.c, t.sp)) =
      some (0x5A, 0x8000) := by decide

theorem test_pop_d_unwritten :
    got (step { placed [0x57] with sp := 0x00FF, d := 0x09 }) (fun t => (t.d, t.sp)) =
      some (0x00, 0x0100) := by decide

theorem test_set_sp :
    got (step { placed [0x06, 0xFF, 0x01] with flags := 0x03 }) (fun t => (t.sp, t.flags, t.pc)) =
      some (0x01FF, 0x03, 0x0003) := by decide

/-! ### Interrupt and system (V8) -/

theorem test_nop :
    got (step (placed [0x00])) (fun t => (t.pc, t.diag)) =
      some (0x0001, []) := by decide

theorem test_halt_no_poll :
    got (step { placed [0x01] with
      intc := { State.reset.intc with ie := true, enable := 0x01, lines := idleLines.set 0 .pending } })
      (fun t => (t.run, t.pc, lineOf t 0, t.sp)) =
      some (.halted, 0x0001, .pending, 0x7FFF) := by decide

theorem test_syscall_exit :
    got (step (placed [0x02, 0x00])) (fun t => (t.run, t.pc)) =
      some (.halted, 0x0002) := by decide

theorem test_syscall_unknown :
    got (step (placed [0x02, 0xFF])) (fun t => (t.run, t.pc, t.diag)) =
      some (.running, 0x0002, [.unknownSyscall 0x0000 0xFF]) := by decide

theorem test_ei_enters_in_same_turn :
    got (step { placed [0x03] with
      intc := { State.reset.intc with ie := false, enable := 0x01, lines := idleLines.set 0 .pending } })
      (fun t => (lineOf t 0, [bankByte t 0x7FFF, bankByte t 0x7FFE], t.sp, t.pc, t.inh)) =
      some (.servicing, [some 0x00, some 0x01], 0x7FFB, 0x0000, true) := by decide

theorem test_di_no_entry :
    got (step { placed [0x04] with
      intc := { State.reset.intc with ie := true, enable := 0x01, lines := idleLines.set 0 .pending } })
      (fun t => (t.intc.ie, t.pc, lineOf t 0)) =
      some (false, 0x0001, .pending) := by decide

theorem test_iret :
    got (step inHandler) (fun t => (t.a, t.flags, t.pc, t.sp, t.inh)) =
      some (0x2A, 0x02, 0x1234, 0x7FFF, false) := by decide

theorem test_iret_outside_handler :
    got (step (placed [0x05])) (fun t => (t.pc, t.sp, t.diag)) =
      some (0x0001, 0x7FFF, [.invalidInterruptReturn 0x0000]) := by decide

theorem test_unrecognized_opcode :
    got (step (placed [0xFF])) (fun t => (t.pc, t.ir, t.diag)) =
      some (0x0001, 0xFF, [.unrecognizedOpcode 0x0000 0xFF]) := by decide

/-! ## For each statement with hypotheses, states and operands that meet them -/

/-- REF with another capacity of the Ram bank and another number of steps a tick. -/
def smallCfg : Cfg := { toCfgData := { refData with ramMaxEntries := 2, stepsPerTick := 3 }, ok := by decide }

/-- A cold reset in `smallCfg` with the Ram bank of V11 after two writes: full, 0x0010 the oldest. -/
def fullBank : State :=
  { coldReset smallCfg with ram := { cells := [(0x0010, 0x01), (0x0020, 0x02)], order := [0x0010, 0x0020] } }

/-- Lines 2 and 5 pending, 7 in service. -/
def someLines : Vector LineState 8 := ((idleLines.set 2 .pending).set 5 .pending).set 7 .servicing

/-- An empty Ram bank is in order. -/
theorem ramOk_empty {s : State} (h : s.ram = ⟨[], []⟩) : RamOk s := by
  unfold RamOk
  rw [h]
  exact ⟨rfl, by simp, List.nodup_nil, by simp, Nat.zero_le _⟩

theorem ramOk_fullBank : RamOk fullBank := by
  refine ⟨rfl, ?_, ?_, ?_, by decide⟩
  · simp [fullBank]
  · simp [fullBank]
  · intro a ha
    simp only [fullBank, List.mem_cons, List.not_mem_nil, or_false] at ha
    rcases ha with rfl | rfl <;> decide

def halted : State := { State.reset with run := .halted }

/-- Line 3 pending and enabled, interrupts on, the handler at 0x0040. -/
def readyToEnter : State :=
  { State.reset with
    a := 0x2A, flags := 0x03
    intc := { ie := true, enable := 0x08, lines := idleLines.set 3 .pending, handlerLow := 0x40, handlerHigh := 0x00 } }

/-- A state whose DMA registers hold these values. -/
def dmaSet (dev : Byte) (srcStart srcEnd target : Word) : State :=
  { State.reset with dma := { dev := dev, srcStart := srcStart, srcEnd := srcEnd, target := target } }

/-- REF with these two DMA source address ports. -/
def portsCfg (lo hi : Fin 8) : Cfg :=
  { toCfgData := { refData with dmaSrcAddrLoPort := lo, dmaSrcAddrHiPort := hi }, ok := by revert lo hi; decide }

/-- The engine its own source, with these two address ports. -/
def selfSource (lo hi : Fin 8) : State := { dmaSet 1 0x0005 0x0005 0x0300 with cfg := portsCfg lo hi }

theorem test_witness_DecodeOfEncode :
    refOpcodes.wf = true ∧ (Instr.jnz 0x1234).wf = true ∧ (Instr.syscall 0x07).wf = true ∧ Instr.iret.wf = true := by
  decide

theorem test_witness_EncodeOfDecode :
    refOpcodes.wf = true ∧ decode refOpcodes [0x62, 0x34, 0x12, 0xFF] = .instr (.jnz 0x1234) [0xFF] := by decide

/-- The bytes of an instruction are at `PC`. -/
def bytesAtPc (s : State) (bs : List Byte) : Bool :=
  (List.range bs.length).all (fun k => bankByte s (s.pc + BitVec.ofNat 16 k) == bs[k]?)

/-- One byte in ROM at reset's `PC`, and three across the end of the address space, where ROM meets RAM. -/
theorem test_witness_StepRunsDecodedInstruction :
    (State.reset.run = .running ∧ decode State.reset.cfg.opcodes [0x00] = .instr .nop [] ∧
      bytesAtPc State.reset [0x00] = true) ∧
    (let s : State := { placed [0x34, 0x12] with pc := 0xFFFF, rom := [(0xFFFF, 0x60)], turnStep := 1 }
     s.run = .running ∧ decode s.cfg.opcodes [0x60, 0x34, 0x12] = .instr (.jmp 0x1234) [] ∧
      bytesAtPc s [0x60, 0x34, 0x12] = true) ∧
    (let s : State := { holding 0x7FFF 0x07 (holding 0x7FFE 0x02 State.reset) with pc := 0x7FFE }
     s.run = .running ∧ decode s.cfg.opcodes [0x02, 0x07] = .instr (.syscall 0x07) [] ∧
      bytesAtPc s [0x02, 0x07] = true) := by decide

/-- A recognised byte of each format and an unrecognised one. -/
theorem test_witness_ExecuteLooksUpOpcode :
    [placed [0x00], placed [0x02, 0x07], placed [0x60, 0x34, 0x12], placed [0xFF]].map
      (fun s => ((turnBoundary s).run, s.cfg.opcodes.mnemonicOf (memRead (turnBoundary s) s.pc).1)) =
    [(.running, some .NOP), (.running, some .SYSCALL), (.running, some .JMP), (.running, none)] := by decide

/-- A state that cannot trigger itself, an instruction that writes nothing, a configuration with ports below the
trigger. -/
theorem test_witness_EveryStepCompletes :
    ¬ SelfTriggering State.reset ∧ ¬ SelfTriggering (selfSource 0 6) ∧ SelfTriggering (selfSource 7 1) ∧
    Instr.nop.mnemonic ∉
      [.MOV_MEM_A, .MOV_MEM_B, .MOV_MEM_C, .MOV_MEM_D, .PUSH_A, .PUSH_B, .PUSH_C, .PUSH_D] ∧
    State.reset.cfg.dmaSrcAddrLoPort ≠ 7 ∧ State.reset.cfg.dmaSrcAddrHiPort ≠ 7 := by decide

theorem test_witness_RunStateChanges :
    (∃ t, exec .halt State.reset = .next t) ∧ (∃ t, exec (.syscall 0) State.reset = .next t) ∧
    (∃ t, exec (.syscall 1) State.reset = .next t) ∧ (∃ t, step halted = .next t) ∧ halted.run = .halted :=
  ⟨⟨_, rfl⟩, ⟨_, rfl⟩, ⟨_, rfl⟩, ⟨_, rfl⟩, rfl⟩

/-- At a turn boundary with a request on line 7, and inside a turn. -/
theorem test_witness_HaltedTickOnlyLatches :
    halted.run = .halted ∧
    (let s : State := { halted with env := { halted.env with boundary := [[7]] } }
     s.run = .halted ∧ s.turnStep = 0 ∧ lineOf s 7 = .idle ∧ 7 ∈ s.env.boundary.headD []) ∧
    ({ halted with turnStep := 1 } : State).turnStep ≠ 0 := by decide

theorem test_witness_TickIsOneTurn :
    State.reset.turnStep = 0 ∧ fullBank.turnStep = 0 ∧ (∃ t, tick State.reset = .next t) ∧
    State.reset.cfg.dmaSrcAddrLoPort ≠ 7 ∧ State.reset.cfg.dmaSrcAddrHiPort ≠ 7 :=
  ⟨rfl, rfl, ⟨_, rfl⟩, by decide, by decide⟩

/-- The two ends of RAM. -/
theorem test_witness_StoreSeenByNextFetch :
    (let s : State := placed []
     Memory.wf s.ram.cells = true ∧ regionOf s.cfg s.pc = .ram) ∧
    (let s : State := { placed [] with pc := 0x7FFF }
     Memory.wf s.ram.cells = true ∧ regionOf s.cfg s.pc = .ram) := by decide

/-- A ROM address, the two ends of RAM. -/
theorem test_witness_LoadResult :
    [0x8100, 0x0000, 0x7FFF].map (bankByte State.reset) = [some 0x00, some 0x00, some 0x00] := by decide

/-- Writes that end: in each region, to the trigger port of a block that is not its own source; and one that never ends. -/
theorem test_witness_StoreResult_PushResult :
    [0x0000, 0x7FFF, 0x8000, 0x8017, 0x8100, 0xFFFF].map (writeEnds State.reset) = [true, true, true, true, true, true] ∧
    (let s : State := { selfSource 7 1 with sp := 0x8017 }
     writeEnds s (absoluteAddr 0x8017) = false ∧ writeEnds s s.sp = false) ∧
    ¬ SelfTriggering State.reset ∧ regionOf State.reset.cfg 0x8100 ≠ .io :=
  ⟨by decide, by decide +kernel, by decide, by decide⟩

/-- The two ends of RAM with room, and a full bank whose entry is overwritten. -/
theorem test_witness_StoreToRamFrame :
    (let s : State := State.reset
     (Instr.movMemD 0x0000, s.d) ∈ [(Instr.movMemA 0x0000, s.a), (Instr.movMemB 0x0000, s.b), (Instr.movMemC 0x0000, s.c),
        (Instr.movMemD 0x0000, s.d)] ∧ Memory.wf s.ram.cells = true ∧
      regionOf s.cfg 0x0000 = .ram ∧ regionOf s.cfg 0x7FFF = .ram ∧ s.ram.order.length < s.cfg.ramMaxEntries) ∧
    (let s : State := fullBank
     Memory.wf s.ram.cells = true ∧ regionOf s.cfg 0x0010 = .ram ∧ ramHas s 0x0010 = true) :=
  ⟨⟨by simp, by decide, by decide, by decide, by decide⟩, by decide, by decide, by decide⟩

theorem test_witness_PushToRamFrame_PopAfterPush :
    (let s : State := { State.reset with sp := 0x0000 }
     (Instr.pushD, s.d) ∈ [(Instr.pushA, s.a), (Instr.pushB, s.b), (Instr.pushC, s.c), (Instr.pushD, s.d)] ∧
      Memory.wf s.ram.cells = true ∧ regionOf s.cfg s.sp = .ram ∧
      s.ram.order.length < s.cfg.ramMaxEntries) ∧
    (let s : State := State.reset
     Memory.wf s.ram.cells = true ∧ regionOf s.cfg s.sp = .ram ∧ s.ram.order.length < s.cfg.ramMaxEntries) ∧
    (let s : State := { fullBank with sp := 0x0010 }
     Memory.wf s.ram.cells = true ∧ regionOf s.cfg s.sp = .ram ∧ ramHas s s.sp = true) :=
  ⟨⟨by simp, by decide, by decide, by decide⟩, ⟨by decide, by decide, by decide⟩, by decide, by decide,
    by decide⟩

theorem test_witness_PopResult :
    bankByte ({ State.reset with sp := 0xFFFF } : State) (0xFFFF + 1) = some 0x00 ∧
    bankByte ({ State.reset with sp := 0x7FFE } : State) (0x7FFE + 1) = some 0x00 := by decide

theorem test_witness_SystemResult : (1 : Byte) ≠ 0 ∧ (0xFF : Byte) ≠ 0 := by decide

theorem test_witness_InterruptReturnResult :
    (inHandler.inh = true ∧ bankByte inHandler (inHandler.sp + 1) = some 0x2A ∧
      bankByte inHandler (inHandler.sp + 2) = some 0xFE ∧ bankByte inHandler (inHandler.sp + 3) = some 0x34 ∧ bankByte inHandler (inHandler.sp + 4) = some 0x12) ∧
    State.reset.inh = false := by decide

theorem test_witness_InterruptReturnFrame : inHandler.inh = true := rfl

/-- The ends of the three ranges; a bank in order; a line that is in service after a write. -/
theorem test_witness_BusReadByRegion_BusWriteByRegion :
    [0x0000, 0x7FFF, 0x8000, 0x80FF, 0x8100, 0xFFFF].map (regionOf State.reset.cfg) =
      [.ram, .ram, .io, .io, .rom, .rom] ∧
    RamOk State.reset ∧
    lineOf (memWrite { State.reset with intc := { State.reset.intc with lines := someLines } } 0x0000 0x01) 7 =
      .servicing :=
  ⟨by decide, ramOk_empty rfl, by decide⟩

theorem test_witness_RomWriteRefused :
    (let s : State := { State.reset with sp := 0x8100 }
     regionOf s.cfg 0xFFFF = .rom ∧ regionOf s.cfg s.sp = .rom ∧
      (Instr.pushB, s.b) ∈ [(Instr.pushA, s.a), (Instr.pushB, s.b), (Instr.pushC, s.c), (Instr.pushD, s.d)]) ∧
    (let s : State := { State.reset with sp := 0xFFFF }
     regionOf s.cfg 0x8100 = .rom ∧ regionOf s.cfg s.sp = .rom ∧
      (Instr.movMemC 0x8100, s.c) ∈ [(Instr.movMemA 0x8100, s.a), (Instr.movMemB 0x8100, s.b), (Instr.movMemC 0x8100, s.c),
        (Instr.movMemD 0x8100, s.d)]) :=
  ⟨⟨by decide, by decide, by simp⟩, by decide, by decide, by simp⟩

/-- An overwrite in a full bank, a new entry with room, a new entry in a full bank. -/
theorem test_witness_RamInsertAndEvict :
    (RamOk fullBank ∧ inRam fullBank.cfg 0x0010 = true ∧ 0x0010 ∈ fullBank.ram.order) ∧
    (RamOk State.reset ∧ inRam State.reset.cfg 0x7FFF = true ∧ 0x7FFF ∉ State.reset.ram.order ∧
      State.reset.ram.order.length < State.reset.cfg.ramMaxEntries) ∧
    (inRam fullBank.cfg 0x0030 = true ∧ 0x0030 ∉ fullBank.ram.order ∧ fullBank.ram.order = 0x0010 :: [0x0020] ∧
      fullBank.ram.order.length = fullBank.cfg.ramMaxEntries) :=
  ⟨⟨ramOk_fullBank, by decide, by decide⟩, ⟨ramOk_empty rfl, by decide, by decide, by decide⟩,
    by decide, by decide, rfl, rfl⟩

/-- V11: the eviction of the oldest entry. -/
theorem test_eviction :
    (ramWrite fullBank 0x0030 0x03).ram.order = [0x0020, 0x0030] ∧
    (ramWrite fullBank 0x0030 0x03).diag = [.storageOverflow 0x0010] ∧
    ramRead (ramWrite fullBank 0x0030 0x03) 0x0010 = 0x00 := by
  refine ⟨?_, ?_, ?_⟩ <;> decide

/-- The first slot with no device and the last. -/
theorem test_witness_UnregisteredSlotAccess :
    [0x8030, 0x80F3, 0x80FF].map (regionOf State.reset.cfg) = [.io, .io, .io] ∧
    [0x8030, 0x80F3, 0x80FF].map (fun a : Word => (a.toNat - State.reset.cfg.ioStart.toNat) / 16) = [3, 15, 15] ∧
    [3, 15].all (fun d => d != State.reset.cfg.intcDev && d != State.reset.cfg.dmaDev &&
      !State.reset.cfg.devices.contains d) = true := by decide

/-- V11: a read from a slot with no device. -/
theorem test_unknown_port :
    (memRead State.reset 0x80F3).1 = 0x00 ∧ (memRead State.reset 0x80F3).2.diag = [.unknownPort 15 3 .read] := by decide

/-- The first and the last port of the Timer's slot, with a listed answer and with none. -/
theorem test_witness_OutsideDeviceAccess :
    [0x8020, 0x802F].map (regionOf State.reset.cfg) = [.io, .io] ∧
    [0x8020, 0x802F].map (fun a : Word => (a.toNat - State.reset.cfg.ioStart.toNat) / 16) = [2, 2] ∧
    2 ∈ State.reset.cfg.devices ∧ State.reset.env.replies = [] ∧
    ({ State.reset.env with replies := [⟨0x42, [3]⟩] } : Env).replies = ⟨0x42, [3]⟩ :: [] := by decide

/-- A device that answers 0x42 and requests line 3 inside the access. -/
theorem test_device_read :
    let x := memRead { State.reset with env := { State.reset.env with replies := [⟨0x42, [3]⟩] } } 0x8021
    x.1 = 0x42 ∧ lineOf x.2 3 = .pending ∧ x.2.env.trace = [.read 2 1] := by decide

/-- Every port of the controller, and the last one there is not; the values at the edges of the ACK clauses. -/
theorem test_witness_ControllerPorts :
    (∀ p ∈ [0, 1, 2, 3, 4, 5, 15], regionOf State.reset.cfg (BitVec.ofNat 16 (0x8000 + p)) = .io ∧
      (BitVec.ofNat 16 (0x8000 + p)).toNat = State.reset.cfg.ioStart.toNat + 16 * State.reset.cfg.intcDev + p) ∧
    (0x00 : Byte).toNat = (0 : Fin 8).val ∧ (0x07 : Byte).toNat = (7 : Fin 8).val ∧ 8 ≤ (0x08 : Byte).toNat ∧
    8 ≤ (0xFF : Byte).toNat := by decide

/-- V9 step 5: `PENDING` with lines 0 and 7 pending. -/
theorem test_pending_port :
    (memRead { State.reset with intc := { State.reset.intc with lines := (idleLines.set 0 .pending).set 7 .pending } }
      0x8001).1 = 0x81 := by decide

theorem test_witness_DmaPorts :
    ∀ p ∈ [0, 1, 2, 3, 4, 5, 6, 7, 8, 15], regionOf State.reset.cfg (BitVec.ofNat 16 (0x8010 + p)) = .io ∧
      (BitVec.ofNat 16 (0x8010 + p)).toNat = State.reset.cfg.ioStart.toNat + 16 * State.reset.cfg.dmaDev + p := by decide

/-- V10 rows 3 to 6: past the end of RAM by one byte, a target in ROM, an empty range, the longest range. -/
theorem test_witness_TransferGuards :
    (let s := dmaSet 2 0x0005 0x0004 0x0200
     s.dma.srcEnd.toNat < s.dma.srcStart.toNat) ∧
    ∀ r ∈ ([(0x0100, 0x0103, 0x7FFD, 4), (0x0100, 0x0103, 0x8100, 4), (0x0000, 0xFFFF, 0x0000, 65536)] :
        List (Word × Word × Word × Nat)),
      let s := dmaSet 2 r.1 r.2.1 r.2.2.1
      s.dma.srcStart.toNat ≤ s.dma.srcEnd.toNat ∧ r.2.2.2 = s.dma.srcEnd.toNat - s.dma.srcStart.toNat + 1 ∧
      ¬ (s.cfg.ramStart.toNat ≤ s.dma.target.toNat ∧ s.dma.target.toNat + r.2.2.2 - 1 ≤ s.cfg.ramEnd.toNat) := by decide

theorem test_transfer_out_of_range :
    (transfer (dmaSet 2 0x0100 0x0103 0x7FFD)).diag = [.dmaOutOfRange 0x7FFD 4] := by decide

/-- V10 row 2: four bytes up to the end of RAM, from a device that answers `3 * a + 1`. -/
def dmaFour : State :=
  { dmaSet 2 0x0100 0x0103 0x7FFC with
    env := { State.reset.env with
             replies := [⟨0, []⟩, ⟨0, []⟩, ⟨0x01, []⟩, ⟨0, []⟩, ⟨0, []⟩, ⟨0x04, []⟩, ⟨0, []⟩, ⟨0, [6]⟩, ⟨0x07, []⟩,
                         ⟨0, []⟩, ⟨0, []⟩, ⟨0x0A, []⟩] } }

theorem test_witness_TransferCopiesDeviceBytes :
    RamOk dmaFour ∧ dmaFour.dma.dev.toNat ∈ dmaFour.cfg.devices ∧
    dmaFour.dma.srcStart.toNat ≤ dmaFour.dma.srcEnd.toNat ∧
    4 = dmaFour.dma.srcEnd.toNat - dmaFour.dma.srcStart.toNat + 1 ∧
    dmaFour.cfg.ramStart.toNat ≤ dmaFour.dma.target.toNat ∧ dmaFour.dma.target.toNat + 4 - 1 ≤ dmaFour.cfg.ramEnd.toNat ∧
    (∀ i, i < 4 → (dmaFour.env.replies[3 * i + 2]?).map PortReply.value =
      some (BitVec.ofNat 8 (3 * (dmaFour.dma.srcStart + BitVec.ofNat 16 i).toNat + 1))) ∧
    (∀ i, i < 4 → ramHas (transfer dmaFour) (dmaFour.dma.target + BitVec.ofNat 16 i) = true) ∧
    dmaFour.ram.order.length + 4 ≤ dmaFour.cfg.ramMaxEntries :=
  ⟨ramOk_empty rfl, by decide, by decide, by decide, by decide, by decide, by decide, by decide, by decide⟩

theorem test_transfer :
    [0x7FFC, 0x7FFD, 0x7FFE, 0x7FFF].map (bankByte (transfer dmaFour)) = [some 0x01, some 0x04, some 0x07, some 0x0A] ∧
    (transfer dmaFour).env.trace.length = 12 ∧ (transfer dmaFour).diag = [] := by
  refine ⟨?_, ?_, ?_⟩ <;> decide

/-- V10 row 9: a device id that is no slot. -/
theorem test_witness_TransferFromEmptySlot :
    let s := dmaSet 0x20 0x0010 0x0010 0x0300
    RamOk s ∧ s.dma.dev.toNat ≠ s.cfg.intcDev ∧ s.dma.dev.toNat ≠ s.cfg.dmaDev ∧ s.dma.dev.toNat ∉ s.cfg.devices ∧
    s.dma.srcStart.toNat ≤ s.dma.srcEnd.toNat ∧ 1 = s.dma.srcEnd.toNat - s.dma.srcStart.toNat + 1 ∧
    s.cfg.ramStart.toNat ≤ s.dma.target.toNat ∧ s.dma.target.toNat + 1 - 1 ≤ s.cfg.ramEnd.toNat ∧
    s.ram.order.length + 1 ≤ s.cfg.ramMaxEntries :=
  ⟨ramOk_empty rfl, by decide, by decide, by decide, by decide, by decide, by decide, by decide, by decide⟩

/-- A full bank whose transfer of one byte to 0x0030 evicts 0x0010. -/
def dmaEvicts : State := { fullBank with dma := { dev := 9, srcStart := 0, srcEnd := 0, target := 0x0030 } }

/-- The addresses on both sides of the target range, with room; one that is evicted, without. -/
theorem test_witness_TransferFrame :
    dmaFour.dma.dev.toNat ≠ dmaFour.cfg.dmaDev ∧ dmaFour.dma.dev.toNat ≠ dmaFour.cfg.intcDev ∧ RamOk dmaFour ∧
    ¬ SelfTriggering dmaFour ∧ dmaFour.ram.order.length + 4 ≤ dmaFour.cfg.ramMaxEntries ∧
    [0x7FFB, 0x8000].all (fun b : Word => !(decide (0x7FFC ≤ b.toNat) && decide (b.toNat < 0x7FFC + 4))) = true ∧
    (RamOk dmaEvicts ∧ ¬ SelfTriggering dmaEvicts ∧ ramHas dmaEvicts 0x0010 = true ∧
      ramHas (transfer dmaEvicts) 0x0010 = false ∧ bankByte (transfer dmaEvicts) 0x0020 = some 0x02) ∧
    lineOf (transfer { dmaFour with intc := { dmaFour.intc with lines := someLines } }) 7 = .servicing :=
  ⟨by decide, by decide, ramOk_empty rfl, by decide, by decide, by decide,
    ⟨ramOk_fullBank, by decide, by decide, by decide, by decide⟩, by decide⟩

/-- The trigger port of an engine that is its own source and whose low address port is its trigger. -/
theorem test_witness_EndlessTransferRefused :
    ¬ SelfTriggering State.reset ∧
    (let s : State := { selfSource 7 1 with sp := 0x8017 }
     regionOf s.cfg 0x8017 = .io ∧ (0x8017 : Word).toNat = s.cfg.ioStart.toNat + 16 * s.cfg.dmaDev + 7 ∧
      s.dma.dev.toNat = s.cfg.dmaDev ∧ s.cfg.dmaSrcAddrLoPort = 7 ∧ s.dma.srcStart.toNat ≤ s.dma.srcEnd.toNat ∧
      s.cfg.ramStart.toNat ≤ s.dma.target.toNat ∧
      s.dma.target.toNat + (s.dma.srcEnd.toNat - s.dma.srcStart.toNat) ≤ s.cfg.ramEnd.toNat ∧ s.sp = 0x8017) := by decide

/-- R233: an address port 7 of a device outside the block is an ordinary port. -/
theorem test_trigger_port_outside :
    (transfer { dmaSet 2 0x0105 0x0105 0x0300 with
      cfg := portsCfg 7 1, env := { State.reset.env with replies := List.replicate 3 ⟨0x42, []⟩ } }).env.trace =
      [.write 2 7 0x05, .write 2 1 0x01, .read 2 2] := by decide

/-- R233, R229: the engine as its own source writes 0x05 to its `DEV` and then to its trigger: a transfer from slot 5, where
there is no device, runs inside this one, which comes to its end. -/
theorem test_nested_transfer :
    (exec (.movMemA 0x8017) (selfSource 0 7) = .next (transfer (selfSource 0 7))) ∧
    (transfer (selfSource 0 7)).dma.dev = 0x05 ∧
    (transfer (selfSource 0 7)).diag = [.unknownPort 5 0 .write, .unknownPort 5 7 .write, .unknownPort 5 2 .read] :=
  ⟨rfl, by decide, by decide⟩

/-- An interrupt entry whose first push is an endless trigger: the poll does not end. -/
theorem test_endless_entry :
    let s : State := { selfSource 7 1 with sp := 0x8017, intc := readyToEnter.intc }
    pollLine s = some 3 ∧ pollEnds s = false := ⟨by decide, by decide +kernel⟩

theorem test_witness_RequestLatchesIdleLine :
    let s : State := { State.reset with intc := { State.reset.intc with lines := someLines } }
    lineOf s 0 = .idle ∧ lineOf s 2 ≠ .idle ∧ lineOf s 7 ≠ .idle ∧ 8 ≤ 8 := by decide

/-- An eligible line; and each reason for which the poll does nothing. -/
theorem test_witness_PollEntersLowestEligibleLine :
    (readyToEnter.run = .running ∧ readyToEnter.intc.ie = true ∧ readyToEnter.inh = false ∧
      (∀ m, lineOf readyToEnter m ≠ .servicing) ∧ lineOf readyToEnter 3 = .pending ∧
      readyToEnter.intc.enable.getLsbD (3 : Fin 8) = true ∧
      ∀ m, m < (3 : Fin 8) → ¬ (lineOf readyToEnter m = .pending ∧ readyToEnter.intc.enable.getLsbD m = true)) ∧
    halted.run = .halted ∧ State.reset.intc.ie = false ∧ inHandler.inh = true ∧
    (∃ m, lineOf { State.reset with intc := { State.reset.intc with lines := someLines } } m = .servicing) ∧
    ∀ n : Fin 8, ¬ (lineOf State.reset n = .pending ∧ State.reset.intc.enable.getLsbD n = true) := by decide

/-- Line 2 masked with every other line enabled and idle (E3); a line in service that is disabled. -/
theorem test_witness_MaskedLineNotDispatched :
    (let s : State := { State.reset with intc := { State.reset.intc with ie := true, enable := 0xFB } }
     s.intc.enable.getLsbD (2 : Fin 8) = false ∧
      ∀ m : Fin 8, m ≠ 2 → ¬ (lineOf s m = .pending ∧ s.intc.enable.getLsbD m = true)) ∧
    (let s : State := { State.reset with intc := { State.reset.intc with lines := someLines } }
     s.intc.enable.getLsbD (7 : Fin 8) = false ∧ lineOf (poll s) 7 = .servicing) := by decide

theorem test_witness_InterruptEntryFrame :
    RamOk readyToEnter ∧ lineOf (interruptEntry readyToEnter 3) 3 = .servicing :=
  ⟨ramOk_empty rfl, by decide⟩

theorem test_witness_InterruptEntryToRam :
    RamOk readyToEnter ∧ (∀ k, k < 4 → regionOf readyToEnter.cfg (readyToEnter.sp - BitVec.ofNat 16 k) = .ram) ∧
    readyToEnter.ram.order.length + 4 ≤ readyToEnter.cfg.ramMaxEntries := ⟨ramOk_empty rfl, by decide, by decide⟩

/-- The handler has changed `A`, `B`, `FLAGS` and acknowledged its line. -/
theorem test_witness_ReturnResumesInterruptedProgram :
    let h : State :=
      { interruptEntry readyToEnter 3 with a := 0x00, b := 0x99, flags := 0x00, pc := 0x0047, intc := State.reset.intc }
    RamOk readyToEnter ∧ FlagsOk readyToEnter ∧
    (∀ k, k < 4 → regionOf readyToEnter.cfg (readyToEnter.sp - BitVec.ofNat 16 k) = .ram) ∧
    readyToEnter.ram.order.length + 4 ≤ readyToEnter.cfg.ramMaxEntries ∧
    h.inh = true ∧ h.sp = (interruptEntry readyToEnter 3).sp ∧
    ∀ k, k < 4 → bankByte h (readyToEnter.sp - BitVec.ofNat 16 k) =
      bankByte (interruptEntry readyToEnter 3) (readyToEnter.sp - BitVec.ofNat 16 k) :=
  ⟨ramOk_empty rfl, by decide, by decide, by decide, by decide, by decide, by decide⟩

theorem test_witness_StepKeepsInvariant_HostKeepsInvariant :
    Inv readyToEnter ∧ Inv fullBank ∧ ∃ t, step readyToEnter = .next t :=
  ⟨⟨⟨rfl, by simp [readyToEnter, State.reset, coldReset]⟩, ramOk_empty rfl, by decide, by decide, by decide⟩,
    ⟨⟨rfl, by simp [fullBank, coldReset]⟩, ramOk_fullBank, by decide, by decide, by decide⟩, _, rfl⟩

theorem test_witness_RunKeepsRomAndLog_LogIsInvisible :
    ∃ t, step State.reset = .next t ∧ Reaches State.reset t :=
  ⟨_, rfl, .step .refl rfl⟩

/-- An instruction of each kind that `FlagWriters`, `RegisterWriters`, `OpcodeStaysInIr` and `EnableAndContextWriters`
tell apart, with a next state. -/
theorem test_witness_Writers :
    (∃ t, exec .add State.reset = .next t) ∧ (∃ t, exec .iret inHandler = .next t ∧ inHandler.inh = true) ∧
    (∃ t, exec .iret State.reset = .next t ∧ State.reset.inh = false) ∧
    (∃ t, exec .pushA State.reset = .next t ∧ t.sp ≠ State.reset.sp) ∧
    (∃ t, step State.reset = .next t ∧ State.reset.run = .running) ∧ (∃ t, step halted = .next t ∧ halted.run = .halted) :=
  ⟨⟨_, rfl⟩, ⟨_, rfl, rfl⟩, ⟨_, rfl, rfl⟩, ⟨_, rfl, by decide⟩, ⟨_, rfl, rfl⟩, ⟨_, rfl, rfl⟩⟩

theorem test_witness_ResetValues : bankByte (coldReset smallCfg) 0x8100 = some 0x00 := by decide

/-- An image with two entries for one ROM address and one entry outside the bank. -/
theorem test_witness_LoadFillsRom :
    Memory.wf State.reset.rom = true ∧ inRom State.reset.cfg 0xFFFF = true ∧ inRom State.reset.cfg 0x8100 = true ∧
    inRom State.reset.cfg 0x80FF = false ∧
    (let im : Image := [⟨"main", 0, [⟨0x0000, 0x11, none⟩, ⟨0x0000, 0x22, none⟩, ⟨0x7F00, 0x33, none⟩]⟩]
     bankByte (load State.reset .rom im 0x8100) 0x8100 = some 0x22 ∧
     (loadRefused State.reset.cfg .rom im 0x8100).map ImageEntry.value = [0x33]) := by decide

end Sys2Proof.Tests
end

section
/-! Which region an address decodes to (20_memory.md R41). `regionOf` asks for ROM first, then for I/O, and leaves the
rest to RAM: the I/O answer is right because the ranges are disjoint, the RAM answer because they also cover the whole
space. -/

namespace Sys2Proof.Machine

theorem inRom_iff (c : Cfg) (a : Word) : inRom c a = true ↔ c.romStart ≤ a ∧ a ≤ c.romEnd := by
  simp only [inRom, Bool.and_eq_true, decide_eq_true_eq]

theorem inIo_iff (c : Cfg) (a : Word) : inIo c a = true ↔ c.ioStart ≤ a ∧ a ≤ c.ioEnd := by
  simp only [inIo, Bool.and_eq_true, decide_eq_true_eq]

theorem inRam_iff (c : Cfg) (a : Word) : inRam c a = true ↔ c.ramStart ≤ a ∧ a ≤ c.ramEnd := by
  simp only [inRam, Bool.and_eq_true, decide_eq_true_eq]

/-- The ROM and I/O ranges of a configuration are disjoint (00_scope.md R2). -/
theorem romEnd_lt_ioStart_or_ioEnd_lt_romStart (c : Cfg) : c.romEnd < c.ioStart ∨ c.ioEnd < c.romStart := by
  have hwf := c.ok
  simp only [CfgData.wf, CfgData.rangesDisjoint, Bool.and_eq_true, Bool.or_eq_true, decide_eq_true_eq] at hwf
  obtain ⟨⟨⟨⟨⟨⟨-, ⟨hRomIo, -⟩, -⟩, -⟩, -⟩, -⟩, -⟩, -⟩ := hwf
  exact hRomIo

theorem inRom_eq_false_of_inIo {c : Cfg} {a : Word} (hio : inIo c a = true) : inRom c a = false := by
  refine Bool.eq_false_iff.2 fun hrom => ?_
  obtain ⟨hIoStart, hIoEnd⟩ := (inIo_iff c a).1 hio
  obtain ⟨hRomStart, hRomEnd⟩ := (inRom_iff c a).1 hrom
  rcases romEnd_lt_ioStart_or_ioEnd_lt_romStart c with hlt | hlt
  · exact absurd (BitVec.le_trans hIoStart hRomEnd) (BitVec.not_le.2 hlt)
  · exact absurd (BitVec.le_trans hRomStart hIoEnd) (BitVec.not_le.2 hlt)

theorem regionOf_eq_rom_iff (c : Cfg) (a : Word) : regionOf c a = .rom ↔ inRom c a = true := by
  unfold regionOf
  split
  case isTrue hrom => simp only [hrom]
  case isFalse hrom => split <;> simp [hrom]

theorem regionOf_eq_io_iff (c : Cfg) (a : Word) : regionOf c a = .io ↔ inIo c a = true := by
  constructor
  · intro h
    unfold regionOf at h
    split at h
    · cases h
    · split at h
      case isTrue hio => exact hio
      case isFalse => cases h
  · intro hio
    simp [regionOf, inRom_eq_false_of_inIo hio, hio]

theorem regionOf_eq_ram_iff (c : Cfg) (a : Word) : regionOf c a = .ram ↔ inRam c a = true :=
  ⟨inRam_of_regionOf, regionOf_of_inRam⟩

/-- Settles O29: each region's test is exactly its range's, by the three lemmas above. -/
theorem regionsPartitionAddresses : Obligations.RegionsPartitionAddresses := fun c a =>
  ⟨(regionOf_eq_rom_iff c a).trans (inRom_iff c a),
    (regionOf_eq_io_iff c a).trans (inIo_iff c a),
    (regionOf_eq_ram_iff c a).trans (inRam_iff c a)⟩

end Sys2Proof.Machine
end

section
/-! What a fetch answers (40_execution_cycle.md R102, R103). `fetch8` advances the `PC` that the bus read leaves behind;
no read changes `PC` (`memRead_effect`), so each fetch is a bus read followed by an advance of the `PC` it started at. -/

namespace Sys2Proof.Machine

theorem fetch8_eq (s : State) :
    fetch8 s = ((memRead s s.pc).1, { (memRead s s.pc).2 with pc := s.pc + 1 }) := by
  simp only [fetch8, (memRead_effect s s.pc).pc]

/-- Settles O7: `Fetch16` is two `Fetch8`, the second one at `PC + 1`. -/
theorem fetch16LowByteFirst : Obligations.Fetch16LowByteFirst := by
  intro s lo hi
  have hlo : fetch8 s = (lo.1, { lo.2 with pc := s.pc + 1 }) := fetch8_eq s
  have hhi : fetch8 { lo.2 with pc := s.pc + 1 } = (hi.1, { hi.2 with pc := s.pc + 1 + 1 }) := fetch8_eq _
  have hpc : s.pc + 1 + 1 = s.pc + 2 := BitVec.add_assoc s.pc 1 1
  refine ⟨?_, concat16_toNat hi.1 lo.1⟩
  simp only [fetch16, hlo, hhi, hpc]

end Sys2Proof.Machine
end

section
/-! Encoding and decoding (30_encoding.md sections 1 to 3). Laws/PerInstr.lean has the length and the operand of each
instruction; here they are gathered over all instructions, and the other direction goes through the mnemonic: an
instruction made from a mnemonic has that mnemonic, and its operand bytes are those the format names. -/

namespace Sys2Proof.Laws

theorem encodedLength : (i : Instr) → EncodedLength.Statement i
  | .nop => EncodedLength.nop
  | .halt => EncodedLength.halt
  | .syscall v => EncodedLength.syscall v
  | .ei => EncodedLength.ei
  | .di => EncodedLength.di
  | .iret => EncodedLength.iret
  | .setSp v => EncodedLength.setSp v
  | .movAImm v => EncodedLength.movAImm v
  | .movBImm v => EncodedLength.movBImm v
  | .movCImm v => EncodedLength.movCImm v
  | .movDImm v => EncodedLength.movDImm v
  | .movAMem v => EncodedLength.movAMem v
  | .movBMem v => EncodedLength.movBMem v
  | .movCMem v => EncodedLength.movCMem v
  | .movDMem v => EncodedLength.movDMem v
  | .movMemA v => EncodedLength.movMemA v
  | .movMemB v => EncodedLength.movMemB v
  | .movMemC v => EncodedLength.movMemC v
  | .movMemD v => EncodedLength.movMemD v
  | .movAB => EncodedLength.movAB
  | .movAC => EncodedLength.movAC
  | .movAD => EncodedLength.movAD
  | .movBA => EncodedLength.movBA
  | .movBC => EncodedLength.movBC
  | .movBD => EncodedLength.movBD
  | .movCA => EncodedLength.movCA
  | .movCB => EncodedLength.movCB
  | .movCD => EncodedLength.movCD
  | .movDA => EncodedLength.movDA
  | .movDB => EncodedLength.movDB
  | .movDC => EncodedLength.movDC
  | .add => EncodedLength.add
  | .sub => EncodedLength.sub
  | .and => EncodedLength.and
  | .or => EncodedLength.or
  | .xor => EncodedLength.xor
  | .addImm v => EncodedLength.addImm v
  | .subImm v => EncodedLength.subImm v
  | .andImm v => EncodedLength.andImm v
  | .orImm v => EncodedLength.orImm v
  | .xorImm v => EncodedLength.xorImm v
  | .incA => EncodedLength.incA
  | .incB => EncodedLength.incB
  | .incC => EncodedLength.incC
  | .incD => EncodedLength.incD
  | .decA => EncodedLength.decA
  | .decB => EncodedLength.decB
  | .decC => EncodedLength.decC
  | .decD => EncodedLength.decD
  | .pushA => EncodedLength.pushA
  | .pushB => EncodedLength.pushB
  | .pushC => EncodedLength.pushC
  | .pushD => EncodedLength.pushD
  | .popA => EncodedLength.popA
  | .popB => EncodedLength.popB
  | .popC => EncodedLength.popC
  | .popD => EncodedLength.popD
  | .jmp v => EncodedLength.jmp v
  | .jz v => EncodedLength.jz v
  | .jnz v => EncodedLength.jnz v

theorem operandRoundTrip : (i : Instr) → OperandRoundTrip.Statement i
  | .nop => OperandRoundTrip.nop
  | .halt => OperandRoundTrip.halt
  | .syscall v => OperandRoundTrip.syscall v
  | .ei => OperandRoundTrip.ei
  | .di => OperandRoundTrip.di
  | .iret => OperandRoundTrip.iret
  | .setSp v => OperandRoundTrip.setSp v
  | .movAImm v => OperandRoundTrip.movAImm v
  | .movBImm v => OperandRoundTrip.movBImm v
  | .movCImm v => OperandRoundTrip.movCImm v
  | .movDImm v => OperandRoundTrip.movDImm v
  | .movAMem v => OperandRoundTrip.movAMem v
  | .movBMem v => OperandRoundTrip.movBMem v
  | .movCMem v => OperandRoundTrip.movCMem v
  | .movDMem v => OperandRoundTrip.movDMem v
  | .movMemA v => OperandRoundTrip.movMemA v
  | .movMemB v => OperandRoundTrip.movMemB v
  | .movMemC v => OperandRoundTrip.movMemC v
  | .movMemD v => OperandRoundTrip.movMemD v
  | .movAB => OperandRoundTrip.movAB
  | .movAC => OperandRoundTrip.movAC
  | .movAD => OperandRoundTrip.movAD
  | .movBA => OperandRoundTrip.movBA
  | .movBC => OperandRoundTrip.movBC
  | .movBD => OperandRoundTrip.movBD
  | .movCA => OperandRoundTrip.movCA
  | .movCB => OperandRoundTrip.movCB
  | .movCD => OperandRoundTrip.movCD
  | .movDA => OperandRoundTrip.movDA
  | .movDB => OperandRoundTrip.movDB
  | .movDC => OperandRoundTrip.movDC
  | .add => OperandRoundTrip.add
  | .sub => OperandRoundTrip.sub
  | .and => OperandRoundTrip.and
  | .or => OperandRoundTrip.or
  | .xor => OperandRoundTrip.xor
  | .addImm v => OperandRoundTrip.addImm v
  | .subImm v => OperandRoundTrip.subImm v
  | .andImm v => OperandRoundTrip.andImm v
  | .orImm v => OperandRoundTrip.orImm v
  | .xorImm v => OperandRoundTrip.xorImm v
  | .incA => OperandRoundTrip.incA
  | .incB => OperandRoundTrip.incB
  | .incC => OperandRoundTrip.incC
  | .incD => OperandRoundTrip.incD
  | .decA => OperandRoundTrip.decA
  | .decB => OperandRoundTrip.decB
  | .decC => OperandRoundTrip.decC
  | .decD => OperandRoundTrip.decD
  | .pushA => OperandRoundTrip.pushA
  | .pushB => OperandRoundTrip.pushB
  | .pushC => OperandRoundTrip.pushC
  | .pushD => OperandRoundTrip.pushD
  | .popA => OperandRoundTrip.popA
  | .popB => OperandRoundTrip.popB
  | .popC => OperandRoundTrip.popC
  | .popD => OperandRoundTrip.popD
  | .jmp v => OperandRoundTrip.jmp v
  | .jz v => OperandRoundTrip.jz v
  | .jnz v => OperandRoundTrip.jnz v

end Sys2Proof.Laws

namespace Sys2Proof

/-- The byte of a mnemonic selects it again. -/
theorem mnemonicOf_byteOf {t : OpcodeMap} (h : t.wf = true) (m : Mnemonic) : t.mnemonicOf (t.byteOf m) = some m :=
  mnemonicOf_of_mem h (byteOf_mem h m)

/-- A byte that selects a mnemonic is that mnemonic's byte: no two rows share a mnemonic. -/
theorem byteOf_of_mnemonicOf {t : OpcodeMap} (h : t.wf = true) {op : Byte} {m : Mnemonic}
    (hm : t.mnemonicOf op = some m) : t.byteOf m = op := by
  obtain ⟨⟨m', b⟩, hfind, rfl⟩ := Option.map_eq_some_iff.1 hm
  have hb : b = op := by simpa using List.find?_some hfind
  have hkeys : (t.map Prod.fst).Nodup := by
    simp only [OpcodeMap.wf, Bool.and_eq_true, decide_eq_true_eq] at h
    exact h.1 ▸ mnemonic_all_nodup
  simp only [OpcodeMap.byteOf, find_key hkeys (List.mem_of_find?_eq_some hfind), Option.map_some, Option.getD_some, hb]

/-- Settles O1: the opcode byte selects the mnemonic, and the operand bytes give the operand back. -/
theorem decodeOfEncode : Obligations.DecodeOfEncode := by
  intro t ht i _ rest
  obtain ⟨w, hoperand, hinstr⟩ := Laws.operandRoundTrip i rest
  obtain ⟨-, -, -, hlength⟩ := Laws.encodedLength i
  have hop := mnemonicOf_byteOf ht i.mnemonic
  refine ⟨?_, hlength t, ?_⟩
  · simp only [encode, List.cons_append, decode, hop, hoperand, hinstr]
  · simp only [lengthOf, hop, Instr.length]

/-! ## From the bytes to the instruction and back -/

/-- The operand bytes of a format with operand value `w` (30_encoding.md R81 to R84). -/
def Format.bytes : Format → Word → List Byte
  | .op, _ => []
  | .opI8, w => [lo8 w]
  | .opI16, w => [lo8 w, hi8 w]

theorem mnemonic_toInstr (m : Mnemonic) (w : Word) : (m.toInstr w).mnemonic = m := by cases m <;> rfl

theorem operandBytes_toInstr (m : Mnemonic) (w : Word) : (m.toInstr w).operandBytes = m.format.bytes w := by
  cases m <;> rfl

/-- The bytes an operand is taken from are the operand's bytes. -/
theorem bytes_of_operand {f : Format} {bs rest : List Byte} {w : Word} (h : f.operand bs = some (w, rest)) :
    f.bytes w ++ rest = bs := by
  match f, bs with
  | .op, bs => cases h; rfl
  | .opI8, [] => cases h
  | .opI8, v :: bs => cases h; simp [Format.bytes]
  | .opI16, [] => cases h
  | .opI16, [_] => cases h
  | .opI16, lo :: hi :: bs => cases h; simp [Format.bytes]

/-- What decodes to an instruction begins with an opcode byte of the map, and the operand of its format follows. -/
theorem decode_instr {t : OpcodeMap} {bs rest : List Byte} {i : Instr} (h : decode t bs = .instr i rest) :
    ∃ op bs' m w, bs = op :: bs' ∧ t.mnemonicOf op = some m ∧ m.format.operand bs' = some (w, rest) ∧
      i = m.toInstr w := by
  cases bs with
  | nil => cases h
  | cons op bs' =>
    simp only [decode] at h
    cases hm : t.mnemonicOf op with
    | none => simp only [hm] at h; cases h
    | some m =>
      simp only [hm] at h
      cases hw : m.format.operand bs' with
      | none => simp only [hw] at h; cases h
      | some p => simp only [hw] at h; cases h; exact ⟨op, bs', m, p.1, rfl, hm, hw, rfl⟩

/-- Settles O2: the opcode byte is the mnemonic's, and the operand bytes are the operand's. -/
theorem encodeOfDecode : Obligations.EncodeOfDecode := by
  intro t ht bs rest i h
  obtain ⟨op, bs', m, w, rfl, hm, hw, rfl⟩ := decode_instr h
  simp only [encode, mnemonic_toInstr, operandBytes_toInstr, byteOf_of_mnemonicOf ht hm, List.cons_append,
    bytes_of_operand hw]

/-! ## The reference opcode map (30_encoding.md sections 3 and 4) -/

/-- Settles O3, by looking up each of the 256 bytes. -/
theorem opcodeByteTellsLength : Obligations.OpcodeByteTellsLength := by
  unfold Obligations.OpcodeByteTellsLength
  decide

/-- Settles O4, by decoding the eleven words. -/
theorem sampleWordsDecode : Obligations.SampleWordsDecode := by
  unfold Obligations.SampleWordsDecode
  decide

end Sys2Proof
end

section
/-! The bus, one equation a region, and the ports, one equation a slot (20_memory.md sections 1, 2 and 4,
50_dma_and_devices.md sections 1 and 2, 60_exceptions.md section 1). -/

namespace Sys2Proof.Machine

/-! ## The bus by region (20_memory.md R42, R43) -/

theorem memRead_rom {s : State} {a : Word} (h : regionOf s.cfg a = .rom) : memRead s a = (romRead s a, s) := by
  simp only [memRead, h]

theorem memRead_ram {s : State} {a : Word} (h : regionOf s.cfg a = .ram) : memRead s a = (ramRead s a, s) := by
  simp only [memRead, h]

theorem memRead_io {s : State} {a : Word} (h : regionOf s.cfg a = .io) :
    memRead s a = ioRead s (ioOffset s.cfg a) := by
  simp only [memRead, h]

theorem memWrite_rom {s : State} {a : Word} (v : Byte) (h : regionOf s.cfg a = .rom) :
    memWrite s a v = addDiag s (.writeToReadOnly a v) := by
  simp only [memWrite, h, romWrite_eq]

theorem memWrite_ram {s : State} {a : Word} (v : Byte) (h : regionOf s.cfg a = .ram) :
    memWrite s a v = ramWrite s a v := by
  simp only [memWrite, h]

theorem memWrite_io {s : State} {a : Word} (v : Byte) (h : regionOf s.cfg a = .io) :
    memWrite s a v = ioWrite s (ioOffset s.cfg a) v := by
  simp only [memWrite, h]

theorem bankByte_ram {s : State} {a : Word} (h : regionOf s.cfg a = .ram) : bankByte s a = some (ramRead s a) := by
  simp only [bankByte, h]

/-- The banks' bytes are a matter of the configuration and the two banks. -/
theorem bankByte_congr {s t : State} (hcfg : t.cfg = s.cfg) (hrom : t.rom = s.rom) {a : Word}
    (hram : ramRead t a = ramRead s a) : bankByte t a = bankByte s a := by
  simp only [bankByte, hcfg, romRead, hrom, hram]

/-! ## The slots (20_memory.md R50 to R52) -/

/-- The two units of the block have slots of their own (00_scope.md R3). -/
theorem intcDev_ne_dmaDev (c : Cfg) : c.dmaDev ≠ c.intcDev := by
  have hwf := c.ok
  simp only [CfgData.wf, CfgData.devicesOk, Bool.and_eq_true, decide_eq_true_eq, List.nodup_cons, List.mem_cons,
    not_or] at hwf
  obtain ⟨⟨⟨⟨-, ⟨⟨hne, -⟩, -⟩, -⟩, -⟩, -⟩, -⟩ := hwf
  exact fun e => hne e.symm

theorem portRead_intc (s : State) (p : Nat) : portRead s s.cfg.intcDev p = intcRead s p := if_pos rfl

theorem portRead_dma (s : State) (p : Nat) : portRead s s.cfg.dmaDev p = dmaRead s p := by
  simp only [portRead, intcDev_ne_dmaDev, if_false, if_true]

theorem portRead_device {s : State} {dev : Nat} (p : Nat) (h : dev ∈ s.cfg.devices) :
    portRead s dev p = deviceAccess s (.read dev p) := by
  obtain ⟨hintc, hdma⟩ := device_ne_own h
  simp [portRead, hintc, hdma, registered, h]

theorem portRead_empty {s : State} {dev : Nat} (p : Nat) (hintc : dev ≠ s.cfg.intcDev) (hdma : dev ≠ s.cfg.dmaDev)
    (h : dev ∉ s.cfg.devices) : portRead s dev p = (0x00, addDiag s (.unknownPort dev p .read)) := by
  simp [portRead, hintc, hdma, registered, h]

theorem plainPortWrite_intc (s : State) (p : Nat) (v : Byte) :
    plainPortWrite s s.cfg.intcDev p v = intcWrite s p v := if_pos rfl

theorem plainPortWrite_dmaDev (s : State) (p : Nat) (v : Byte) :
    plainPortWrite s s.cfg.dmaDev p v = dmaWrite s p v := by
  simp only [plainPortWrite, intcDev_ne_dmaDev, if_false, if_true]

theorem plainPortWrite_device {s : State} {dev : Nat} (p : Nat) (v : Byte) (h : dev ∈ s.cfg.devices) :
    plainPortWrite s dev p v = (deviceAccess s (.write dev p v)).2 := by
  obtain ⟨hintc, hdma⟩ := device_ne_own h
  simp [plainPortWrite, hintc, hdma, registered, h]

theorem plainPortWrite_empty {s : State} {dev : Nat} (p : Nat) (v : Byte) (hintc : dev ≠ s.cfg.intcDev)
    (hdma : dev ≠ s.cfg.dmaDev) (h : dev ∉ s.cfg.devices) :
    plainPortWrite s dev p v = addDiag s (.unknownPort dev p .write) := by
  simp [plainPortWrite, hintc, hdma, registered, h]

theorem portWrite_trigger (s : State) (v : Byte) : portWrite s s.cfg.dmaDev 7 v = transfer s := if_pos ⟨rfl, rfl⟩

theorem portWrite_plain {s : State} {dev p : Nat} (v : Byte) (h : ¬ (dev = s.cfg.dmaDev ∧ p = 7)) :
    portWrite s dev p v = plainPortWrite s dev p v := if_neg h

/-! ## An I/O address by slot and port (20_memory.md R50, R51) -/

theorem slot_port_of_addr {c : Cfg} {a : Word} {dev p : Nat} (ha : a.toNat = c.ioStart.toNat + 16 * dev + p)
    (hp : p < 16) : ioOffset c a / 16 = dev ∧ ioOffset c a % 16 = p := by
  unfold ioOffset
  omega

section
variable {s : State} {a : Word} {dev p : Nat} (hio : regionOf s.cfg a = .io)
  (ha : a.toNat = s.cfg.ioStart.toNat + 16 * dev + p) (hp : p < 16)
include hio ha hp

theorem memRead_port : memRead s a = portRead s dev p := by
  obtain ⟨hdev, hport⟩ := slot_port_of_addr ha hp
  rw [memRead_io hio, ioRead, hdev, hport]

theorem memWrite_port (v : Byte) : memWrite s a v = portWrite s dev p v := by
  obtain ⟨hdev, hport⟩ := slot_port_of_addr ha hp
  rw [memWrite_io v hio, ioWrite, hdev, hport]

end

/-- Settles O30: the equations by region, and what any read can do. -/
theorem busReadByRegion : Obligations.BusReadByRegion := fun s a =>
  have h := memRead_effect s a
  ⟨memRead_rom, memRead_ram, memRead_io, h.eq, h.diag, h.raised⟩

/-- Settles O31: the equations by region, the trigger port's among them, and what any write can do. -/
theorem busWriteByRegion : Obligations.BusWriteByRegion := by
  intro s a v
  have h := memWrite_effect s a v
  refine ⟨memWrite_rom v, memWrite_ram v, memWrite_io v, fun hio ha => ?_, h.eq, h.ie, h.diag, h.ramOk, h.lines⟩
  rw [memWrite_port hio ha (by omega), portWrite_trigger]

/-- Settles O34: neither unit of the block and no device outside it has the slot. -/
theorem unregisteredSlotAccess : Obligations.UnregisteredSlotAccess := by
  intro s a hio off hintc hdma hdev
  refine ⟨(memRead_io hio).trans (portRead_empty _ hintc hdma hdev), fun v => ?_⟩
  calc memWrite s a v = portWrite s (off / 16) (off % 16) v := memWrite_io v hio
    _ = plainPortWrite s (off / 16) (off % 16) v := portWrite_plain v fun h => hdma h.1
    _ = _ := plainPortWrite_empty _ v hintc hdma hdev

/-! ## Devices outside the block (50_dma_and_devices.md R222) -/

theorem memRead_device {s : State} {a : Word} (hio : regionOf s.cfg a = .io)
    (hdev : ioOffset s.cfg a / 16 ∈ s.cfg.devices) :
    memRead s a = deviceAccess s (.read (ioOffset s.cfg a / 16) (ioOffset s.cfg a % 16)) :=
  (memRead_io hio).trans (portRead_device _ hdev)

theorem memWrite_device {s : State} {a : Word} (v : Byte) (hio : regionOf s.cfg a = .io)
    (hdev : ioOffset s.cfg a / 16 ∈ s.cfg.devices) :
    memWrite s a v = (deviceAccess s (.write (ioOffset s.cfg a / 16) (ioOffset s.cfg a % 16) v)).2 :=
  (memWrite_io v hio).trans <|
    (portWrite_plain v fun h => (device_ne_own hdev).2 h.1).trans (plainPortWrite_device _ v hdev)

theorem environmentReply_listed {s : State} {r : PortReply} {rs : List PortReply} (e : DeviceEvent)
    (h : s.env.replies = r :: rs) : environmentReply s e = r := by
  simp only [environmentReply, h]

theorem environmentReply_free {s : State} (e : DeviceEvent) (h : s.env.replies = []) :
    environmentReply s e = Config.portReply (s.env.trace ++ [e]) := by
  simp only [environmentReply, h]

theorem deviceAccess_of_reply {s : State} {e : DeviceEvent} {r : PortReply} (h : environmentReply s e = r) :
    deviceAccess s e =
      (r.value, requestAll
        { s with env := { s.env with replies := s.env.replies.tail, trace := s.env.trace ++ [e] } } r.requests) := by
  rw [← h]
  rfl

/-- Settles O35: the access is `deviceAccess`, whose answer is the listed one or the free one. -/
theorem outsideDeviceAccess : Obligations.OutsideDeviceAccess := by
  intro s a hio off hdev after rd wr
  have hread {r : PortReply} (hr : environmentReply s rd = r) :
      memRead s a = (r.value, requestAll (after rd) r.requests) :=
    (memRead_device hio hdev).trans (deviceAccess_of_reply hr)
  have hwrite {r : PortReply} (v : Byte) (hr : environmentReply s (wr v) = r) :
      memWrite s a v = requestAll (after (wr v)) r.requests :=
    (memWrite_device v hio hdev).trans (congrArg Prod.snd (deviceAccess_of_reply hr))
  exact ⟨fun r rs hr => ⟨hread (environmentReply_listed rd hr), fun v => hwrite v (environmentReply_listed _ hr)⟩,
    fun hr => ⟨hread (environmentReply_free rd hr), fun v => hwrite v (environmentReply_free _ hr)⟩⟩

/-! ## Requests (60_exceptions.md R252, R253) -/

theorem requestInterrupt_of_idle {s : State} {n : Fin 8} (h : lineOf s n = .idle) :
    requestInterrupt s n.val = setLine s n .pending := by
  simp only [requestInterrupt, n.isLt, dite_true, h]

theorem requestInterrupt_of_not_idle {s : State} {n : Fin 8} (h : lineOf s n ≠ .idle) :
    requestInterrupt s n.val = s := by
  rcases requestInterrupt_effect s n.val with hs | ⟨_, hidle, -⟩
  · exact hs
  · exact absurd hidle h

theorem requestInterrupt_no_line {s : State} {n : Nat} (h : 8 ≤ n) : requestInterrupt s n = s :=
  dif_neg (Nat.not_lt.2 h)

/-- Settles O43. -/
theorem requestLatchesIdleLine : Obligations.RequestLatchesIdleLine := fun _ =>
  ⟨fun _ => requestInterrupt_of_idle, fun _ => requestInterrupt_of_not_idle, fun _ => requestInterrupt_no_line⟩

/-! ## The controller's ports (60_exceptions.md R259) -/

theorem intcRead_unknown (s : State) {p : Nat} (h : 5 ≤ p) :
    intcRead s p = (0x00, addDiag s (.unknownPort s.cfg.intcDev p .read)) := by
  match p, h with
  | _ + 5, _ => rfl

theorem intcWrite_unknown (s : State) (v : Byte) {p : Nat} (h : 5 ≤ p) :
    intcWrite s p v = addDiag s (.unknownPort s.cfg.intcDev p .write) := by
  match p, h with
  | _ + 5, _ => rfl

/-- Eight bits put together, the last one lowest. -/
theorem getLsbD_append_eight : ∀ (b7 b6 b5 b4 b3 b2 b1 b0 : Bool) (n : Fin 8),
    (BitVec.ofBool b7 ++ BitVec.ofBool b6 ++ BitVec.ofBool b5 ++ BitVec.ofBool b4 ++ BitVec.ofBool b3 ++
      BitVec.ofBool b2 ++ BitVec.ofBool b1 ++ BitVec.ofBool b0).getLsbD n = #v[b0, b1, b2, b3, b4, b5, b6, b7][n] := by
  decide

theorem pendingByte_bit (s : State) (n : Fin 8) : (pendingByte s).getLsbD n = true ↔ lineOf s n = .pending := by
  have hbit : (pendingByte s).getLsbD n = (lineOf s n == .pending) := by
    refine (getLsbD_append_eight _ _ _ _ _ _ _ _ n).trans ?_
    fin_cases n <;> rfl
  rw [hbit, beq_iff_eq]

theorem acknowledge_line (s : State) {v : Byte} {n : Fin 8} (h : v.toNat = n.val) :
    acknowledge s v = setLine s n .idle := by
  have hn : n = ⟨v.toNat, h ▸ n.isLt⟩ := Fin.ext h.symm
  rw [hn]
  exact dif_pos _

theorem acknowledge_no_line (s : State) {v : Byte} (h : 8 ≤ v.toNat) : acknowledge s v = s :=
  dif_neg (Nat.not_lt.2 h)

/-- Settles O36: the slot is the controller's, and there each port has its own equation. -/
theorem controllerPorts : Obligations.ControllerPorts := by
  intro s a p hio ha
  have hread (hp : p < 16) : memRead s a = intcRead s p := (memRead_port hio ha hp).trans (portRead_intc s p)
  have hwrite (hp : p < 16) (v : Byte) : memWrite s a v = intcWrite s p v :=
    (memWrite_port hio ha hp v).trans <|
      (portWrite_plain v fun h => intcDev_ne_dmaDev s.cfg h.1.symm).trans (plainPortWrite_intc s p v)
  refine ⟨?_, ?_, ?_, ?_, ?_, ?_⟩
  · rintro rfl
    exact ⟨hread (by omega), hwrite (by omega)⟩
  · rintro rfl
    exact ⟨⟨pendingByte s, hread (by omega), pendingByte_bit s⟩, hwrite (by omega)⟩
  · rintro rfl
    refine ⟨hread (by omega), fun v n hv => ?_, fun v hv => ?_⟩
    · exact (hwrite (by omega) v).trans (acknowledge_line s hv)
    · exact (hwrite (by omega) v).trans (acknowledge_no_line s hv)
  · rintro rfl
    exact ⟨hread (by omega), hwrite (by omega)⟩
  · rintro rfl
    exact ⟨hread (by omega), hwrite (by omega)⟩
  · intro h5 hp
    exact ⟨(hread hp).trans (intcRead_unknown s h5), fun v => (hwrite hp v).trans (intcWrite_unknown s v h5)⟩

/-! ## The DMA engine's ports (50_dma_and_devices.md R225 to R229) -/

theorem dmaRead_unknown (s : State) {p : Nat} (h : 8 ≤ p) :
    dmaRead s p = (0x00, addDiag s (.unknownPort s.cfg.dmaDev p .read)) := by
  match p, h with
  | _ + 8, _ => rfl

theorem dmaWrite_unknown (s : State) (v : Byte) {p : Nat} (h : 8 ≤ p) :
    dmaWrite s p v = addDiag s (.unknownPort s.cfg.dmaDev p .write) := by
  match p, h with
  | _ + 8, _ => rfl

/-- Settles O37: the slot is the engine's, and there each port has its own equation; port 7 is the trigger. -/
theorem dmaPorts : Obligations.DmaPorts := by
  intro s a p hio ha
  have hread (hp : p < 16) : memRead s a = dmaRead s p := (memRead_port hio ha hp).trans (portRead_dma s p)
  have hwrite (hp : p < 16) (h7 : p ≠ 7) (v : Byte) : memWrite s a v = dmaWrite s p v :=
    (memWrite_port hio ha hp v).trans <|
      (portWrite_plain v fun h => h7 h.2).trans (plainPortWrite_dmaDev s p v)
  have hport (hp : p < 16) (h7 : p ≠ 7) : memRead s a = dmaRead s p ∧ ∀ v, memWrite s a v = dmaWrite s p v :=
    ⟨hread hp, hwrite hp h7⟩
  refine ⟨?_, ?_, ?_, ?_, ?_, ?_, ?_, ?_, ?_⟩
  · rintro rfl; exact hport (by omega) (by omega)
  · rintro rfl; exact hport (by omega) (by omega)
  · rintro rfl; exact hport (by omega) (by omega)
  · rintro rfl; exact hport (by omega) (by omega)
  · rintro rfl; exact hport (by omega) (by omega)
  · rintro rfl; exact hport (by omega) (by omega)
  · rintro rfl; exact hport (by omega) (by omega)
  · rintro rfl
    exact ⟨hread (by omega), fun v => (memWrite_port hio ha (by omega) v).trans (portWrite_trigger s v)⟩
  · intro h8 hp
    exact ⟨(hread hp).trans (dmaRead_unknown s h8),
      fun v => (hwrite hp (by omega) v).trans (dmaWrite_unknown s v h8)⟩

end Sys2Proof.Machine
end

section
/-! Stores to the Ram bank (20_memory.md section 3). Laws/Memory.lean has the three cases of a store: the address has an
entry, it has none and there is room, or the bank is full. -/

namespace Sys2Proof.Machine

/-- A store to the address evicts nothing: it has an entry, or the bank has room for one. -/
abbrev HasRoom (s : State) (a : Word) : Prop := ramHas s a = true ∨ s.ram.order.length < s.cfg.ramMaxEntries

theorem ramHas_iff (s : State) (a : Word) : ramHas s a = true ↔ a ∈ s.ram.order := by simp [ramHas]

theorem ramHas_eq_false_iff (s : State) (a : Word) : ramHas s a = false ↔ a ∉ s.ram.order := by simp [ramHas]

@[simp] theorem ramWrite_cfg (s : State) (a : Word) (v : Byte) : (ramWrite s a v).cfg = s.cfg := by
  obtain ⟨r, ds, h⟩ := ramWrite_effect s a v
  rw [h]

@[simp] theorem ramWrite_rom (s : State) (a : Word) (v : Byte) : (ramWrite s a v).rom = s.rom := by
  obtain ⟨r, ds, h⟩ := ramWrite_effect s a v
  rw [h]

@[simp] theorem ramWrite_env (s : State) (a : Word) (v : Byte) : (ramWrite s a v).env = s.env := by
  obtain ⟨r, ds, h⟩ := ramWrite_effect s a v
  rw [h]

/-- A store to RAM, written out: the Ram bank and `DIAG`, and nothing else. -/
theorem ramWrite_eq (s : State) (a : Word) (v : Byte) :
    ramWrite s a v = { s with ram := (ramWrite s a v).ram, diag := (ramWrite s a v).diag } := by
  obtain ⟨r, ds, h⟩ := ramWrite_effect s a v
  rw [h]

theorem ramWrite_diag_of_room {s : State} {a : Word} (v : Byte) (h : HasRoom s a) :
    (ramWrite s a v).diag = s.diag := by
  by_cases hp : ramHas s a = true
  · rw [ramWrite_present v hp]
  · rw [ramWrite_absent_room v (Bool.eq_false_iff.2 hp) (h.resolve_left hp)]

/-- With room in the bank a store to RAM is seen at its address and nowhere else. -/
theorem ramRead_ramWrite_of_room {s : State} {a : Word} (v : Byte) (hw : Memory.wf s.ram.cells = true)
    (h : HasRoom s a) (b : Word) : ramRead (ramWrite s a v) b = if b = a then v else ramRead s b := by
  by_cases hb : b = a
  · rw [if_pos hb, hb, ramRead_ramWrite_self hw]
  · rw [if_neg hb, ramRead_ramWrite_other v hb h]

theorem bankByte_ramWrite_other {s : State} {a b : Word} (v : Byte) (hb : b ≠ a) (h : HasRoom s a) :
    bankByte (ramWrite s a v) b = bankByte s b :=
  bankByte_congr (ramWrite_cfg s a v) (ramWrite_rom s a v) (ramRead_ramWrite_other v hb h)

/-- In a full bank the oldest entry's address reads as unlisted after the store, every other one as with room. -/
theorem ramRead_ramWrite_of_full {s : State} {a e : Word} {es : List Word} (v : Byte)
    (hw : Memory.wf s.ram.cells = true) (ha : a ∉ s.ram.order) (horder : s.ram.order = e :: es) (hfull : s.ram.order.length = s.cfg.ramMaxEntries)
    (b : Word) : ramRead (ramWrite s a v) b = if b = a then v else if b = e then 0x00 else ramRead s b := by
  have hne {x y : Word} (h : x ≠ y) : x.toNat ≠ y.toNat := fun hn => h (BitVec.eq_of_toNat_eq hn)
  by_cases hba : b = a
  · rw [if_pos hba, hba, ramRead_ramWrite_self hw]
  · rw [if_neg hba, ramWrite_absent_full v ((ramHas_eq_false_iff s a).2 ha) horder hfull]
    by_cases hbe : b = e
    · rw [if_pos hbe, hbe]
      exact read_write_self (wf_write hw _ _) _ _
    · rw [if_neg hbe]
      exact (read_write_other _ _ (hne hbe)).trans (read_write_other _ _ (hne hba))

/-- Settles O33: the three cases of a store. -/
theorem ramInsertAndEvict : Obligations.RamInsertAndEvict := by
  intro s a v hok ha t
  have hw : Memory.wf s.ram.cells = true := hok.1
  refine ⟨ramOk_ramWrite v ha hok, (ramHas_iff t a).1 (ramHas_ramWrite_self s a v), fun hin => ?_, fun hout hroom => ?_,
    fun e es hout horder hfull => ?_⟩
  · have hp : ramHas s a = true := (ramHas_iff s a).2 hin
    refine ⟨?_, ramWrite_diag_of_room v (.inl hp), ramRead_ramWrite_of_room v hw (.inl hp)⟩
    change (ramWrite s a v).ram.order = _
    rw [ramWrite_present v hp]
  · refine ⟨?_, ramWrite_diag_of_room v (.inr hroom), ramRead_ramWrite_of_room v hw (.inr hroom)⟩
    change (ramWrite s a v).ram.order = _
    rw [ramWrite_absent_room v ((ramHas_eq_false_iff s a).2 hout) hroom]
  · have ht : t = _ := ramWrite_absent_full v ((ramHas_eq_false_iff s a).2 hout) horder hfull
    exact ⟨congrArg (fun u : State => u.ram.order) ht, congrArg State.diag ht,
      ramRead_ramWrite_of_full v hw hout horder hfull⟩

end Sys2Proof.Machine
end

section
/-! The stores and the pushes, each family as one instruction with a register (41_data_movement.md section 3,
44_stack.md section 3). -/

namespace Sys2Proof.Machine

/-- `MOV_MEM_r` (R128 to R131). -/
def storeInstr : Reg → Word → Instr
  | .A => .movMemA
  | .B => .movMemB
  | .C => .movMemC
  | .D => .movMemD

/-- `PUSH_r` (R190 to R193). -/
def pushInstr : Reg → Instr
  | .A => .pushA
  | .B => .pushB
  | .C => .pushC
  | .D => .pushD

theorem exec_storeInstr (r : Reg) (a : Word) (s : State) :
    exec (storeInstr r a) s = nextIf (writeEnds s a) (memWrite s a (getReg s r)) := by cases r <;> rfl

theorem exec_pushInstr (r : Reg) (s : State) :
    exec (pushInstr r) s = nextIf (writeEnds s s.sp) { memWrite s s.sp (getReg s r) with sp := s.sp - 1 } := by
  rw [← push8_eq]
  cases r <;> rfl

theorem storeInstr_of_mem {a : Word} {i : Instr}
    (h : i ∈ [Instr.movMemA a, .movMemB a, .movMemC a, .movMemD a]) : ∃ r, i = storeInstr r a := by
  simp only [List.mem_cons, List.not_mem_nil, or_false] at h
  rcases h with rfl | rfl | rfl | rfl
  exacts [⟨.A, rfl⟩, ⟨.B, rfl⟩, ⟨.C, rfl⟩, ⟨.D, rfl⟩]

theorem pushInstr_of_mem {i : Instr} (h : i ∈ [Instr.pushA, .pushB, .pushC, .pushD]) : ∃ r, i = pushInstr r := by
  simp only [List.mem_cons, List.not_mem_nil, or_false] at h
  rcases h with rfl | rfl | rfl | rfl
  exacts [⟨.A, rfl⟩, ⟨.B, rfl⟩, ⟨.C, rfl⟩, ⟨.D, rfl⟩]

theorem storePair_of_mem {a : Word} {s : State} {p : Instr × Byte}
    (h : p ∈ [(Instr.movMemA a, s.a), (Instr.movMemB a, s.b), (Instr.movMemC a, s.c), (Instr.movMemD a, s.d)]) :
    ∃ r, p = (storeInstr r a, getReg s r) := by
  simp only [List.mem_cons, List.not_mem_nil, or_false] at h
  rcases h with rfl | rfl | rfl | rfl
  exacts [⟨.A, rfl⟩, ⟨.B, rfl⟩, ⟨.C, rfl⟩, ⟨.D, rfl⟩]

theorem pushPair_of_mem {s : State} {p : Instr × Byte}
    (h : p ∈ [(Instr.pushA, s.a), (Instr.pushB, s.b), (Instr.pushC, s.c), (Instr.pushD, s.d)]) :
    ∃ r, p = (pushInstr r, getReg s r) := by
  simp only [List.mem_cons, List.not_mem_nil, or_false] at h
  rcases h with rfl | rfl | rfl | rfl
  exacts [⟨.A, rfl⟩, ⟨.B, rfl⟩, ⟨.C, rfl⟩, ⟨.D, rfl⟩]

theorem exec_storeInstr_of_ends {a : Word} {s : State} (r : Reg) (h : writeEnds s a = true) :
    exec (storeInstr r a) s = .next (memWrite s a (getReg s r)) := by rw [exec_storeInstr, h, nextIf_true]

theorem exec_storeInstr_refused {a : Word} {s : State} (r : Reg) (h : writeEnds s a = false) :
    exec (storeInstr r a) s = .refused .endlessTransfer := by
  rw [exec_storeInstr, h]
  rfl

theorem exec_pushInstr_of_ends {s : State} (r : Reg) (h : writeEnds s s.sp = true) :
    exec (pushInstr r) s = .next { memWrite s s.sp (getReg s r) with sp := s.sp - 1 } := by
  rw [exec_pushInstr, h, nextIf_true]

theorem exec_pushInstr_refused {s : State} (r : Reg) (h : writeEnds s s.sp = false) :
    exec (pushInstr r) s = .refused .endlessTransfer := by
  rw [exec_pushInstr, h]
  rfl

/-- A write ends in a bank, and everywhere if the transfer it may trigger cannot trigger itself. -/
theorem writeEnds_of_plain_or_bank {s : State} {a : Word} (h : ¬ SelfTriggering s ∨ regionOf s.cfg a ≠ .io) :
    writeEnds s a = true := h.elim (writeEnds_of_plain a) writeEnds_bank

theorem writeEnds_ram {s : State} {a : Word} (h : regionOf s.cfg a = .ram) : writeEnds s a = true :=
  writeEnds_bank (by simp [h])

theorem writeEnds_rom {s : State} {a : Word} (h : regionOf s.cfg a = .rom) : writeEnds s a = true :=
  writeEnds_bank (by simp [h])

/-- Settles O15. -/
theorem storeResult : Obligations.StoreResult := by
  intro a s
  refine ⟨fun h => ?_, fun h i hi => ?_, rfl, writeEnds_of_plain_or_bank⟩
  · have hr (r : Reg) := exec_storeInstr_of_ends (a := a) (s := s) r h
    exact ⟨hr .A, hr .B, hr .C, hr .D⟩
  · obtain ⟨r, rfl⟩ := storeInstr_of_mem hi
    exact exec_storeInstr_refused r h

/-- Settles O22. -/
theorem pushResult : Obligations.PushResult := by
  refine ⟨fun _ _ => rfl, fun s => ⟨fun h => ?_, fun h i hi => ?_, writeEnds_of_plain_or_bank⟩⟩
  · have hr (r : Reg) := exec_pushInstr_of_ends (s := s) r h
    exact ⟨hr .A, hr .B, hr .C, hr .D⟩
  · obtain ⟨r, rfl⟩ := pushInstr_of_mem hi
    exact exec_pushInstr_refused r h

/-- Settles O16: the store is one bus write, and that is a store to the Ram bank. -/
theorem storeToRamFrame : Obligations.StoreToRamFrame := by
  intro a s p hp hw ha
  obtain ⟨r, rfl⟩ := storePair_of_mem hp
  simp only [absoluteAddr] at ha ⊢
  refine ⟨_, exec_storeInstr_of_ends r (writeEnds_ram ha), ?_, bankByte_memWrite_self _ hw ha, ?_⟩
  · rw [memWrite_ram _ ha]
    exact ramWrite_eq s a _
  · intro hroom
    rw [memWrite_ram _ ha]
    exact ⟨ramWrite_diag_of_room _ hroom, fun b hb => bankByte_ramWrite_other _ hb hroom⟩

/-- Settles O23: the push is one bus write at the old `SP`, and that is a store to the Ram bank. -/
theorem pushToRamFrame : Obligations.PushToRamFrame := by
  intro s p hp hw hsp
  obtain ⟨r, rfl⟩ := pushPair_of_mem hp
  refine ⟨_, exec_pushInstr_of_ends r (writeEnds_ram hsp), ?_, bankByte_memWrite_self _ hw hsp, ?_⟩
  · rw [memWrite_ram _ hsp, ramWrite_eq]
  · intro hroom
    rw [memWrite_ram _ hsp]
    exact ⟨ramWrite_diag_of_room _ hroom, fun b hb => bankByte_ramWrite_other _ hb hroom⟩

theorem fetch8_at {s : State} {a : Word} {v : Byte} (hpc : s.pc = a) (h : bankByte s a = some v) :
    fetch8 s = (v, { s with pc := a + 1 }) := by
  subst hpc
  exact fetch8_bank h

/-- Settles O12: the write leaves `PC`, so the fetch reads the byte just written. -/
theorem storeSeenByNextFetch : Obligations.StoreSeenByNextFetch := by
  intro s hw hpc
  refine ⟨_, exec_storeInstr_of_ends .A (writeEnds_ram hpc), ?_⟩
  have hstays : (memWrite s s.pc (getReg s .A)).pc = s.pc := (memWrite_effect s s.pc _).pc
  have hbyte := bankByte_memWrite_self (getReg s .A) hw hpc
  exact fetch8_at hstays hbyte

/-- A pop after a push into RAM gives the byte back. -/
theorem pop8_push8 {s : State} (v : Byte) (hw : Memory.wf s.ram.cells = true) (hsp : regionOf s.cfg s.sp = .ram) :
    pop8 (push8 s v) = (v, { push8 s v with sp := s.sp }) := by
  have hback : (push8 s v).sp + 1 = s.sp := by rw [push8_sp, BitVec.sub_add_cancel]
  have hbyte : bankByte (push8 s v) s.sp = some v := by
    rw [push8_eq]
    exact bankByte_memWrite_self v hw hsp
  rw [pop8_bank (hback.symm ▸ hbyte), hback]

/-- Settles O25. -/
theorem popAfterPush : Obligations.PopAfterPush := by
  intro s v hw hsp
  refine ⟨pop8_push8 v hw hsp, push8 s s.c, popInto .D (push8 s s.c), ?_, rfl, ?_⟩
  · exact (exec_pushInstr_of_ends .C (writeEnds_ram hsp)).trans (congrArg _ (push8_eq s s.c).symm)
  · rw [popInto, pop8_push8 s.c hw hsp]
    rfl

/-- Settles O32: the write is one diagnostic. -/
theorem romWriteRefused : Obligations.RomWriteRefused := by
  refine ⟨fun s a v ha => ⟨memWrite_rom v ha, ?_⟩, fun s a ha p hp => ?_, fun s hsp p hp => ?_⟩
  · rw [memWrite_rom v ha, memRead_rom ha, memRead_rom (s := addDiag s _) ha]
    rfl
  · obtain ⟨r, rfl⟩ := storePair_of_mem hp
    exact (exec_storeInstr_of_ends r (writeEnds_rom ha)).trans (congrArg _ (memWrite_rom _ ha))
  · obtain ⟨r, rfl⟩ := pushPair_of_mem hp
    rw [exec_pushInstr_of_ends r (writeEnds_rom hsp), memWrite_rom _ hsp]
    rfl

end Sys2Proof.Machine
end

section
/-! What each instruction answers, written out as a state (41_data_movement.md, 42_arithmetic_logic.md,
43_control_flow.md, 44_stack.md section 4, 45_interrupt_and_system.md). Each family goes through one equation of its
operand form; `loadFlags (setReg s r v) f` is the state `s` with `v` in the register and `f` in `FLAGS`. -/

namespace Sys2Proof.Machine

/-- The FLAGS byte of a result byte and a carry, as the statements write it (42_arithmetic_logic.md R168). -/
theorem writeResult_eq (s : State) (r : Reg) (x : AluResult) :
    writeResult s r x =
      loadFlags (setReg s r x.value)
        ((if x.value = 0 then 0x02 else 0x00) ||| (if x.carry = true then 0x01 else 0x00)) := by
  simp only [writeResult, setFlags, flagsByte, beq_iff_eq]

/-! ## Moves and loads -/

theorem flagsByte_of_no_carry (z : Bool) : flagsByte z false = if z = true then 0x02 else 0x00 := by
  cases z <;> rfl

/-- A result that sets no carry has its flags from the byte alone. -/
theorem writeResult_of_no_carry (s : State) (r : Reg) {x : AluResult} (h : x.carry = false) :
    writeResult s r x = loadFlags (setReg s r x.value) (if x.value = 0 then 0x02 else 0x00) := by
  simp only [writeResult, setFlags, h, flagsByte_of_no_carry, beq_iff_eq]

theorem moveInto_eq (r : Reg) (v : Byte) (s : State) :
    moveInto r v s = loadFlags (setReg s r v) (if v = 0 then 0x02 else 0x00) :=
  writeResult_of_no_carry s r rfl

/-- Settles O13: every one of the sixteen is a move of a byte. -/
theorem moveResult : Obligations.MoveResult := by
  intro v s f
  have hmove (r : Reg) (x : Byte) :
      (.next (moveInto r x s) : Host.Outcome State Fault Refusal) = .next (loadFlags (setReg s r x) (f x)) :=
    congrArg _ (moveInto_eq r x s)
  exact ⟨hmove .A v, hmove .B v, hmove .C v, hmove .D v, hmove .A s.b, hmove .A s.c, hmove .A s.d, hmove .B s.a,
    hmove .B s.c, hmove .B s.d, hmove .C s.a, hmove .C s.b, hmove .C s.d, hmove .D s.a, hmove .D s.b, hmove .D s.c⟩

/-- Settles O14: a load is the move of the byte read, in the state after the read. -/
theorem loadResult : Obligations.LoadResult := by
  intro a s x f
  have hload (r : Reg) :
      (.next (loadInto r a s) : Host.Outcome State Fault Refusal) = .next (loadFlags (setReg x.2 r x.1) f) :=
    congrArg _ (moveInto_eq r x.1 x.2)
  exact ⟨⟨hload .A, hload .B, hload .C, hload .D⟩, fun v => memRead_bank⟩

/-! ## Arithmetic and logic -/

theorem byte_ofNat_eq_zero_iff (n : Nat) : BitVec.ofNat 8 n = 0 ↔ n % 256 = 0 := by
  simp [← BitVec.toNat_inj]

theorem byte_ofNat_mod (n : Nat) : BitVec.ofNat 8 (n % 256) = BitVec.ofNat 8 n := by
  simp [← BitVec.toNat_inj]

theorem accumulate_add (s : State) (y : Byte) :
    accumulate aluAdd y s =
      { s with
        a := BitVec.ofNat 8 ((s.a.toNat + y.toNat) % 256)
        flags := (if (s.a.toNat + y.toNat) % 256 = 0 then 0x02 else 0x00) |||
          (if 255 < s.a.toNat + y.toNat then 0x01 else 0x00) } := by
  rw [accumulate, writeResult_eq]
  simp only [aluAdd, byte_ofNat_eq_zero_iff, byte_ofNat_mod, decide_eq_true_eq]
  rfl

/-- Settles O17. -/
theorem addResult : Obligations.AddResult := fun s =>
  ⟨congrArg _ (accumulate_add s s.b), fun v => congrArg _ (accumulate_add s v)⟩

/-- A byte difference, from the signed to the unsigned side. -/
theorem byte_ofInt_sub (x y : Byte) :
    BitVec.ofInt 8 ((x.toNat : Int) - y.toNat) = BitVec.ofNat 8 ((x.toNat + 256 - y.toNat) % 256) := by
  have hx := x.isLt
  have hy := y.isLt
  apply BitVec.eq_of_toNat_eq
  simp only [BitVec.toNat_ofInt, BitVec.toNat_ofNat]
  omega

theorem accumulate_sub (s : State) (y : Byte) :
    accumulate aluSub y s =
      { s with
        a := BitVec.ofNat 8 ((s.a.toNat + 256 - y.toNat) % 256)
        flags := (if (s.a.toNat + 256 - y.toNat) % 256 = 0 then 0x02 else 0x00) |||
          (if s.a.toNat < y.toNat then 0x01 else 0x00) } := by
  rw [accumulate, writeResult_eq]
  simp only [aluSub, byte_ofInt_sub, byte_ofNat_eq_zero_iff, Nat.mod_mod, decide_eq_true_eq]
  rfl

/-- Settles O18. -/
theorem subResult : Obligations.SubResult := fun s =>
  ⟨congrArg _ (accumulate_sub s s.b), fun v => congrArg _ (accumulate_sub s v)⟩

/-- Settles O19: none of the three operations sets the carry. -/
theorem logicResult : Obligations.LogicResult := by
  intro s result
  have hand (y : Byte) : accumulate aluAnd y s = result (s.a &&& y) := writeResult_of_no_carry s .A rfl
  have hor (y : Byte) : accumulate aluOr y s = result (s.a ||| y) := writeResult_of_no_carry s .A rfl
  have hxor (y : Byte) : accumulate aluXor y s = result (s.a ^^^ y) := writeResult_of_no_carry s .A rfl
  exact ⟨congrArg _ (hand s.b), congrArg _ (hor s.b), congrArg _ (hxor s.b), fun v =>
    ⟨congrArg _ (hand v), congrArg _ (hor v), congrArg _ (hxor v)⟩⟩

theorem flags_increment : ∀ x : Byte,
    flagsByte ((aluAdd x 1).value == 0) (aluAdd x 1).carry = if x = 0xFF then 0x03 else 0x00 := by decide

theorem flags_decrement : ∀ x : Byte,
    flagsByte ((aluSub x 1).value == 0) (aluSub x 1).carry =
      if x = 0x01 then 0x02 else if x = 0x00 then 0x01 else 0x00 := by decide

theorem writeResult_increment (s : State) (r : Reg) (x : Byte) :
    writeResult s r (aluAdd x 1) =
      loadFlags (setReg s r (BitVec.ofNat 8 ((x.toNat + 1) % 256))) (if x = 0xFF then 0x03 else 0x00) := by
  rw [writeResult, setFlags, flags_increment, byte_ofNat_mod]
  rfl

theorem writeResult_decrement (s : State) (r : Reg) (x : Byte) :
    writeResult s r (aluSub x 1) =
      loadFlags (setReg s r (BitVec.ofNat 8 ((x.toNat + 255) % 256)))
        (if x = 0x01 then 0x02 else if x = 0x00 then 0x01 else 0x00) := by
  rw [writeResult, setFlags, flags_decrement]
  simp only [aluSub, byte_ofInt_sub]
  rfl

/-- Settles O20. -/
theorem incrementDecrementResult : Obligations.IncrementDecrementResult := by
  intro s inc incFlags dec decFlags
  have hinc (r : Reg) (x : Byte) : (.next (writeResult s r (aluAdd x 1)) : Host.Outcome State Fault Refusal) =
      .next (loadFlags (setReg s r (inc x)) (incFlags x)) := congrArg _ (writeResult_increment s r x)
  have hdec (r : Reg) (x : Byte) : (.next (writeResult s r (aluSub x 1)) : Host.Outcome State Fault Refusal) =
      .next (loadFlags (setReg s r (dec x)) (decFlags x)) := congrArg _ (writeResult_decrement s r x)
  exact ⟨hinc .A s.a, hinc .B s.b, hinc .C s.c, hinc .D s.d, hdec .A s.a, hdec .B s.b, hdec .C s.c, hdec .D s.d⟩

/-! ## Jumps -/

/-- Settles O21: a jump not taken leaves `PC` where the fetch put it. -/
theorem jumpResult : Obligations.JumpResult := by
  intro a s
  have hjz : (if zeroFlag s.flags then { s with pc := a } else s) =
      { s with pc := if s.flags.getLsbD 1 = true then a else s.pc } := by
    by_cases hz : s.flags.getLsbD 1 = true <;> simp only [zeroFlag, hz, if_true, if_false, Bool.false_eq_true]
  have hjnz : (if zeroFlag s.flags then s else { s with pc := a }) =
      { s with pc := if s.flags.getLsbD 1 = true then s.pc else a } := by
    by_cases hz : s.flags.getLsbD 1 = true <;> simp only [zeroFlag, hz, if_true, if_false, Bool.false_eq_true]
  exact ⟨rfl, congrArg _ hjz, congrArg _ hjnz⟩

/-! ## Pops -/

/-- Settles O24: a pop is one bus read at the incremented `SP`. -/
theorem popResult : Obligations.PopResult := by
  intro s x
  have h : ReadEffect { s with sp := s.sp + 1 } x.2 := pop8_effect s
  exact ⟨⟨rfl, rfl, rfl, rfl⟩, h.sp, h.flags, fun v => pop8_bank⟩

/-! ## Interrupt and system instructions -/

theorem poll_halted {s : State} (h : s.run = .halted) : poll s = s := by
  simp only [poll, pollLine, h, if_true]

/-- Settles O26. -/
theorem systemResult : Obligations.SystemResult := fun _ =>
  ⟨rfl, rfl, rfl, rfl, rfl, fun _ hn => congrArg _ (if_neg hn), poll_halted rfl⟩

theorem exec_iret_in_handler {s : State} (h : s.inh = true) : exec .iret s = .next (interruptReturn s) :=
  congrArg _ (if_pos h)

theorem exec_iret_outside {s : State} (h : s.inh = false) :
    exec .iret s = .next (addDiag s (.invalidInterruptReturn (s.pc - 1))) :=
  congrArg _ (if_neg (by simp [h]))

theorem pop8_at {s : State} {a : Word} {v : Byte} (hsp : s.sp + 1 = a) (h : bankByte s a = some v) :
    pop8 s = (v, { s with sp := a }) := by
  subst hsp
  exact pop8_bank h

/-- A return whose frame lies in ROM or RAM: four pops without any other effect. -/
theorem interruptReturn_bank {s : State} {ra fl lo hi : Byte} (ha : bankByte s (s.sp + 1) = some ra)
    (hfl : bankByte s (s.sp + 2) = some fl) (hlo : bankByte s (s.sp + 3) = some lo)
    (hhi : bankByte s (s.sp + 4) = some hi) :
    interruptReturn s =
      { s with a := ra, flags := restoredFlags fl, pc := concat16 hi lo, sp := s.sp + 4, inh := false } := by
  have h1 := pop8_at (s := s) rfl ha
  have h2 := pop8_at (s := { s with a := ra, sp := s.sp + 1 }) (a := s.sp + 2) (BitVec.add_assoc s.sp 1 1) hfl
  have h3 := pop8_at (s := { s with a := ra, flags := restoredFlags fl, sp := s.sp + 2 }) (a := s.sp + 3)
    (BitVec.add_assoc s.sp 2 1) hlo
  have h4 := pop8_at (s := { s with a := ra, flags := restoredFlags fl, sp := s.sp + 3 }) (a := s.sp + 4)
    (BitVec.add_assoc s.sp 3 1) hhi
  simp only [interruptReturn, h1, setReg, h2, loadFlags, h3, h4]

/-- Settles O27. -/
theorem interruptReturnResult : Obligations.InterruptReturnResult :=
  ⟨fun _ _ _ _ _ hinh ha hfl hlo hhi =>
    (exec_iret_in_handler hinh).trans (congrArg _ (interruptReturn_bank ha hfl hlo hhi)),
    fun _ => exec_iret_outside⟩

/-- Settles O28: the effect of four reads on the state in which `A`, `FLAGS`, `PC`, `SP` and `INH` are set. -/
theorem interruptReturnFrame : Obligations.InterruptReturnFrame := by
  intro s hinh
  refine ⟨_, exec_iret_in_handler hinh, ?_⟩
  obtain ⟨x, f, p, h⟩ := interruptReturn_effect s
  generalize interruptReturn s = t at h
  have ha : t.a = x := h.a
  have hflags : t.flags = restoredFlags f := h.flags
  have hpc : t.pc = p := h.pc
  refine ⟨?_, hflags ▸ flagsOk_restored f, h.diag, h.raised⟩
  rw [ha, hflags, hpc]
  exact h.eq

end Sys2Proof.Machine
end

section
/-! The poll and interrupt entry (40_execution_cycle.md R105, 60_exceptions.md sections 1 and 2). -/

namespace Sys2Proof.Machine

/-! ## Which line the poll selects -/

theorem mem_lineNumbers : ∀ n : Fin 8, n ∈ lineNumbers := by decide

theorem lineNumbers_eq : lineNumbers = List.finRange 8 := by decide

/-- A line whose interrupt the poll may enter: pending and enabled. -/
abbrev Eligible (s : State) (n : Fin 8) : Prop := lineOf s n = .pending ∧ s.intc.enable.getLsbD n = true

theorem eligible_iff (s : State) (n : Fin 8) :
    (lineOf s n == .pending && lineEnabled s n) = true ↔ Eligible s n := by
  simp only [Bool.and_eq_true, beq_iff_eq, lineEnabled]

theorem anyServicing_eq_true_iff (s : State) : anyServicing s = true ↔ ∃ m, lineOf s m = .servicing := by
  simp [anyServicing, mem_lineNumbers]

theorem selectLine_of_lowest {s : State} {n : Fin 8} (hn : Eligible s n) (hlow : ∀ m, m < n → ¬ Eligible s m) :
    selectLine s = some n := by
  rw [selectLine, lineNumbers_eq, List.find?_eq_some_iff_getElem]
  refine ⟨(eligible_iff s n).2 hn, n.val, by simp, by simp, fun j hj => ?_⟩
  rw [List.getElem_finRange, Bool.not_eq_true', Bool.eq_false_iff, ne_eq, eligible_iff]
  exact hlow _ hj

theorem selectLine_eq_none {s : State} (h : ∀ n, ¬ Eligible s n) : selectLine s = none :=
  List.find?_eq_none.2 fun n _ hn => h n ((eligible_iff s n).1 hn)

/-- Interrupts may be taken: the CPU runs, interrupts are on, no handler is active and no line is in service. -/
abbrev MayInterrupt (s : State) : Prop :=
  s.run = .running ∧ s.intc.ie = true ∧ s.inh = false ∧ ∀ m, lineOf s m ≠ .servicing

theorem pollLine_of_mayInterrupt {s : State} (h : MayInterrupt s) : pollLine s = selectLine s := by
  obtain ⟨hrun, hie, hinh, hlines⟩ := h
  have hany : ¬ anyServicing s = true := fun ha => by
    obtain ⟨m, hm⟩ := (anyServicing_eq_true_iff s).1 ha
    exact hlines m hm
  simp [pollLine, hrun, hie, hinh, hany]

theorem pollLine_eq_none {s : State} (h : ¬ MayInterrupt s ∨ ∀ n, ¬ Eligible s n) : pollLine s = none := by
  unfold pollLine
  split
  · rfl
  · rename_i hrun
    split
    · rfl
    · rename_i hie
      split
      · rfl
      · rename_i hinh
        split
        · rfl
        · rename_i hany
          refine selectLine_eq_none (h.resolve_left fun hmay => hmay ⟨?_, by simpa using hie, by simpa using hinh, ?_⟩)
          · cases hs : s.run with
            | running => rfl
            | halted => exact absurd hs hrun
          · exact fun m hm => hany ((anyServicing_eq_true_iff s).2 ⟨m, hm⟩)

theorem poll_of_none {s : State} (h : pollLine s = none) : poll s = s := by simp only [poll, h]

theorem poll_of_some {s : State} {n : Fin 8} (h : pollLine s = some n) : poll s = interruptEntry s n := by
  simp only [poll, h]

/-- Settles O44. -/
theorem pollEntersLowestEligibleLine : Obligations.PollEntersLowestEligibleLine := by
  intro s
  refine ⟨fun n hrun hie hinh hlines hpending henabled hlow => poll_of_some ?_, fun h => poll_of_none ?_⟩
  · rw [pollLine_of_mayInterrupt ⟨hrun, hie, hinh, hlines⟩, selectLine_of_lowest ⟨hpending, henabled⟩ hlow]
  · refine pollLine_eq_none ?_
    rcases h with hrun | hie | hinh | ⟨m, hm⟩ | hnone
    · exact .inl fun ⟨hrunning, _⟩ => by simp [hrun] at hrunning
    · exact .inl fun ⟨_, hon, _⟩ => by simp [hie] at hon
    · exact .inl fun ⟨_, _, hnot, _⟩ => by simp [hinh] at hnot
    · exact .inl fun ⟨_, _, _, hlines⟩ => hlines m hm
    · exact .inr hnone

/-! ## Requests on a masked line -/

theorem lineOf_requestInterrupt_other (s : State) {n m : Fin 8} (h : m ≠ n) :
    lineOf (requestInterrupt s n.val) m = lineOf s m := by
  rcases requestInterrupt_effect s n.val with hs | ⟨_, -, hs⟩
  · rw [hs]
  · rw [hs, lineOf_setLine_ne s .pending (Ne.symm h)]

theorem requestInterrupt_latched (s : State) (n : Fin 8) : lineOf (requestInterrupt s n.val) n ≠ .idle := by
  by_cases h : lineOf s n = .idle
  · rw [requestInterrupt_of_idle h, lineOf_setLine_self]
    decide
  · rwa [requestInterrupt_of_not_idle h]

theorem lineOf_requestAll_replicate_other (s : State) {n m : Fin 8} (h : m ≠ n) (k : Nat) :
    lineOf (requestAll s (List.replicate k n.val)) m = lineOf s m := by
  induction k generalizing s with
  | zero => rfl
  | succ k ih => exact (ih (requestInterrupt s n.val)).trans (lineOf_requestInterrupt_other s h)

theorem LinesRaised.ne_idle {s t : State} (h : LinesRaised s t) {n : Fin 8} (hs : lineOf s n ≠ .idle) :
    lineOf t n ≠ .idle := by
  rcases h n with hsame | ⟨hidle, -⟩
  · rwa [hsame]
  · exact absurd hidle hs

theorem requestAll_replicate_latched (s : State) (n : Fin 8) {k : Nat} (hk : 1 ≤ k) :
    lineOf (requestAll s (List.replicate k n.val)) n ≠ .idle := by
  obtain ⟨j, rfl⟩ : ∃ j, k = j + 1 := ⟨k - 1, by omega⟩
  obtain ⟨hraised, -, -⟩ := requestAll_effect (requestInterrupt s n.val) (List.replicate j n.val)
  exact hraised.raised.ne_idle (requestInterrupt_latched s n)

/-- Settles O45: the requests leave the enables and every other line, so no line is eligible; and an entry is for an
enabled line. -/
theorem maskedLineNotDispatched : Obligations.MaskedLineNotDispatched := by
  constructor
  · intro s n k hmask hothers t
    obtain ⟨heffect, -, -⟩ := requestAll_effect s (List.replicate k n.val)
    refine ⟨poll_of_none (pollLine_eq_none (.inr fun m hm => ?_)), heffect.pc, requestAll_replicate_latched s n⟩
    obtain ⟨hpending, henabled⟩ := hm
    rw [heffect.enable] at henabled
    by_cases hmn : m = n
    · rw [hmn, hmask] at henabled
      cases henabled
    · exact hothers m hmn ⟨(lineOf_requestAll_replicate_other s hmn k).symm.trans hpending, henabled⟩
  · intro s n hmask hservicing
    rcases poll_cases s with ⟨hsame, -⟩ | ⟨k, hentry, -, -, -, -, -, hselect⟩
    · rwa [hsame] at hservicing
    · have hkn : k ≠ n := by
        rintro rfl
        exact absurd (selectLine_some hselect).2
          (by simp only [lineEnabled, hmask, Bool.false_eq_true, not_false_eq_true])
      rw [hentry] at hservicing
      have hbefore := (interruptEntry_bus s k).lines n hservicing
      rwa [lineOf_setLine_ne s .servicing hkn] at hbefore

/-! ## Interrupt entry (60_exceptions.md R260) -/

theorem push8_at {s : State} {a : Word} (v : Byte) (hsp : s.sp = a) :
    push8 s v = { memWrite s a v with sp := a - 1 } := by
  subst hsp
  exact push8_eq s v

/-- Whether entry ends, with what is pushed written out. -/
theorem entryEnds_eq (s : State) (n : Fin 8) :
    entryEnds s n =
      let s1 := setLine s n .servicing
      let s2 := push8 s1 (hi8 s.pc)
      let s3 := push8 s2 (lo8 s.pc)
      let s4 := push8 s3 s.flags
      (writeEnds s1 s.sp && writeEnds s2 s2.sp && writeEnds s3 s3.sp && writeEnds s4 s4.sp) := by
  have h1 := push8_effect (setLine s n .servicing) (hi8 s.pc)
  have h2 := push8_effect (push8 (setLine s n .servicing) (hi8 s.pc)) (lo8 s.pc)
  have e1 : (push8 (setLine s n .servicing) (hi8 s.pc)).pc = s.pc := h1.pc
  have e2 : (push8 (push8 (setLine s n .servicing) (hi8 s.pc)) (lo8 s.pc)).flags = s.flags := h2.flags.trans h1.flags
  simp only [entryEnds, setLine_pc, setLine_sp, e1, e2]

theorem interruptEntry_pc (s : State) (n : Fin 8) :
    (interruptEntry s n).pc =
      concat16 (interruptEntry s n).intc.handlerHigh (interruptEntry s n).intc.handlerLow := by
  rw [interruptEntry_eq]

/-- Settles O46: each push is a bus write at `SP` as it then stands. -/
theorem interruptEntryFrame : Obligations.InterruptEntryFrame := by
  intro s n t s1 s2 s3 s4 s5
  have sub2 : s.sp - 1 - 1 = s.sp - 2 := BitVec.sub_sub s.sp 1 1
  have sub3 : s.sp - 2 - 1 = s.sp - 3 := BitVec.sub_sub s.sp 2 1
  have sub4 : s.sp - 3 - 1 = s.sp - 4 := BitVec.sub_sub s.sp 3 1
  have push1 : push8 (setLine s n .servicing) (hi8 s.pc) = s2 := push8_at (a := s.sp) _ rfl
  have push2 : push8 s2 (lo8 s.pc) = s3 := (push8_at _ rfl).trans (by rw [sub2])
  have push3 : push8 s3 s.flags = s4 := (push8_at _ rfl).trans (by rw [sub3])
  have push4 : push8 s4 s.a = { s5 with sp := s.sp - 4 } := (push8_at _ rfl).trans (by rw [sub4])
  have h := interruptEntry_effect s n
  refine ⟨?_, ?_, ?_, h.ie, h.diag, h.ramOk, fun m hm => ?_⟩
  · change interruptEntry s n = _
    rw [interruptEntry_eq, framePushed, push1, push2, push3, push4]
  · rw [entryEnds_eq]
    simp only [push1, push2, push3, Bool.and_eq_true, and_assoc]
    rfl
  · rw [← interruptEntry_pc]
    exact h.eq
  · have hbefore : lineOf (setLine s n .servicing) m = .servicing := h.lines m hm
    by_cases hmn : n = m
    · exact .inl hmn.symm
    · exact .inr ((lineOf_setLine_ne s .servicing hmn).symm.trans hbefore)

/-! ## The frame in RAM -/

theorem ramWrite_order_length_le (s : State) (a : Word) (v : Byte) :
    (ramWrite s a v).ram.order.length ≤ s.ram.order.length + 1 := by
  unfold ramWrite
  split
  · exact Nat.le_succ _
  · simp only [evict, List.length_drop, List.length_append, List.length_singleton]
    omega

/-- With room in the bank, a store to a RAM address and what the banks hold after it. -/
theorem bankByte_ramWrite_of_room {s : State} {a : Word} (v : Byte) (hw : Memory.wf s.ram.cells = true)
    (ha : regionOf s.cfg a = .ram) (hroom : HasRoom s a) (b : Word) :
    bankByte (ramWrite s a v) b = if b = a then some v else bankByte s b := by
  by_cases hb : b = a
  · rw [if_pos hb, hb, ← memWrite_ram v ha, bankByte_memWrite_self v hw ha]
  · rw [if_neg hb, bankByte_ramWrite_other v hb hroom]

/-- A push to RAM with room in the bank changes `SP` and the Ram bank only. -/
theorem push8_ram {s : State} {a : Word} (v : Byte) (hsp : s.sp = a) (hw : Memory.wf s.ram.cells = true)
    (ha : regionOf s.cfg a = .ram) (hroom : s.ram.order.length < s.cfg.ramMaxEntries) :
    ∃ r : Ram, push8 s v = { s with sp := a - 1, ram := r } ∧ Memory.wf r.cells = true ∧
      r.order.length ≤ s.ram.order.length + 1 ∧
      ∀ b, bankByte (push8 s v) b = if b = a then some v else bankByte s b := by
  have hpush : push8 s v = { ramWrite s a v with sp := a - 1 } := by rw [push8_at v hsp, memWrite_ram v ha]
  refine ⟨(ramWrite s a v).ram, ?_, wf_ramWrite hw a v, ramWrite_order_length_le s a v, fun b => ?_⟩
  · rw [hpush, ramWrite_eq, ramWrite_diag_of_room v (.inr hroom)]
  · rw [hpush]
    exact bankByte_ramWrite_of_room v hw ha (.inr hroom) b

/-- Four pushes to RAM with room for four entries. -/
theorem push4_ram {s : State} (v w x y : Byte) (hw : Memory.wf s.ram.cells = true)
    (hram : ∀ k, k < 4 → regionOf s.cfg (s.sp - BitVec.ofNat 16 k) = .ram)
    (hroom : s.ram.order.length + 4 ≤ s.cfg.ramMaxEntries) :
    ∃ r : Ram, push8 (push8 (push8 (push8 s v) w) x) y = { s with sp := s.sp - 4, ram := r } ∧
      ∀ b, bankByte (push8 (push8 (push8 (push8 s v) w) x) y) b =
        if b = s.sp - 3 then some y else if b = s.sp - 2 then some x else if b = s.sp - 1 then some w
        else if b = s.sp then some v else bankByte s b := by
  have ram0 : regionOf s.cfg s.sp = .ram := by simpa using hram 0 (by omega)
  obtain ⟨r1, e1, w1, l1, b1⟩ := push8_ram v (rfl : s.sp = s.sp) hw ram0 (by omega)
  obtain ⟨r2, e2, w2, l2, b2⟩ := push8_ram (s := { s with sp := s.sp - 1, ram := r1 }) (a := s.sp - 1) w rfl w1
    (hram 1 (by omega)) (by simp only; omega)
  have sp2 : s.sp - 1 - 1 = s.sp - 2 := BitVec.sub_sub s.sp 1 1
  obtain ⟨r3, e3, w3, l3, b3⟩ := push8_ram (s := { s with sp := s.sp - 1 - 1, ram := r2 }) (a := s.sp - 2) x sp2 w2
    (hram 2 (by omega)) (by simp only at l2 ⊢; omega)
  have sp3 : s.sp - 2 - 1 = s.sp - 3 := BitVec.sub_sub s.sp 2 1
  obtain ⟨r4, e4, -, -, b4⟩ := push8_ram (s := { s with sp := s.sp - 2 - 1, ram := r3 }) (a := s.sp - 3) y sp3 w3
    (hram 3 (by omega)) (by simp only at l2 l3 ⊢; omega)
  have sp4 : s.sp - 3 - 1 = s.sp - 4 := BitVec.sub_sub s.sp 3 1
  simp only [e1, e2, e3] at b1 b2 b3 ⊢
  exact ⟨r4, e4.trans (by rw [sp4]), fun b => by rw [b4, b3, b2, b1]⟩

theorem bankByte_pc_inh (s : State) (p : Word) (x : Bool) (b : Word) :
    bankByte { s with pc := p, inh := x } b = bankByte s b := rfl

/-- Interrupt entry with its frame in RAM and room for it. -/
theorem interruptEntry_ram {s : State} (n : Fin 8) (hw : Memory.wf s.ram.cells = true)
    (hram : ∀ k, k < 4 → regionOf s.cfg (s.sp - BitVec.ofNat 16 k) = .ram)
    (hroom : s.ram.order.length + 4 ≤ s.cfg.ramMaxEntries) :
    ∃ r : Ram, interruptEntry s n =
        { setLine s n .servicing with
          pc := concat16 s.intc.handlerHigh s.intc.handlerLow, sp := s.sp - 4, inh := true, ram := r } ∧
      ∀ b, bankByte (interruptEntry s n) b =
        if b = s.sp - 3 then some s.a else if b = s.sp - 2 then some s.flags
        else if b = s.sp - 1 then some (lo8 s.pc) else if b = s.sp then some (hi8 s.pc) else bankByte s b := by
  obtain ⟨r, hpush, hbytes⟩ :=
    push4_ram (s := setLine s n .servicing) (hi8 s.pc) (lo8 s.pc) s.flags s.a hw hram hroom
  have hentry := interruptEntry_eq s n

  refine ⟨r, ?_, fun b => ?_⟩
  · rw [hentry, framePushed, hpush]
    rfl
  · have hframe : bankByte (interruptEntry s n) b = bankByte (framePushed s n) b := by
      rw [hentry, bankByte_pc_inh]
    rw [hframe, framePushed]
    exact hbytes b

/-- The four addresses of a frame differ. -/
theorem frame_addresses_ne (a : Word) :
    a ≠ a - 1 ∧ a ≠ a - 2 ∧ a ≠ a - 3 ∧ a - 1 ≠ a - 2 ∧ a - 1 ≠ a - 3 ∧ a - 2 ≠ a - 3 := by
  refine ⟨?_, ?_, ?_, ?_, ?_, ?_⟩ <;> bv_omega

section
variable {s : State} (n : Fin 8) (hw : Memory.wf s.ram.cells = true)
  (hram : ∀ k, k < 4 → regionOf s.cfg (s.sp - BitVec.ofNat 16 k) = .ram)
  (hroom : s.ram.order.length + 4 ≤ s.cfg.ramMaxEntries)
include hw hram hroom

/-- The frame that entry leaves: `PC` high, `PC` low, `FLAGS` and `A` from the old `SP` downward. -/
theorem interruptEntry_frame :
    bankByte (interruptEntry s n) s.sp = some (hi8 s.pc) ∧
    bankByte (interruptEntry s n) (s.sp - 1) = some (lo8 s.pc) ∧
    bankByte (interruptEntry s n) (s.sp - 2) = some s.flags ∧
    bankByte (interruptEntry s n) (s.sp - 3) = some s.a := by
  obtain ⟨r, -, hbytes⟩ := interruptEntry_ram n hw hram hroom
  obtain ⟨h01, h02, h03, h12, h13, h23⟩ := frame_addresses_ne s.sp
  simp only [hbytes, h01, h02, h03, h12, h13, h23, if_true, if_false, and_self]

end

/-- Settles O47. -/
theorem interruptEntryToRam : Obligations.InterruptEntryToRam := by
  intro s n hok hram hroom t
  have hw : Memory.wf s.ram.cells = true := hok.1
  obtain ⟨r, hentry, hbytes⟩ := interruptEntry_ram n hw hram hroom
  obtain ⟨hhi, hlo, hflags, ha⟩ := interruptEntry_frame n hw hram hroom
  refine ⟨?_, hhi, hlo, hflags, ha, fun b h0 h1 h2 h3 => ?_⟩
  · change interruptEntry s n = { s with
      pc := concat16 s.intc.handlerHigh s.intc.handlerLow, sp := s.sp - 4, inh := true
      intc := { s.intc with lines := s.intc.lines.set n .servicing }, ram := (interruptEntry s n).ram }
    rw [hentry]
    rfl
  · exact (hbytes b).trans (by simp only [h0, h1, h2, h3, if_false])

/-- A FLAGS byte with its reserved bits 0 is what `IRET` restores from it. -/
theorem restoredFlags_of_flagsOk : ∀ f : Byte, f.extractLsb' 2 6 = 0 → restoredFlags f = f := by decide

/-- Settles O48: the return pops what entry pushed. -/
theorem returnResumesInterruptedProgram : Obligations.ReturnResumesInterruptedProgram := by
  intro s h n hok hflags hram hroom hinh hsp hframe
  have hw : Memory.wf s.ram.cells = true := hok.1
  obtain ⟨r, hentry, -⟩ := interruptEntry_ram n hw hram hroom
  obtain ⟨hhi, hlo, hfl, ha⟩ := interruptEntry_frame n hw hram hroom
  have hsp4 : h.sp = s.sp - 4 := by rw [hsp, hentry]
  have at1 : h.sp + 1 = s.sp - 3 := by rw [hsp4]; bv_omega
  have at2 : h.sp + 2 = s.sp - 2 := by rw [hsp4]; bv_omega
  have at3 : h.sp + 3 = s.sp - 1 := by rw [hsp4]; bv_omega
  have at4 : h.sp + 4 = s.sp := by rw [hsp4]; bv_omega
  have pop1 : bankByte h (h.sp + 1) = some s.a := by rw [at1]; exact (hframe 3 (by omega)).trans ha
  have pop2 : bankByte h (h.sp + 2) = some s.flags := by rw [at2]; exact (hframe 2 (by omega)).trans hfl
  have pop3 : bankByte h (h.sp + 3) = some (lo8 s.pc) := by rw [at3]; exact (hframe 1 (by omega)).trans hlo
  have pop4 : bankByte h (h.sp + 4) = some (hi8 s.pc) := by
    rw [at4, ← hhi]
    simpa using hframe 0 (by omega)
  rw [exec_iret_in_handler hinh, interruptReturn_bank pop1 pop2 pop3 pop4, concat16_hi8_lo8,
    restoredFlags_of_flagsOk s.flags hflags, at4]

end Sys2Proof.Machine
end

section
/-! Which CPU registers each part of a step leaves (10_state.md sections 1 and 2): the table `cpuWrites` names, for
each instruction, the registers its meaning may write, and `exec_keeps` says that it writes no other. -/

namespace Sys2Proof.Machine

/-! ## Keeping a register -/

/-- The registers of the CPU (10_state.md R10 to R20). -/
inductive CpuField where
  | reg (r : Reg)
  | pc | sp | ir | flags | run | inh | ie

/-- `t` has the register as `s` has it. -/
def Keeps (s t : State) : CpuField → Prop
  | .reg r => getReg t r = getReg s r
  | .pc => t.pc = s.pc
  | .sp => t.sp = s.sp
  | .ir => t.ir = s.ir
  | .flags => t.flags = s.flags
  | .run => t.run = s.run
  | .inh => t.inh = s.inh
  | .ie => t.intc.ie = s.intc.ie

theorem Keeps.refl (s : State) (f : CpuField) : Keeps s s f := by cases f <;> rfl

theorem Keeps.trans {s t u : State} {f : CpuField} (h : Keeps s t f) (g : Keeps t u f) : Keeps s u f := by
  cases f <;> exact Eq.trans g h

theorem WriteEffect.keeps {s t : State} (h : WriteEffect s t) (f : CpuField) : Keeps s t f := by
  cases f with
  | reg r =>
    cases r with
    | A => exact h.a
    | B => exact h.b
    | C => exact h.c
    | D => exact h.d
  | pc => exact h.pc
  | sp => exact h.sp
  | ir => exact h.ir
  | flags => exact h.flags
  | run => exact h.run
  | inh => exact h.inh
  | ie => exact h.ie

theorem ReadEffect.keeps {s t : State} (h : ReadEffect s t) (f : CpuField) : Keeps s t f := h.toWrite.keeps f

theorem keeps_setReg {s : State} {r : Reg} {v : Byte} {f : CpuField} (h : f ≠ .reg r) : Keeps s (setReg s r v) f := by
  cases f with
  | reg q => exact getReg_setReg_ne s v fun e => h (congrArg CpuField.reg e.symm)
  | ie => exact congrArg Intc.ie (setReg_intc s r v)
  | _ => simp [Keeps]

theorem keeps_writeResult {s : State} {r : Reg} {x : AluResult} {f : CpuField} (h : f ∉ [.reg r, .flags]) :
    Keeps s (writeResult s r x) f := by
  have hflags : Keeps (setReg s r x.value) (writeResult s r x) f := by
    cases f with
    | reg q => cases q <;> rfl
    | flags => simp at h
    | _ => rfl
  exact (keeps_setReg (by simp_all)).trans hflags

theorem keeps_addDiag (s : State) (d : Diagnostic) (f : CpuField) : Keeps s (addDiag s d) f :=
  (readEffect_addDiag s d).keeps f

/-! ## Changing a named register keeps the others -/

theorem keeps_with_pc {s : State} {p : Word} {f : CpuField} (h : f ∉ [.pc]) : Keeps s { s with pc := p } f := by
  cases f with
  | reg r => cases r <;> rfl
  | pc => simp at h
  | _ => rfl

theorem keeps_with_sp {s : State} {p : Word} {f : CpuField} (h : f ∉ [.sp]) : Keeps s { s with sp := p } f := by
  cases f with
  | reg r => cases r <;> rfl
  | sp => simp at h
  | _ => rfl

theorem keeps_with_run {s : State} {x : RunState} {f : CpuField} (h : f ∉ [.run]) : Keeps s { s with run := x } f := by
  cases f with
  | reg r => cases r <;> rfl
  | run => simp at h
  | _ => rfl

theorem keeps_with_ie {s : State} {x : Bool} {f : CpuField} (h : f ∉ [.ie]) :
    Keeps s { s with intc := { s.intc with ie := x } } f := by
  cases f with
  | reg r => cases r <;> rfl
  | ie => simp at h
  | _ => rfl

/-! ## The operand forms -/

theorem keeps_loadInto {s : State} {r : Reg} {a : Word} {f : CpuField} (h : f ∉ [.reg r, .flags]) :
    Keeps s (loadInto r a s) f := ((memRead_effect s a).keeps f).trans (keeps_writeResult h)

theorem keeps_storeFrom (r : Reg) (a : Word) (s : State) (f : CpuField) : Keeps s (storeFrom r a s) f :=
  (storeFrom_effect r a s).keeps f

theorem keeps_pushFrom {s : State} {r : Reg} {f : CpuField} (h : f ∉ [.sp]) : Keeps s (pushFrom r s) f :=
  (keeps_with_sp h).trans ((pushFrom_effect r s).keeps f)

theorem keeps_popInto {s : State} {r : Reg} {f : CpuField} (h : f ∉ [.reg r, .sp]) : Keeps s (popInto r s) f := by
  simp only [List.mem_cons, List.not_mem_nil, or_false, not_or] at h
  obtain ⟨hr, hsp⟩ := h
  exact ((keeps_with_sp (by simpa using hsp)).trans ((pop8_effect s).keeps f)).trans (keeps_setReg hr)

theorem keeps_interruptReturn {s : State} {f : CpuField} (h : f ∉ [.reg .A, .flags, .pc, .sp, .inh]) :
    Keeps s (interruptReturn s) f := by
  obtain ⟨x, g, p, heffect⟩ := interruptReturn_effect s
  refine Keeps.trans (t := { s with a := x, flags := restoredFlags g, pc := p, sp := s.sp + 4, inh := false }) ?_
    (heffect.keeps f)
  cases f with
  | reg r =>
    cases r with
    | A => simp at h
    | _ => rfl
  | run | ir | ie => rfl
  | _ => simp at h

/-! ## Instructions -/

/-- The CPU registers an instruction's meaning may write (10_state.md sections 1 to 3). -/
def cpuWrites : Mnemonic → List CpuField
  | .NOP | .MOV_MEM_A | .MOV_MEM_B | .MOV_MEM_C | .MOV_MEM_D => []
  | .HALT | .SYSCALL => [.run]
  | .EI | .DI => [.ie]
  | .IRET => [.reg .A, .flags, .pc, .sp, .inh]
  | .SET_SP | .PUSH_A | .PUSH_B | .PUSH_C | .PUSH_D => [.sp]
  | .POP_A => [.reg .A, .sp]
  | .POP_B => [.reg .B, .sp]
  | .POP_C => [.reg .C, .sp]
  | .POP_D => [.reg .D, .sp]
  | .JMP | .JZ | .JNZ => [.pc]
  | .MOV_A_IMM | .MOV_A_MEM | .MOV_A_B | .MOV_A_C | .MOV_A_D | .ADD | .SUB | .AND | .OR | .XOR | .ADD_IMM | .SUB_IMM
  | .AND_IMM | .OR_IMM | .XOR_IMM | .INC_A | .DEC_A => [.reg .A, .flags]
  | .MOV_B_IMM | .MOV_B_MEM | .MOV_B_A | .MOV_B_C | .MOV_B_D | .INC_B | .DEC_B => [.reg .B, .flags]
  | .MOV_C_IMM | .MOV_C_MEM | .MOV_C_A | .MOV_C_B | .MOV_C_D | .INC_C | .DEC_C => [.reg .C, .flags]
  | .MOV_D_IMM | .MOV_D_MEM | .MOV_D_A | .MOV_D_B | .MOV_D_C | .INC_D | .DEC_D => [.reg .D, .flags]

/-- An instruction keeps every register that the table does not name for it. -/
theorem exec_keeps {i : Instr} {s t : State} (h : exec i s = .next t) {f : CpuField} (hf : f ∉ cpuWrites i.mnemonic) :
    Keeps s t f := by
  cases i with
  | nop => cases h; exact .refl s f
  | halt => cases h; exact keeps_with_run hf
  | syscall v =>
    cases h
    split
    · exact keeps_with_run hf
    · exact keeps_addDiag s _ f
  | ei | di => cases h; exact keeps_with_ie hf
  | iret =>
    cases h
    split
    · exact keeps_interruptReturn hf
    · exact keeps_addDiag s _ f
  | setSp w => cases h; exact keeps_with_sp hf
  | movAImm | movBImm | movCImm | movDImm | movAB | movAC | movAD | movBA | movBC | movBD | movCA | movCB | movCD
  | movDA | movDB | movDC => cases h; exact keeps_writeResult hf
  | movAMem | movBMem | movCMem | movDMem => cases h; exact keeps_loadInto hf
  | movMemA | movMemB | movMemC | movMemD => obtain ⟨-, rfl⟩ := nextIf_next h; exact keeps_storeFrom _ _ s f
  | add | sub | and | or | xor | addImm | subImm | andImm | orImm | xorImm => cases h; exact keeps_writeResult hf
  | incA | incB | incC | incD | decA | decB | decC | decD => cases h; exact keeps_writeResult hf
  | pushA | pushB | pushC | pushD => obtain ⟨-, rfl⟩ := nextIf_next h; exact keeps_pushFrom hf
  | popA | popB | popC | popD => cases h; exact keeps_popInto hf
  | jmp => cases h; exact keeps_with_pc hf
  | jz =>
    cases h
    split
    · exact keeps_with_pc hf
    · exact .refl s f
  | jnz =>
    cases h
    split
    · exact .refl s f
    · exact keeps_with_pc hf

/-- The instructions that compute `FLAGS` are all in the table with `FLAGS`, and beside them only `IRET`. -/
theorem exec_flags {i : Instr} {s t : State} (h : exec i s = .next t) (hf : .flags ∈ cpuWrites i.mnemonic)
    (hi : i ≠ .iret) : ∃ z c, t.flags = flagsByte z c := by
  cases i with
  | movAImm | movBImm | movCImm | movDImm | movAB | movAC | movAD | movBA | movBC | movBD | movCA | movCB | movCD
  | movDA | movDB | movDC | movAMem | movBMem | movCMem | movDMem => cases h; exact ⟨_, _, rfl⟩
  | add | sub | and | or | xor | addImm | subImm | andImm | orImm | xorImm => cases h; exact ⟨_, _, rfl⟩
  | incA | incB | incC | incD | decA | decB | decC | decD => cases h; exact ⟨_, _, rfl⟩
  | iret => exact absurd rfl hi
  | _ => simp [Instr.mnemonic, cpuWrites] at hf

/-! ## The other parts of a step -/

theorem keeps_unrecognized (s : State) (f : CpuField) : Keeps s (unrecognized s) f := keeps_addDiag s _ f

theorem keeps_turnBoundary (s : State) (f : CpuField) : Keeps s (turnBoundary s) f := by
  obtain ⟨heffect, -, -⟩ := turnBoundary_effect s
  refine Keeps.trans (t := { s with env := (turnBoundary s).env }) ?_ (heffect.keeps f)
  cases f with
  | reg r => cases r <;> rfl
  | _ => rfl

theorem keeps_fetchInstr {s : State} {f : CpuField} (h : f ∉ [.pc, .ir]) : Keeps s (fetchInstr s).2 f := by
  refine Keeps.trans ?_ ((fetchInstr_effect s).keeps f)
  cases f with
  | reg r => cases r <;> rfl
  | pc | ir => simp at h
  | _ => rfl

theorem keeps_interruptEntry {s : State} (n : Fin 8) {f : CpuField} (h : f ∉ [.pc, .sp, .inh]) :
    Keeps s (interruptEntry s n) f := by
  refine Keeps.trans ?_ ((interruptEntry_effect s n).keeps f)
  cases f with
  | reg r => cases r <;> rfl
  | pc | sp | inh => simp at h
  | _ => rfl

theorem keeps_poll {s : State} {f : CpuField} (h : f ∉ [.pc, .sp, .inh]) : Keeps s (poll s) f := by
  rcases poll_cases s with ⟨hsame, -⟩ | ⟨n, hentry, -⟩
  · rw [hsame]
    exact .refl s f
  · rw [hentry]
    exact keeps_interruptEntry n h

theorem keeps_countStep (s : State) (f : CpuField) : Keeps s (countStep s) f := by
  cases f with
  | reg r => cases r <;> rfl
  | _ => rfl

theorem keeps_endStep {s : State} {f : CpuField} (h : f ∉ [.pc, .sp, .inh]) : Keeps s (endStep s) f :=
  (keeps_poll h).trans (keeps_countStep _ f)

/-! ## Loading (70_reset_and_hazards.md R294) -/

theorem loadEntry_effect (bank : Bank) (base : Word) (s : State) (e : ImageEntry) :
    ∃ m r l, loadEntry bank base s e = { s with rom := m, ram := r, diag := l } := by
  simp only [loadEntry]
  split
  · cases bank with
    | rom => exact ⟨_, _, _, rfl⟩
    | ram =>
      obtain ⟨r, ds, h⟩ := ramWrite_effect s (loadAddr base e) e.value
      exact ⟨s.rom, r, s.diag ++ ds, h⟩
  · exact ⟨s.rom, s.ram, s.diag, rfl⟩

/-- A load changes the banks and, by eviction, `DIAG`, and nothing else. -/
theorem load_effect (s : State) (bank : Bank) (im : Image) (base : Word) :
    ∃ m r l, load s bank im base = { s with rom := m, ram := r, diag := l } := by
  unfold load
  induction imageEntries im generalizing s with
  | nil => exact ⟨s.rom, s.ram, s.diag, rfl⟩
  | cons e es ih =>
    obtain ⟨m, r, l, hentry⟩ := loadEntry_effect bank base s e
    rw [List.foldl_cons, hentry]
    exact ih _

theorem keeps_load (s : State) (bank : Bank) (im : Image) (base : Word) (f : CpuField) :
    Keeps s (load s bank im base) f := by
  obtain ⟨m, r, l, h⟩ := load_effect s bank im base
  rw [h]
  cases f with
  | reg r => cases r <;> rfl
  | _ => rfl

end Sys2Proof.Machine
end

section
/-! Which instruction writes which register: the statements of 10_state.md sections 1 and 2, read off the table
`cpuWrites`. -/

namespace Sys2Proof.Machine

/-- A register that an instruction changes is one the table names for it. -/
theorem mem_cpuWrites_of_changes {i : Instr} {s t : State} (h : exec i s = .next t) {f : CpuField}
    (hf : ¬ Keeps s t f) : f ∈ cpuWrites i.mnemonic := by
  by_contra hnot
  exact hf (exec_keeps h hnot)

/-- The table read by register (10_state.md R10 to R12). -/
theorem writers_of_cpuWrites (m : Mnemonic) :
    (.reg .A ∈ cpuWrites m → m ∈
      [.MOV_A_IMM, .MOV_A_MEM, .MOV_A_B, .MOV_A_C, .MOV_A_D, .ADD, .SUB, .AND, .OR, .XOR, .ADD_IMM, .SUB_IMM, .AND_IMM,
       .OR_IMM, .XOR_IMM, .INC_A, .DEC_A, .POP_A, .IRET]) ∧
    (.reg .B ∈ cpuWrites m → m ∈ [.MOV_B_IMM, .MOV_B_MEM, .MOV_B_A, .MOV_B_C, .MOV_B_D, .INC_B, .DEC_B, .POP_B]) ∧
    (.reg .C ∈ cpuWrites m → m ∈ [.MOV_C_IMM, .MOV_C_MEM, .MOV_C_A, .MOV_C_B, .MOV_C_D, .INC_C, .DEC_C, .POP_C]) ∧
    (.reg .D ∈ cpuWrites m → m ∈ [.MOV_D_IMM, .MOV_D_MEM, .MOV_D_A, .MOV_D_B, .MOV_D_C, .INC_D, .DEC_D, .POP_D]) ∧
    (.sp ∈ cpuWrites m → m ∈
      [.SET_SP, .PUSH_A, .PUSH_B, .PUSH_C, .PUSH_D, .POP_A, .POP_B, .POP_C, .POP_D, .IRET]) ∧
    (.pc ∈ cpuWrites m → m ∈ [.JMP, .JZ, .JNZ, .IRET]) := by
  cases m <;> simp [cpuWrites]

/-- Settles O55. -/
theorem registerWriters : Obligations.RegisterWriters := by
  intro i s t h
  have hw (f : CpuField) (hf : ¬ Keeps s t f) : f ∈ cpuWrites i.mnemonic := mem_cpuWrites_of_changes h hf
  obtain ⟨ha, hb, hc, hd, hsp, hpc⟩ := writers_of_cpuWrites i.mnemonic
  exact ⟨fun hne => ha (hw (.reg .A) hne), fun hne => hb (hw (.reg .B) hne), fun hne => hc (hw (.reg .C) hne),
    fun hne => hd (hw (.reg .D) hne), fun hne => hsp (hw .sp hne), fun hne => hpc (hw .pc hne)⟩

/-! ## FLAGS (10_state.md R17) -/

/-- The instructions that compute `FLAGS` from a result. -/
def flagComputers : List Mnemonic :=
  [.ADD, .SUB, .AND, .OR, .XOR, .ADD_IMM, .SUB_IMM, .AND_IMM, .OR_IMM, .XOR_IMM,
   .INC_A, .INC_B, .INC_C, .INC_D, .DEC_A, .DEC_B, .DEC_C, .DEC_D,
   .MOV_A_IMM, .MOV_B_IMM, .MOV_C_IMM, .MOV_D_IMM, .MOV_A_MEM, .MOV_B_MEM, .MOV_C_MEM, .MOV_D_MEM,
   .MOV_A_B, .MOV_A_C, .MOV_A_D, .MOV_B_A, .MOV_B_C, .MOV_B_D, .MOV_C_A, .MOV_C_B, .MOV_C_D, .MOV_D_A, .MOV_D_B,
   .MOV_D_C]

theorem flags_mem_cpuWrites_iff (m : Mnemonic) : .flags ∈ cpuWrites m ↔ m ∈ flagComputers ∨ m = .IRET := by
  cases m <;> simp [cpuWrites, flagComputers]

theorem mnemonic_eq_iret_iff (i : Instr) : i.mnemonic = .IRET ↔ i = .iret := by
  cases i <;> simp [Instr.mnemonic]

theorem flags_after_two_pops (s : State) : (pop8 (pop8 s).2).2.flags = s.flags :=
  (pop8_effect (pop8 s).2).flags.trans (pop8_effect s).flags

/-- The second byte a valid return pops is what `FLAGS` comes from. -/
theorem interruptReturn_flags (s : State) :
    (interruptReturn s).flags = (pop8 (setReg (pop8 s).2 .A (pop8 s).1)).1 &&& 0x03 := by
  simp only [interruptReturn, flags_after_two_pops, loadFlags_flags, restoredFlags]

theorem exec_iret_cases {s t : State} (h : exec .iret s = .next t) :
    s.inh = true ∧ t = interruptReturn s ∨
    s.inh = false ∧ t = addDiag s (.invalidInterruptReturn (s.pc - 1)) := by
  cases hinh : s.inh with
  | true => rw [exec_iret_in_handler hinh] at h; cases h; exact .inl ⟨rfl, rfl⟩
  | false => rw [exec_iret_outside hinh] at h; cases h; exact .inr ⟨rfl, rfl⟩

/-- Settles O54. -/
theorem flagWriters : Obligations.FlagWriters := by
  refine ⟨fun i s t h => ⟨fun hm => ?_, ?_, ?_, fun hm hi => ?_⟩, fun s n => ⟨rfl, ?_⟩⟩
  · have hmem : .flags ∈ cpuWrites i.mnemonic := (flags_mem_cpuWrites_iff _).2 (.inl hm)
    refine exec_flags h hmem ?_
    rintro rfl
    exact absurd hm (by decide)
  · rintro rfl hinh
    rcases exec_iret_cases h with ⟨-, rfl⟩ | ⟨hout, -⟩
    · exact interruptReturn_flags s
    · rw [hinh] at hout; cases hout
  · rintro rfl hinh
    rcases exec_iret_cases h with ⟨hin, -⟩ | ⟨-, rfl⟩
    · rw [hinh] at hin; cases hin
    · rfl
  · refine exec_keeps (f := .flags) h fun hmem => ?_
    rcases (flags_mem_cpuWrites_iff _).1 hmem with hwriter | hiret
    · exact hm hwriter
    · exact hi ((mnemonic_eq_iret_iff i).1 hiret)
  · exact keeps_interruptEntry (f := .flags) n (by simp)

/-! ## RUN, IE and the handler context (10_state.md R18 to R20) -/

theorem exec_run {i : Instr} {s t : State} (h : exec i s = .next t) :
    t.run = if i = .halt ∨ i = .syscall 0 then .halted else s.run := by
  cases i with
  | halt => cases h; rfl
  | syscall v =>
    cases h
    by_cases hv : v = 0
    · subst hv
      rfl
    · rw [if_neg hv, if_neg (by simpa using hv)]
      rfl
  | _ =>
    rw [if_neg (by simp)]
    exact exec_keeps (f := .run) h (by simp [Instr.mnemonic, cpuWrites])

theorem exec_ie {i : Instr} {s t : State} (h : exec i s = .next t) :
    t.intc.ie = if i = .ei then true else if i = .di then false else s.intc.ie := by
  cases i with
  | ei | di => cases h; rfl
  | _ =>
    rw [if_neg (by simp), if_neg (by simp)]
    exact exec_keeps (f := .ie) h (by simp [Instr.mnemonic, cpuWrites])

theorem exec_inh {i : Instr} {s t : State} (h : exec i s = .next t) :
    t.inh = if i = .iret then false else s.inh := by
  cases i with
  | iret =>
    rcases exec_iret_cases h with ⟨-, rfl⟩ | ⟨hout, rfl⟩
    · rfl
    · exact hout
  | _ =>
    rw [if_neg (by simp)]
    exact exec_keeps (f := .inh) h (by simp [Instr.mnemonic, cpuWrites])

theorem poll_inh (s : State) :
    (poll s).inh = s.inh ∨ s.inh = false ∧ (poll s).inh = true ∧ ∃ n, poll s = interruptEntry s n := by
  rcases poll_cases s with ⟨hsame, -⟩ | ⟨n, hentry, -, -, -, hinh, -⟩
  · exact .inl (congrArg State.inh hsame)
  · exact .inr ⟨hinh, (congrArg State.inh hentry).trans rfl, n, hentry⟩

/-- Settles O57. -/
theorem enableAndContextWriters : Obligations.EnableAndContextWriters := by
  refine ⟨fun i s t h => ⟨exec_ie h, exec_inh h⟩, fun s => ⟨keeps_poll (f := .ie) (by simp), poll_inh s⟩,
    fun s bank im base t ht => ?_, fun c s t ht => ?_⟩
  · have hkeeps {f : CpuField} (hf : f ∉ [.pc, .ir]) : Keeps s t f := by
      simp only [List.mem_cons, List.not_mem_nil, or_false] at ht
      rcases ht with rfl | rfl | rfl | rfl
      · exact keeps_fetchInstr hf
      · exact keeps_unrecognized s f
      · exact keeps_turnBoundary s f
      · exact keeps_load s bank im base f
    exact ⟨hkeeps (f := .ie) (by simp), hkeeps (f := .inh) (by simp)⟩
  · simp only [List.mem_cons, List.not_mem_nil, or_false] at ht
    rcases ht with rfl | rfl
    · exact ⟨rfl, rfl⟩
    · exact ⟨rfl, rfl⟩

end Sys2Proof.Machine
end

section
/-! The step (40_execution_cycle.md): what it runs, when it has a next state, and what it does to a halted block. -/

namespace Sys2Proof.Machine

/-! ## The step by its fetch -/

theorem turnBoundary_run (s : State) : (turnBoundary s).run = s.run := keeps_turnBoundary s .run

theorem turnBoundary_pc (s : State) : (turnBoundary s).pc = s.pc := keeps_turnBoundary s .pc

theorem turnBoundary_cfg (s : State) : (turnBoundary s).cfg = s.cfg := (turnBoundary_effect s).1.cfg

/-- The rest of a step after an instruction's outcome. -/
def finishOutcome : Host.Outcome State Fault Refusal → Host.Outcome State Fault Refusal
  | .next t => finishStep t
  | .fault r => .fault r
  | .refused r => .refused r

theorem finishOutcome_eq (o : Host.Outcome State Fault Refusal) :
    finishOutcome o =
      match o with
      | .next t => if pollEnds t then .next (countStep (poll t)) else .refused .endlessTransfer
      | .fault r => .fault r
      | .refused r => .refused r := by
  cases o <;> rfl

theorem step_of_halted {s : State} (h : s.run = .halted) : step s = .next (countStep (turnBoundary s)) := by
  simp only [step, turnBoundary_run, h]

theorem step_of_unrecognized {s s1 : State} (h : s.run = .running)
    (hfetch : fetchInstr (turnBoundary s) = (none, s1)) : step s = finishStep (unrecognized s1) := by
  simp only [step, turnBoundary_run, h, hfetch]

theorem step_of_instr {s s1 : State} {i : Instr} (h : s.run = .running)
    (hfetch : fetchInstr (turnBoundary s) = (some i, s1)) : step s = finishOutcome (exec i s1) := by
  simp only [step, turnBoundary_run, h, hfetch]
  cases exec i s1 <;> rfl

theorem fetchOpcode_eq (s : State) :
    fetchOpcode s = ((memRead s s.pc).1, { (memRead s s.pc).2 with ir := (memRead s s.pc).1, pc := s.pc + 1 }) := by
  rw [fetchOpcode, fetch8_eq]

theorem fetchInstr_of_none {s : State} (h : s.cfg.opcodes.mnemonicOf (fetchOpcode s).1 = none) :
    fetchInstr s = (none, (fetchOpcode s).2) := by
  simp only [fetchInstr, h]

theorem fetchInstr_of_some {s : State} {m : Mnemonic} (h : s.cfg.opcodes.mnemonicOf (fetchOpcode s).1 = some m) :
    fetchInstr s =
      (some (m.toInstr (fetchOperand m.format (fetchOpcode s).2).1), (fetchOperand m.format (fetchOpcode s).2).2) := by
  simp only [fetchInstr, h]

/-! ## The bytes at `PC` -/

theorem bankByte_turnBoundary (s : State) (a : Word) : bankByte (turnBoundary s) a = bankByte s a := by
  obtain ⟨heffect, -, -⟩ := turnBoundary_effect s
  exact bankByte_congr heffect.cfg heffect.rom (congrArg (fun r : Ram => r.cells.read a.toNat) heffect.ram)

/-- The bytes from an address on lie in ROM or RAM. -/
abbrev BytesAt (s : State) (a : Word) (bs : List Byte) : Prop :=
  ∀ k, k < bs.length → bankByte s (a + BitVec.ofNat 16 k) = bs[k]?

theorem BytesAt.head {s : State} {a : Word} {b : Byte} {bs : List Byte} (h : BytesAt s a (b :: bs)) :
    bankByte s a = some b := by
  simpa using h 0 (by simp)

theorem BytesAt.tail {s : State} {a : Word} {b : Byte} {bs : List Byte} (h : BytesAt s a (b :: bs)) :
    BytesAt s (a + 1) bs := by
  intro k hk
  have hnext : a + 1 + BitVec.ofNat 16 k = a + BitVec.ofNat 16 (k + 1) := by
    rw [BitVec.add_assoc, BitVec.ofNat_add k 1]
    exact congrArg (a + ·) (BitVec.add_comm _ _)
  rw [hnext, h (k + 1) (by simpa using hk), List.getElem?_cons_succ]

/-- An operand whose bytes lie in ROM or RAM is fetched without any effect but the advance of `PC`. -/
theorem fetchOperand_of_bytes {f : Format} {bs : List Byte} {w : Word} {s : State}
    (h : f.operand bs = some (w, [])) (hbytes : BytesAt s s.pc bs) :
    fetchOperand f s = (w, { s with pc := s.pc + BitVec.ofNat 16 bs.length }) := by
  match f, bs with
  | .op, [] => cases h; simp [fetchOperand]
  | .op, _ :: _ => cases h
  | .opI8, [] => cases h
  | .opI8, [v] =>
    cases h
    simp only [fetchOperand, fetch8_bank hbytes.head]
    rfl
  | .opI8, _ :: _ :: _ => cases h
  | .opI16, [] => cases h
  | .opI16, [_] => cases h
  | .opI16, [lo, hi] =>
    cases h
    have hlo := fetch8_bank hbytes.head
    have hhi := fetch8_bank (s := { s with pc := s.pc + 1 }) (v := hi) hbytes.tail.head
    have hpc : s.pc + 1 + 1 = s.pc + 2 := BitVec.add_assoc s.pc 1 1
    simp only [fetchOperand, fetch16, hlo, hhi, hpc]
    rfl
  | .opI16, _ :: _ :: _ :: _ => cases h

/-- Bytes at `PC` that decode to an instruction are fetched as that instruction. -/
theorem fetchInstr_of_bytes {s : State} {op : Byte} {bs : List Byte} {i : Instr}
    (hdecode : decode s.cfg.opcodes (op :: bs) = .instr i []) (hbytes : BytesAt s s.pc (op :: bs)) :
    fetchInstr s = (some i, { s with pc := s.pc + BitVec.ofNat 16 (op :: bs).length, ir := op }) := by
  obtain ⟨_, _, m, w, hcons, hm, hw, rfl⟩ := decode_instr hdecode
  obtain ⟨rfl, rfl⟩ := List.cons.inj hcons
  have hop : fetchOpcode s = (op, { s with ir := op, pc := s.pc + 1 }) := by
    rw [fetchOpcode_eq, memRead_bank hbytes.head]
  have hoperand := fetchOperand_of_bytes (s := { s with ir := op, pc := s.pc + 1 }) hw hbytes.tail
  have hpc : s.pc + 1 + BitVec.ofNat 16 bs.length = s.pc + BitVec.ofNat 16 (op :: bs).length := by
    rw [BitVec.add_assoc, List.length_cons, BitVec.ofNat_add bs.length 1]
    exact congrArg (s.pc + ·) (BitVec.add_comm _ _)
  rw [fetchInstr_of_some (m := m) (by rw [hop]; exact hm), hop, hoperand, ← hpc]

/-- Settles O5. -/
theorem stepRunsDecodedInstruction : Obligations.StepRunsDecodedInstruction := by
  intro s op bs i hrun hdecode hbytes
  have hbytes' : BytesAt (turnBoundary s) (turnBoundary s).pc (op :: bs) := by
    intro k hk
    rw [bankByte_turnBoundary, turnBoundary_pc]
    exact hbytes k hk
  have hfetch := fetchInstr_of_bytes (s := turnBoundary s) (by rwa [turnBoundary_cfg]) hbytes'
  rw [turnBoundary_pc] at hfetch
  exact (step_of_instr hrun hfetch).trans (finishOutcome_eq _)

/-- Settles O6: the two cases of the opcode byte, and in the first the three formats. -/
theorem executeLooksUpOpcode : Obligations.ExecuteLooksUpOpcode := by
  intro s hrun s0 r s1 finish
  rw [turnBoundary_run] at hrun
  have hop : fetchOpcode s0 = (r.1, s1) := fetchOpcode_eq s0
  have hcfg : s0.cfg = s.cfg := turnBoundary_cfg s
  cases hm : s.cfg.opcodes.mnemonicOf r.1 with
  | none =>
    have hfetch := fetchInstr_of_none (s := s0) (by rw [hcfg, hop]; exact hm)
    rw [hop] at hfetch
    exact step_of_unrecognized hrun hfetch
  | some m =>
    have hfetch := fetchInstr_of_some (s := s0) (by rw [hcfg, hop]; exact hm)
    rw [hop] at hfetch
    exact (step_of_instr hrun hfetch).trans (finishOutcome_eq _)

end Sys2Proof.Machine
end

section
/-! When a step has a next state (40_execution_cycle.md section 2; entry 4). Only a bus write can fail to end, and only
where the DMA engine may trigger itself. -/

namespace Sys2Proof.Machine

/-- The instructions that write through the bus. -/
abbrev busWriters : List Mnemonic :=
  [.MOV_MEM_A, .MOV_MEM_B, .MOV_MEM_C, .MOV_MEM_D, .PUSH_A, .PUSH_B, .PUSH_C, .PUSH_D]

/-- An instruction has a next state, or it writes through the bus and has one if that write ends. -/
theorem exec_next_or_write (i : Instr) (s : State) :
    (∃ t, exec i s = .next t) ∨
    i.mnemonic ∈ busWriters ∧ ∃ a t, exec i s = nextIf (writeEnds s a) t := by
  cases i with
  | movMemA | movMemB | movMemC | movMemD | pushA | pushB | pushC | pushD =>
    exact .inr ⟨by simp [Instr.mnemonic], _, _, rfl⟩
  | _ => exact .inl ⟨_, rfl⟩

theorem exec_next_of_plain (i : Instr) {s : State} (h : ¬ SelfTriggering s) : ∃ t, exec i s = .next t := by
  rcases exec_next_or_write i s with hnext | ⟨-, a, t, hwrite⟩
  · exact hnext
  · exact ⟨t, by rw [hwrite, writeEnds_of_plain a h, nextIf_true]⟩

/-- No address port of the DMA engine is its trigger. -/
abbrev PlainPorts (c : Cfg) : Prop := c.dmaSrcAddrLoPort ≠ 7 ∧ c.dmaSrcAddrHiPort ≠ 7

theorem not_selfTriggering {s : State} (h : PlainPorts s.cfg) : ¬ SelfTriggering s :=
  fun ⟨_, hport⟩ => hport.elim h.1 h.2

theorem writeEnds_of_plainPorts {s : State} (a : Word) (h : PlainPorts s.cfg) : writeEnds s a = true :=
  writeEnds_of_plain a (not_selfTriggering h)

theorem push8_cfg (s : State) (v : Byte) : (push8 s v).cfg = s.cfg := (push8_effect s v).cfg

theorem entryEnds_of_plainPorts {s : State} (n : Fin 8) (h : PlainPorts s.cfg) : entryEnds s n = true := by
  rw [entryEnds_eq]
  have ends {u : State} (hcfg : u.cfg = s.cfg) (a : Word) : writeEnds u a = true :=
    writeEnds_of_plainPorts a (hcfg.symm ▸ h)
  simp only [Bool.and_eq_true]
  exact ⟨⟨⟨ends (setLine_cfg s n _) _, ends (by rw [push8_cfg, setLine_cfg]) _⟩,
    ends (by simp only [push8_cfg, setLine_cfg]) _⟩, ends (by simp only [push8_cfg, setLine_cfg]) _⟩

theorem finishStep_of_plainPorts {s : State} (h : PlainPorts s.cfg) : finishStep s = .next (endStep s) := by
  have hends : pollEnds s = true := by
    rcases poll_cases s with ⟨-, hends⟩ | ⟨n, -, hends, -⟩
    · exact hends
    · rw [hends, entryEnds_of_plainPorts n h]
  rw [finishStep, hends, nextIf_true]

theorem finishStep_cases (s : State) :
    finishStep s = .next (endStep s) ∨ finishStep s = .refused .endlessTransfer := by
  rw [finishStep]
  cases pollEnds s
  · exact .inr rfl
  · exact .inl rfl

/-- A step of a running CPU is the step of what it fetches. -/
theorem step_of_running {s : State} (h : s.run = .running) :
    ∃ s1, (fetchInstr (turnBoundary s)).2 = s1 ∧
      (step s = finishStep (unrecognized s1) ∨ ∃ i, step s = finishOutcome (exec i s1)) := by
  refine ⟨_, rfl, ?_⟩
  cases hfetch : fetchInstr (turnBoundary s) with
  | mk o s1 =>
    cases o with
    | none => exact .inl (step_of_unrecognized h hfetch)
    | some i => exact .inr ⟨i, step_of_instr h hfetch⟩

theorem step_next_of_plainPorts {s : State} (h : PlainPorts s.cfg) : ∃ t, step s = .next t := by
  cases hrun : s.run with
  | halted => exact ⟨_, step_of_halted hrun⟩
  | running =>
    obtain ⟨s1, hs1, hstep⟩ := step_of_running hrun
    have hcfg : s1.cfg = s.cfg := by rw [← hs1, (fetchInstr_effect _).cfg]; exact turnBoundary_cfg s
    rw [← hcfg] at h
    rcases hstep with hstep | ⟨i, hstep⟩
    · exact ⟨_, hstep.trans (finishStep_of_plainPorts (s := unrecognized s1) h)⟩
    · obtain ⟨u, hu⟩ := exec_next_of_plain i (not_selfTriggering h)
      rw [← (exec_bus hu).cfg] at h
      exact ⟨_, by rw [hstep, hu]; exact finishStep_of_plainPorts h⟩

/-- The only outcome of an instruction beside a next state is the refusal of entry 4. -/
theorem exec_next_or_refused (i : Instr) (s : State) :
    (∃ t, exec i s = .next t) ∨ exec i s = .refused .endlessTransfer := by
  rcases exec_next_or_write i s with hnext | ⟨-, a, t, hwrite⟩
  · exact .inl hnext
  · rw [hwrite]
    cases writeEnds s a
    · exact .inr rfl
    · exact .inl ⟨t, rfl⟩

theorem step_next_or_refused (s : State) : (∃ t, step s = .next t) ∨ step s = .refused .endlessTransfer := by
  have finish (u : State) : (∃ t, finishStep u = .next t) ∨ finishStep u = .refused .endlessTransfer :=
    (finishStep_cases u).imp_left fun h => ⟨_, h⟩
  cases hrun : s.run with
  | halted => exact .inl ⟨_, step_of_halted hrun⟩
  | running =>
    obtain ⟨s1, -, hstep | ⟨i, hstep⟩⟩ := step_of_running hrun
    · rw [hstep]
      exact finish _
    · rw [hstep]
      rcases exec_next_or_refused i s1 with ⟨u, hu⟩ | hrefused
      · rw [hu]
        exact finish u
      · rw [hrefused]
        exact .inr rfl

/-- Settles O8. -/
theorem everyStepCompletes : Obligations.EveryStepCompletes := by
  refine ⟨fun i s => exec_next_of_plain i, fun i s hi => ?_, fun s hlo hhi => step_next_of_plainPorts ⟨hlo, hhi⟩,
    step_next_or_refused⟩
  rcases exec_next_or_write i s with hnext | ⟨hmem, -⟩
  · exact hnext
  · exact absurd hmem hi

end Sys2Proof.Machine
end

section
/-! A halted block (40_execution_cycle.md section 2, D12): what a tick does to it, and what halts it. -/

namespace Sys2Proof.Machine

/-! ## Requests in a row -/

/-- A line is pending after the requests if it was, or if it was idle and is among them. -/
theorem lineOf_requestAll (s : State) (ns : List Nat) (n : Fin 8) :
    lineOf (requestAll s ns) n = if lineOf s n = .idle ∧ n.val ∈ ns then .pending else lineOf s n := by
  induction ns generalizing s with
  | nil => simp [requestAll]
  | cons m ms ih =>
    refine (ih (requestInterrupt s m)).trans ?_
    by_cases hm : n.val = m
    · subst hm
      by_cases hidle : lineOf s n = .idle
      · simp [requestInterrupt_of_idle hidle, hidle]
      · simp [requestInterrupt_of_not_idle hidle, hidle]
    · have hother : lineOf (requestInterrupt s m) n = lineOf s n := by
        rcases requestInterrupt_effect s m with hs | ⟨hlt, -, hs⟩
        · rw [hs]
        · rw [hs, lineOf_setLine_ne s .pending fun e => hm (congrArg Fin.val e.symm)]
      simp [hother, hm]

theorem turnBoundary_inside {s : State} (h : s.turnStep ≠ 0) : turnBoundary s = s := if_neg h

theorem turnBoundary_start {s : State} (h : s.turnStep = 0) : turnBoundary s =
    requestAll { s with env := { s.env with boundary := s.env.boundary.tail } } (s.env.boundary.headD []) := if_pos h

theorem lineOf_turnBoundary (s : State) (n : Fin 8) :
    lineOf (turnBoundary s) n =
      if s.turnStep = 0 ∧ lineOf s n = .idle ∧ n.val ∈ s.env.boundary.headD [] then .pending else lineOf s n := by
  by_cases h : s.turnStep = 0
  · rw [turnBoundary_start h, lineOf_requestAll]
    simp only [h, true_and]
    rfl
  · rw [turnBoundary_inside h, if_neg fun hand => h hand.1]

/-- A turn boundary, written out. -/
theorem turnBoundary_eq (s : State) :
    turnBoundary s =
      { s with intc := { s.intc with lines := (turnBoundary s).intc.lines }, env := (turnBoundary s).env } := by
  obtain ⟨heffect, hdiag, -⟩ := turnBoundary_effect s
  generalize turnBoundary s = t at *
  have h := heffect.eq
  rwa [hdiag] at h

theorem countStep_of_halted {s : State} (h : s.run = .halted) : countStep s = { s with turnStep := 0 } := by
  simp only [countStep, h, true_or, if_true]

/-- Settles O10. -/
theorem haltedTickOnlyLatches : Obligations.HaltedTickOnlyLatches := by
  intro s hrun
  have hcount : countStep (turnBoundary s) = { turnBoundary s with turnStep := 0 } :=
    countStep_of_halted ((turnBoundary_run s).trans hrun)
  obtain ⟨-, -, henv⟩ := turnBoundary_effect s
  refine ⟨_, step_of_halted hrun, ?_, fun hinside => ?_, lineOf_turnBoundary s⟩
  · rw [hcount, ← henv]
    conv_lhs => rw [turnBoundary_eq s]
  · rw [hcount, turnBoundary_inside hinside]

/-- A step of a halted CPU leaves it halted. -/
theorem step_halted_run {s t : State} (h : step s = .next t) (hrun : s.run = .halted) : t.run = .halted := by
  rw [step_of_halted hrun] at h
  cases h
  have hcount : (countStep (turnBoundary s)).run = (turnBoundary s).run := keeps_countStep (turnBoundary s) .run
  rw [hcount, turnBoundary_run, hrun]

/-- Settles O9. -/
theorem runStateChanges : Obligations.RunStateChanges := by
  refine ⟨fun i s t => exec_run, fun s => ⟨rfl, keeps_poll (f := .run) (by simp), turnBoundary_run s,
    keeps_fetchInstr (f := .run) (by simp)⟩, fun s t => step_halted_run, fun s bank im base =>
    keeps_load s bank im base .run, fun s hrun => ⟨poll_halted hrun, ?_⟩, fun c s => ⟨rfl, rfl⟩⟩
  refine ⟨_, step_of_halted hrun, ?_⟩
  have hcount : countStep (turnBoundary s) = { turnBoundary s with turnStep := 0 } :=
    countStep_of_halted ((turnBoundary_run s).trans hrun)
  rw [hcount]
  conv_lhs => rw [turnBoundary_eq s]

end Sys2Proof.Machine
end

section
/-! What a whole step keeps: the configuration, the Rom bank, the log so far, the order of the Ram bank
(10_state.md sections 5 and 6), and with them the invariant. -/

namespace Sys2Proof.Machine

/-! ## The frame of a step -/

/-- What a step does to the configuration, the two banks and `DIAG`. -/
structure BankEffect (s t : State) : Prop where
  cfg : t.cfg = s.cfg
  rom : t.rom = s.rom
  diag : s.diag <+: t.diag
  ramOk : RamOk s → RamOk t

theorem BankEffect.trans {s t u : State} (h : BankEffect s t) (g : BankEffect t u) : BankEffect s u :=
  ⟨g.cfg.trans h.cfg, g.rom.trans h.rom, h.diag.trans g.diag, fun hs => g.ramOk (h.ramOk hs)⟩

theorem BusEffect.toBank {s t : State} (h : BusEffect s t) : BankEffect s t := ⟨h.cfg, h.rom, h.diag, h.ramOk⟩

theorem turnBoundary_bank (s : State) : BankEffect s (turnBoundary s) :=
  have h := (turnBoundary_effect s).1.toBus
  ⟨h.cfg, h.rom, h.diag, h.ramOk⟩

theorem fetchInstr_bank (s : State) : BankEffect s (fetchInstr s).2 :=
  have h := (fetchInstr_effect s).toBus
  ⟨h.cfg, h.rom, h.diag, h.ramOk⟩

theorem poll_bank (s : State) : BankEffect s (poll s) := by
  rcases poll_bus s with h | ⟨n, -, -, h⟩
  · rw [h]
    exact (BusEffect.refl s).toBank
  · exact ⟨h.cfg, h.rom, h.diag, h.ramOk⟩

theorem countStep_bank (s : State) : BankEffect s (countStep s) := ⟨rfl, rfl, List.prefix_rfl, id⟩

/-- The state a step's effect leaves before the poll: a fetch, then the instruction or the diagnostic. -/
theorem step_before_poll {s t : State} (h : step s = .next t) :
    s.run = .halted ∧ t = countStep (turnBoundary s) ∨
    s.run = .running ∧ ∃ u, t = endStep u ∧ BusEffect (fetchInstr (turnBoundary s)).2 u ∧
      (u = unrecognized (fetchInstr (turnBoundary s)).2 ∨ ∃ i, exec i (fetchInstr (turnBoundary s)).2 = .next u) := by
  rcases step_cases h with ⟨hrun, ht⟩ | ⟨hrun, ⟨-, ht⟩ | ⟨i, u, -, hu, ht⟩⟩
  · exact .inl ⟨(turnBoundary_run s).symm.trans hrun, ht⟩
  · exact .inr ⟨(turnBoundary_run s).symm.trans hrun, _, ht, busEffect_addDiag _ _, .inl rfl⟩
  · exact .inr ⟨(turnBoundary_run s).symm.trans hrun, u, ht, exec_bus hu, .inr ⟨i, hu⟩⟩

theorem step_bank {s t : State} (h : step s = .next t) : BankEffect s t := by
  rcases step_before_poll h with ⟨-, rfl⟩ | ⟨-, u, rfl, hu, -⟩
  · exact (turnBoundary_bank s).trans (countStep_bank _)
  · exact ((((turnBoundary_bank s).trans (fetchInstr_bank _)).trans hu.toBank).trans (poll_bank u)).trans
      (countStep_bank _)

/-- Settles O52, by induction on the run. -/
theorem runKeepsRomAndLog : Obligations.RunKeepsRomAndLog := by
  intro s t h
  have heffect : BankEffect s t := by
    induction h with
    | refl => exact (BusEffect.refl s).toBank
    | step _ hstep ih => exact ih.trans (step_bank hstep)
  exact ⟨heffect.cfg, heffect.rom, heffect.diag⟩

/-! ## IR (10_state.md R13) -/

theorem exec_ir {i : Instr} {s t : State} (h : exec i s = .next t) : t.ir = s.ir :=
  exec_keeps (f := .ir) h (by cases i.mnemonic <;> simp [cpuWrites])

/-- Settles O56. -/
theorem opcodeStaysInIr : Obligations.OpcodeStaysInIr := by
  refine ⟨fun i s t => exec_ir, fun s t h => ?_⟩
  rcases step_before_poll h with ⟨hrun, rfl⟩ | ⟨hrun, u, rfl, -, hu⟩
  · exact ⟨fun hrunning => absurd (hrun.symm.trans hrunning) (by decide), fun _ => keeps_turnBoundary s .ir⟩
  · refine ⟨fun _ => ?_, fun hhalted => absurd (hrun.symm.trans hhalted) (by decide)⟩
    have hend : (endStep u).ir = u.ir := keeps_endStep (f := .ir) (by simp)
    have hbefore : u.ir = (fetchInstr (turnBoundary s)).2.ir := by
      rcases hu with rfl | ⟨i, hexec⟩
      · rfl
      · exact exec_ir hexec
    calc (endStep u).ir = (fetchInstr (turnBoundary s)).2.ir := hend.trans hbefore
      _ = (fetchOpcode (turnBoundary s)).1 := (fetchInstr_effect (turnBoundary s)).ir
      _ = (memRead (turnBoundary s) s.pc).1 := by rw [fetchOpcode_eq, turnBoundary_pc]

/-! ## The parts of the invariant -/

theorem RomOk.congr {s t : State} (hcfg : t.cfg = s.cfg) (hrom : t.rom = s.rom) (h : RomOk s) : RomOk t := by
  unfold RomOk at *
  rw [hcfg, hrom]
  exact h

/-- Fewer lines in service than before, if none went into service. -/
theorem servicingCount_le {s t : State} (h : ∀ n, lineOf t n = .servicing → lineOf s n = .servicing) :
    servicingCount t ≤ servicingCount s := by
  refine (List.monotone_filter_right lineNumbers fun n hn => ?_).length_le
  simp only [beq_iff_eq] at hn ⊢
  exact h n hn

/-- One line put into service when none was. -/
theorem servicingCount_setLine_le {s : State} (n : Fin 8) (h : anyServicing s = false) :
    servicingCount (setLine s n .servicing) ≤ 1 := by
  have hnodup : (lineNumbers.filter fun m => lineOf (setLine s n .servicing) m == .servicing).Nodup :=
    (show lineNumbers.Nodup by decide).filter _
  refine (hnodup.subperm (l₂ := [n]) fun m hm => ?_).length_le
  by_contra hmn
  have hne : n ≠ m := fun e => hmn (List.mem_singleton.2 e.symm)
  simp only [List.mem_filter, beq_iff_eq, lineOf_setLine_ne s .servicing hne] at hm
  exact absurd ((anyServicing_eq_true_iff s).2 ⟨m, hm.2⟩) (by simp [h])

theorem poll_lines {s : State} (h : LinesOk s) : LinesOk (poll s) := by
  rcases poll_bus s with hsame | ⟨n, hany, -, hbus⟩
  · rwa [hsame]
  · exact (servicingCount_le hbus.lines).trans (servicingCount_setLine_le n hany)

theorem turnBoundary_lines {s : State} (h : LinesOk s) : LinesOk (turnBoundary s) :=
  (servicingCount_le (turnBoundary_effect s).1.toBus.lines).trans h

theorem step_lines {s t : State} (hs : LinesOk s) (h : step s = .next t) : LinesOk t := by
  rcases step_before_poll h with ⟨-, rfl⟩ | ⟨-, u, rfl, hu, -⟩
  · exact turnBoundary_lines hs
  · have hfetch : LinesOk (fetchInstr (turnBoundary s)).2 :=
      (servicingCount_le (fetchInstr_effect (turnBoundary s)).toBus.lines).trans (turnBoundary_lines hs)
    exact poll_lines ((servicingCount_le hu.lines).trans hfetch)

theorem FlagsOk.congr {s t : State} (hflags : t.flags = s.flags) (h : FlagsOk s) : FlagsOk t := by
  unfold FlagsOk at *
  rwa [hflags]

/-- An instruction leaves `FLAGS`, computes it, or restores it masked. -/
theorem exec_flagsOk {i : Instr} {s t : State} (hs : FlagsOk s) (h : exec i s = .next t) : FlagsOk t := by
  by_cases hf : .flags ∈ cpuWrites i.mnemonic
  · by_cases hi : i = .iret
    · subst hi
      rcases exec_iret_cases h with ⟨-, rfl⟩ | ⟨-, rfl⟩
      · obtain ⟨x, f, p, heffect⟩ := interruptReturn_effect s
        exact FlagsOk.congr heffect.flags (flagsOk_restored f)
      · exact hs
    · obtain ⟨z, c, hflags⟩ := exec_flags h hf hi
      unfold FlagsOk
      rw [hflags]
      exact flagsOk_flagsByte z c
  · exact FlagsOk.congr (exec_keeps (f := .flags) h hf) hs

theorem step_flagsOk {s t : State} (hs : FlagsOk s) (h : step s = .next t) : FlagsOk t := by
  rcases step_before_poll h with ⟨-, rfl⟩ | ⟨-, u, rfl, -, hu⟩
  · exact FlagsOk.congr (keeps_turnBoundary s .flags) hs
  · have hfetch : FlagsOk (fetchInstr (turnBoundary s)).2 :=
      FlagsOk.congr ((keeps_turnBoundary s .flags).trans (keeps_fetchInstr (f := .flags) (by simp))) hs
    have hflags : FlagsOk u := by
      rcases hu with rfl | ⟨i, hexec⟩
      · exact hfetch
      · exact exec_flagsOk hfetch hexec
    exact FlagsOk.congr (keeps_endStep (f := .flags) (by simp)) hflags

/-! ## The turn counter (40_execution_cycle.md R100; entry 8) -/

theorem stepsPerTick_pos (c : Cfg) : 1 ≤ c.stepsPerTick := by
  have hwf := c.ok
  simp only [CfgData.wf, CfgData.countsOk, Bool.and_eq_true, decide_eq_true_eq] at hwf
  omega

theorem poll_turnStep (s : State) : (poll s).turnStep = s.turnStep := by
  rcases poll_bus s with h | ⟨n, -, -, h⟩
  · rw [h]
  · exact h.turnStep

theorem turnBoundary_turnStep (s : State) : (turnBoundary s).turnStep = s.turnStep :=
  (turnBoundary_effect s).1.turnStep

/-- A step counts itself, and the turn ends when it is full or the CPU is halted. -/
theorem step_turnStep {s t : State} (h : step s = .next t) :
    t.turnStep = if t.run = .halted ∨ s.cfg.stepsPerTick ≤ s.turnStep + 1 then 0 else s.turnStep + 1 := by
  have hcount {u : State} (hcfg : u.cfg = s.cfg) (hturn : u.turnStep = s.turnStep) : (countStep u).turnStep =
      if (countStep u).run = .halted ∨ s.cfg.stepsPerTick ≤ s.turnStep + 1 then 0 else s.turnStep + 1 := by
    rw [← hcfg, ← hturn]
    rfl
  rcases step_before_poll h with ⟨-, rfl⟩ | ⟨-, u, rfl, hu, -⟩
  · exact hcount (turnBoundary_cfg s) (turnBoundary_turnStep s)
  · have hfetch := fetchInstr_effect (turnBoundary s)
    refine hcount ?_ ?_
    · rw [(poll_bank u).cfg, hu.cfg, hfetch.cfg]
      exact turnBoundary_cfg s
    · rw [poll_turnStep, hu.turnStep, hfetch.turnStep]
      exact turnBoundary_turnStep s

theorem step_turn {s t : State} (h : step s = .next t) : TurnOk t := by
  have hpos := stepsPerTick_pos s.cfg
  unfold TurnOk
  rw [step_turnStep h, (step_bank h).cfg]
  split
  · exact hpos
  · omega

/-! ## The invariant -/

/-- Settles O49: each part of the invariant by its own lemma. -/
theorem stepKeepsInvariant : Obligations.StepKeepsInvariant := by
  intro s t hs h
  have hbank := step_bank h
  exact ⟨RomOk.congr hbank.cfg hbank.rom hs.rom, hbank.ramOk hs.ram, step_flagsOk hs.flags h, step_lines hs.lines h,
    step_turn h⟩

theorem inv_coldReset (c : Cfg) : Inv (coldReset c) where
  rom := ⟨rfl, by simp [coldReset]⟩
  ram := ⟨rfl, by simp [coldReset], by simp [coldReset], by simp [coldReset], Nat.zero_le _⟩
  flags := flagsOk_flagsByte false false
  lines := Nat.zero_le 1
  turn := stepsPerTick_pos c

/-- Settles O50. -/
theorem resetMeetsInvariant : Obligations.ResetMeetsInvariant := ⟨inv_coldReset, inv_coldReset refCfg⟩

theorem inv_warmReset {s : State} (h : Inv s) : Inv (warmReset s) where
  rom := h.rom
  ram := h.ram
  flags := flagsOk_flagsByte false false
  lines := Nat.zero_le 1
  turn := stepsPerTick_pos s.cfg

theorem Inv.of_read {s t : State} (h : ReadEffect s t) (hs : Inv s) : Inv t where
  rom := RomOk.congr h.cfg h.rom hs.rom
  ram := RamOk.congr h.cfg h.ram hs.ram
  flags := FlagsOk.congr h.flags hs.flags
  lines := (servicingCount_le h.toBus.lines).trans hs.lines
  turn := by
    have hturn := hs.turn
    unfold TurnOk at *
    rwa [h.turnStep, h.cfg]

/-- A byte written into the Rom bank by a load keeps the bank in order. -/
theorem romOk_write {s : State} {x : Word} (v : Byte) (hx : inRom s.cfg x = true) (h : RomOk s) :
    RomOk { s with rom := s.rom.write x.toNat v } := by
  obtain ⟨hwf, hrange⟩ := h
  refine ⟨wf_write hwf _ _, fun cell hcell => ?_⟩
  rcases mem_write hcell with hold | ⟨rfl, -⟩
  · exact hrange cell hold
  · exact (inRom_iff s.cfg x).1 hx

theorem inv_loadEntry {s : State} (bank : Bank) (base : Word) (e : ImageEntry) (h : Inv s) :
    Inv (loadEntry bank base s e) := by
  simp only [loadEntry]
  split
  · rename_i haccept
    cases bank with
    | rom => exact ⟨romOk_write _ haccept h.rom, h.ram, h.flags, h.lines, h.turn⟩
    | ram =>
      have heffect := ramWrite_writeEffect (s := s) e.value haccept
      exact ⟨RomOk.congr heffect.cfg heffect.rom h.rom, heffect.ramOk h.ram, FlagsOk.congr heffect.flags h.flags,
        (servicingCount_le heffect.lines).trans h.lines, by
          have hturn := h.turn
          unfold TurnOk at *
          rwa [heffect.turnStep, heffect.cfg]⟩
  · exact h

theorem inv_load {s : State} (bank : Bank) (im : Image) (base : Word) (h : Inv s) : Inv (load s bank im base) := by
  unfold load
  induction imageEntries im generalizing s with
  | nil => exact h
  | cons e es ih => exact ih (inv_loadEntry bank base e h)

/-- Settles O51. -/
theorem hostKeepsInvariant : Obligations.HostKeepsInvariant := fun s h =>
  ⟨inv_warmReset h, fun n => h.of_read (readEffect_requestInterrupt s n), fun bank im base => inv_load bank im base h⟩

end Sys2Proof.Machine
end

section
/-! Reset and loading (10_state.md section 8, 70_reset_and_hazards.md sections 1 and 2). -/

namespace Sys2Proof.Machine

theorem lineOf_coldReset (c : Cfg) (n : Fin 8) : lineOf (coldReset c) n = .idle := by
  simp [lineOf, coldReset]

/-- Both banks are empty after a cold reset, so every byte is the unlisted one. -/
theorem bankByte_coldReset {c : Cfg} {a : Word} {v : Byte} (h : bankByte (coldReset c) a = some v) : v = 0x00 := by
  unfold bankByte at h
  split at h
  · cases h; rfl
  · cases h; rfl
  · cases h

/-- Settles O58. -/
theorem resetValues : Obligations.ResetValues :=
  ⟨fun c => ⟨rfl, rfl, rfl, rfl, rfl, rfl, rfl, rfl, rfl, rfl, rfl, rfl, rfl, lineOf_coldReset c, rfl, rfl, rfl, rfl,
    rfl, fun _ _ => bankByte_coldReset⟩, rfl, rfl, fun _ => rfl⟩

/-! ## Loading into ROM (R294) -/

theorem loadEntry_rom_of_accepted {base : Word} {s : State} {e : ImageEntry}
    (h : inRom s.cfg (base + e.address) = true) :
    loadEntry .rom base s e = { s with rom := s.rom.write (base + e.address).toNat e.value } := if_pos h

theorem loadEntry_rom_of_refused {base : Word} {s : State} {e : ImageEntry}
    (h : ¬ inRom s.cfg (base + e.address) = true) : loadEntry .rom base s e = s := if_neg h

/-- One entry loaded into ROM changes the Rom bank only, at the entry's address, if that is a ROM address. -/
theorem loadEntry_rom (base : Word) {s : State} (e : ImageEntry) (hw : Memory.wf s.rom = true) :
    ∃ m, loadEntry .rom base s e = { s with rom := m } ∧ Memory.wf m = true ∧
      ∀ x : Word, m.read x.toNat =
        if inRom s.cfg x = true ∧ base + e.address = x then e.value else romRead s x := by
  by_cases haccept : inRom s.cfg (base + e.address) = true
  · refine ⟨_, loadEntry_rom_of_accepted haccept, wf_write hw _ _, fun x => ?_⟩
    by_cases hx : base + e.address = x
    · subst hx
      rw [if_pos ⟨haccept, rfl⟩]
      exact read_write_self hw _ _
    · rw [if_neg fun h => hx h.2]
      exact read_write_other _ _ fun h => hx (BitVec.eq_of_toNat_eq h.symm)
  · refine ⟨s.rom, loadEntry_rom_of_refused haccept, hw, fun x => (if_neg ?_).symm⟩
    rintro ⟨hin, rfl⟩
    exact haccept hin

/-- The last byte a list of entries has for an address. -/
def lastByteFor (base : Word) (es : List ImageEntry) (x : Word) : Option Byte :=
  (es.filter fun e => base + e.address == x).getLast?.map ImageEntry.value

theorem lastByteFor_cons (base : Word) (e : ImageEntry) (es : List ImageEntry) (x : Word) (v : Byte) :
    (lastByteFor base (e :: es) x).getD v =
      (lastByteFor base es x).getD (if base + e.address = x then e.value else v) := by
  by_cases h : base + e.address = x
  · have hfilter : (e :: es).filter (fun e => base + e.address == x) =
        e :: es.filter (fun e => base + e.address == x) := List.filter_cons_of_pos (by simp [h])
    simp only [lastByteFor, hfilter, List.getLast?_cons, if_pos h]
    cases (es.filter fun e => base + e.address == x).getLast? <;> rfl
  · have hfilter : (e :: es).filter (fun e => base + e.address == x) =
        es.filter (fun e => base + e.address == x) := List.filter_cons_of_neg (by simp [h])
    simp only [lastByteFor, hfilter, if_neg h]

/-- Loading entries into ROM, one after the other. -/
theorem loadEntries_rom (base : Word) (es : List ImageEntry) {s : State} (hw : Memory.wf s.rom = true) :
    ∃ m, es.foldl (loadEntry .rom base) s = { s with rom := m } ∧
      ∀ x : Word, m.read x.toNat =
        if inRom s.cfg x = true then (lastByteFor base es x).getD (romRead s x) else romRead s x := by
  induction es generalizing s with
  | nil => exact ⟨s.rom, rfl, fun x => (ite_self _).symm⟩
  | cons e es ih =>
    obtain ⟨m1, hentry, hw1, hread1⟩ := loadEntry_rom base e hw
    obtain ⟨m, hrest, hread⟩ := ih (s := { s with rom := m1 }) hw1
    refine ⟨m, by rw [List.foldl_cons, hentry, hrest], fun x => ?_⟩
    have hmid : romRead { s with rom := m1 } x = m1.read x.toNat := rfl
    rw [hread x, hmid, hread1 x, lastByteFor_cons]
    by_cases hx : inRom s.cfg x = true <;> simp only [hx, true_and, false_and, if_true, if_false, Bool.false_eq_true]

/-- Settles O59. -/
theorem loadFillsRom : Obligations.LoadFillsRom := by
  intro s im base hw t
  obtain ⟨m, hload, hread⟩ := loadEntries_rom base (imageEntries im) hw
  have ht : t = { s with rom := m } := hload
  have hrom (x : Word) : romRead t x = m.read x.toNat := by rw [ht]; rfl
  refine ⟨by rw [ht], fun x hx => ?_, fun x hx => ?_, rfl⟩
  · rw [hrom, hread, if_pos hx]
    rfl
  · rw [hrom, hread, if_neg (by simp [hx])]

end Sys2Proof.Machine
end

section
/-! The DMA transfer (50_dma_and_devices.md section 2). A transfer that cannot trigger itself runs a total loop,
`copyLoop`: read a byte of the source device, store it, go on. What the loop does is proved once for each part of the
state, over the target addresses as a set (`InTarget`). -/

namespace Sys2Proof.Machine

/-! ## The three cases of a transfer (R230, R231) -/

theorem transferWith_of_empty (trigger : State → Option State) {s : State}
    (h : dmaLength s.dma.srcStart s.dma.srcEnd = 0) : transferWith trigger s = some s := if_pos h

theorem transferWith_of_outside (trigger : State → Option State) {s : State}
    (hn : dmaLength s.dma.srcStart s.dma.srcEnd ≠ 0)
    (hr : ¬ dmaInRange s.cfg s.dma.target (dmaLength s.dma.srcStart s.dma.srcEnd) = true) :
    transferWith trigger s =
      some (addDiag s (.dmaOutOfRange s.dma.target (dmaLength s.dma.srcStart s.dma.srcEnd))) :=
  (if_neg hn).trans (if_neg hr)

theorem transferWith_of_checked (trigger : State → Option State) {s : State}
    (hn : dmaLength s.dma.srcStart s.dma.srcEnd ≠ 0)
    (hr : dmaInRange s.cfg s.dma.target (dmaLength s.dma.srcStart s.dma.srcEnd) = true) :
    transferWith trigger s =
      dmaLoop trigger s.dma.dev.toNat (dmaLength s.dma.srcStart s.dma.srcEnd) s.dma.srcStart s.dma.target s :=
  (if_neg hn).trans (if_pos hr)

theorem transfer_of_result {s t : State} (h : transferWith (transferDepth 255) s = some t) : transfer s = t := by
  rw [transfer, transferResult_eq, h]
  rfl

theorem dmaInRange_iff (c : Cfg) (x : Word) (n : Nat) :
    dmaInRange c x n = true ↔ c.ramStart.toNat ≤ x.toNat ∧ x.toNat + n - 1 ≤ c.ramEnd.toNat := by
  simp only [dmaInRange, Bool.and_eq_true, decide_eq_true_eq]

theorem dmaLength_of_le {a b : Word} {n : Nat} (h : a.toNat ≤ b.toNat) (hn : n = b.toNat - a.toNat + 1) :
    dmaLength a b = n := by
  unfold dmaLength
  omega

/-- Settles O38. -/
theorem transferGuards : Obligations.TransferGuards := by
  refine fun s => ⟨fun hempty => ?_, fun n hle hn hout => ?_⟩
  · refine transfer_of_result (transferWith_of_empty _ ?_)
    unfold dmaLength
    omega
  · have hlength := dmaLength_of_le hle hn
    refine transfer_of_result ((transferWith_of_outside _ (by omega) ?_).trans (by rw [hlength]; rfl))
    rwa [hlength, dmaInRange_iff]

/-! ## The loop without a trigger -/

/-- The source byte of one iteration: the two address ports are driven with `a`, then the data port is read (R232). -/
def sourceByte (d : Nat) (a : Word) (s : State) : Byte × State :=
  let s1 := plainPortWrite s d s.cfg.dmaSrcAddrLoPort (lo8 a)
  let s2 := plainPortWrite s1 d s.cfg.dmaSrcAddrHiPort (hi8 a)
  portRead s2 d s.cfg.dmaSrcDataPort

/-- The transfer loop where no port written is a trigger (R232). -/
def copyLoop (d : Nat) : Nat → Word → Word → State → State
  | 0, _, _, s => s
  | n + 1, a, x, s => copyLoop d n (a + 1) (x + 1) (ramWrite (sourceByte d a s).2 x (sourceByte d a s).1)

theorem sourceByte_effect (d : Nat) (a : Word) (s : State) : WriteEffect s (sourceByte d a s).2 :=
  ((plainPortWrite_effect s d _ _).trans (plainPortWrite_effect _ d _ _)).trans (portRead_effect _ d _).toWrite

theorem sourceByte_cfg (d : Nat) (a : Word) (s : State) : (sourceByte d a s).2.cfg = s.cfg :=
  (sourceByte_effect d a s).cfg

/-- The loop of a transfer that drives no trigger is `copyLoop`. -/
theorem dmaLoop_eq_copyLoop (trigger : State → Option State) {d n : Nat} (a x : Word) {s : State}
    (h : ¬ (d = s.cfg.dmaDev ∧ (s.cfg.dmaSrcAddrLoPort = 7 ∨ s.cfg.dmaSrcAddrHiPort = 7))) :
    dmaLoop trigger d n a x s = some (copyLoop d n a x s) := by
  induction n generalizing a x s with
  | zero => rfl
  | succ n ih =>
    have hbyte : dmaByte trigger d a x s = some (ramWrite (sourceByte d a s).2 x (sourceByte d a s).1) :=
      dmaByte_plain trigger a x h
    rw [dmaLoop, hbyte, Option.bind_some, copyLoop]
    exact ih _ _ (by rwa [ramWrite_cfg, sourceByte_cfg])

/-- A transfer that cannot trigger itself, case by case. -/
theorem transfer_cases {s : State} (h : ¬ SelfTriggering s) :
    transfer s = s ∨
    transfer s = addDiag s (.dmaOutOfRange s.dma.target (dmaLength s.dma.srcStart s.dma.srcEnd)) ∨
    dmaInRange s.cfg s.dma.target (dmaLength s.dma.srcStart s.dma.srcEnd) = true ∧
      dmaLength s.dma.srcStart s.dma.srcEnd ≠ 0 ∧
      transfer s =
        copyLoop s.dma.dev.toNat (dmaLength s.dma.srcStart s.dma.srcEnd) s.dma.srcStart s.dma.target s := by
  by_cases hn : dmaLength s.dma.srcStart s.dma.srcEnd = 0
  · exact .inl (transfer_of_result (transferWith_of_empty _ hn))
  · by_cases hr : dmaInRange s.cfg s.dma.target (dmaLength s.dma.srcStart s.dma.srcEnd) = true
    · exact .inr (.inr ⟨hr, hn, transfer_of_result
        ((transferWith_of_checked _ hn hr).trans (dmaLoop_eq_copyLoop _ _ _ h))⟩)
    · exact .inr (.inl (transfer_of_result (transferWith_of_outside _ hn hr)))

/-- The case of a checked transfer that is not empty. -/
theorem transfer_of_checked {s : State} {n : Nat} (h : ¬ SelfTriggering s)
    (hle : s.dma.srcStart.toNat ≤ s.dma.srcEnd.toNat) (hn : n = s.dma.srcEnd.toNat - s.dma.srcStart.toNat + 1) (hlo : s.cfg.ramStart.toNat ≤ s.dma.target.toNat)
    (hhi : s.dma.target.toNat + n - 1 ≤ s.cfg.ramEnd.toNat) :
    transfer s = copyLoop s.dma.dev.toNat n s.dma.srcStart s.dma.target s := by
  have hlength := dmaLength_of_le hle hn
  have hchecked := transferWith_of_checked (s := s) (transferDepth 255) (by omega)
    (by rw [hlength, dmaInRange_iff]; exact ⟨hlo, hhi⟩)
  rw [hlength, dmaLoop_eq_copyLoop _ _ _ h] at hchecked
  exact transfer_of_result hchecked

/-! ## The target addresses -/

/-- The `n` addresses from `x` on. -/
def InTarget (x : Word) (n : Nat) (y : Word) : Prop := ∃ i, i < n ∧ y = x + BitVec.ofNat 16 i

theorem add_one_add (x : Word) (i : Nat) : x + 1 + BitVec.ofNat 16 i = x + BitVec.ofNat 16 (i + 1) := by
  rw [BitVec.add_assoc, BitVec.ofNat_add i 1]
  exact congrArg (x + ·) (BitVec.add_comm _ _)

theorem inTarget_of_next {x y : Word} {n : Nat} (h : InTarget (x + 1) n y) : InTarget x (n + 1) y := by
  obtain ⟨i, hi, rfl⟩ := h
  exact ⟨i + 1, by omega, add_one_add x i⟩

theorem inTarget_first (x : Word) (n : Nat) : InTarget x (n + 1) x := ⟨0, by omega, by simp⟩

/-- The first of several addresses is not among the following ones. -/
theorem not_inTarget_next {x : Word} {n : Nat} (hn : n < 65536) : ¬ InTarget (x + 1) n x := by
  rintro ⟨i, hi, he⟩
  rw [add_one_add] at he
  have hx := x.isLt
  have hnat := congrArg BitVec.toNat he
  simp only [BitVec.toNat_add, BitVec.toNat_ofNat] at hnat
  omega

theorem inTarget_iff {x y : Word} {n : Nat} (h : x.toNat + n ≤ 65536) :
    InTarget x n y ↔ x.toNat ≤ y.toNat ∧ y.toNat < x.toNat + n := by
  constructor
  · rintro ⟨i, hi, rfl⟩
    simp only [BitVec.toNat_add, BitVec.toNat_ofNat]
    omega
  · rintro ⟨hlo, hhi⟩
    refine ⟨y.toNat - x.toNat, by omega, BitVec.eq_of_toNat_eq ?_⟩
    simp only [BitVec.toNat_add, BitVec.toNat_ofNat]
    omega

/-- The target addresses of a transfer are RAM addresses. -/
abbrev TargetInRam (c : Cfg) (x : Word) (n : Nat) : Prop := ∀ y, InTarget x n y → inRam c y = true

theorem targetInRam_of_range {c : Cfg} {x : Word} {n : Nat} (hlo : c.ramStart.toNat ≤ x.toNat)
    (hhi : x.toNat + n - 1 ≤ c.ramEnd.toNat) (hn : n ≠ 0) : x.toNat + n ≤ 65536 ∧ TargetInRam c x n := by
  have hend := c.ramEnd.isLt
  have hbound : x.toNat + n ≤ 65536 := by omega
  refine ⟨hbound, fun y hy => ?_⟩
  obtain ⟨hylo, hyhi⟩ := (inTarget_iff hbound).1 hy
  simp only [inRam, Bool.and_eq_true, decide_eq_true_eq, BitVec.le_def]
  omega

/-! ## One store of the loop -/

/-- No port access changes the Ram bank. -/
theorem plainPortWrite_ram (s : State) (d p : Nat) (v : Byte) : (plainPortWrite s d p v).ram = s.ram := by
  unfold plainPortWrite
  split
  · unfold intcWrite
    split
    case h_3 =>
      rcases acknowledge_effect s v with h | ⟨_, h⟩
      · rw [h]
      · rw [h, setLine_ram]
    all_goals rfl
  · split
    · unfold dmaWrite
      split <;> rfl
    · split
      · exact (deviceAccess_effect s _).1.ram
      · rfl

theorem sourceByte_ram (d : Nat) (a : Word) (s : State) : (sourceByte d a s).2.ram = s.ram :=
  (portRead_effect _ d _).ram.trans ((plainPortWrite_ram _ d _ _).trans (plainPortWrite_ram s d _ _))

/-- A byte that left the Ram bank: its entry was evicted, which is diagnosed, and it reads as 0x00. -/
abbrev Evicted (s t : State) (b : Word) : Prop :=
  ramHas s b = true ∧ ramHas t b = false ∧ bankByte t b = some 0x00 ∧ .storageOverflow b ∈ t.diag

theorem bankByte_of_inRam {s : State} {a : Word} (h : inRam s.cfg a = true) : bankByte s a = some (ramRead s a) :=
  bankByte_ram (regionOf_of_inRam h)

/-- A store leaves every other byte or evicts it. -/
theorem ramWrite_other_or_evicted {s : State} {x b : Word} (v : Byte) (hb : b ≠ x) (hok : RamOk s) :
    bankByte (ramWrite s x v) b = bankByte s b ∨ Evicted s (ramWrite s x v) b := by
  by_cases hroom : HasRoom s x
  · exact .inl (bankByte_ramWrite_other v hb hroom)
  · obtain ⟨hw, -, hnodup, hin, hlength⟩ := hok
    simp only [HasRoom, not_or, ramHas_iff, not_lt] at hroom
    obtain ⟨hx, hlong⟩ := hroom
    have hfull : s.ram.order.length = s.cfg.ramMaxEntries := Nat.le_antisymm hlength hlong
    have hmax := ramMax_pos s.cfg
    obtain ⟨e, es, horder⟩ := List.exists_cons_of_length_pos (l := s.ram.order) (by omega)
    have hread := ramRead_ramWrite_of_full v hw hx horder hfull b
    rw [if_neg hb] at hread
    by_cases hbe : b = e
    · subst hbe
      have hmem : b ∈ s.ram.order := by simp [horder]
      have hwrite := ramWrite_absent_full v ((ramHas_eq_false_iff s x).2 hx) horder hfull
      refine .inr ⟨(ramHas_iff s b).2 hmem, (ramHas_eq_false_iff _ b).2 ?_, ?_, ?_⟩
      · rw [horder] at hnodup
        rw [hwrite]
        simpa [hb] using (List.nodup_cons.1 hnodup).1
      · rw [bankByte_of_inRam (by rw [ramWrite_cfg]; exact hin b hmem), hread, if_pos rfl]
      · rw [hwrite]
        simp
    · rw [if_neg hbe] at hread
      exact .inl (bankByte_congr (ramWrite_cfg s x v) (ramWrite_rom s x v) hread)

/-- The state after one iteration of the loop. -/
abbrev afterByte (d : Nat) (a x : Word) (s : State) : State := ramWrite (sourceByte d a s).2 x (sourceByte d a s).1

theorem afterByte_effect (d : Nat) (a : Word) {x : Word} {s : State} (hx : inRam s.cfg x = true) :
    WriteEffect s (afterByte d a x s) :=
  (sourceByte_effect d a s).trans (ramWrite_writeEffect _ (by rwa [sourceByte_cfg]))

theorem bankByte_sourceByte (d : Nat) (a : Word) (s : State) (b : Word) :
    bankByte (sourceByte d a s).2 b = bankByte s b :=
  have h := sourceByte_effect d a s
  bankByte_congr h.cfg h.rom (congrArg (fun r : Ram => r.cells.read b.toNat) (sourceByte_ram d a s))

theorem ramHas_sourceByte (d : Nat) (a : Word) (s : State) (b : Word) :
    ramHas (sourceByte d a s).2 b = ramHas s b := congrArg (fun r : Ram => r.order.contains b) (sourceByte_ram d a s)

theorem hasRoom_sourceByte {d : Nat} {a x : Word} {s : State} (h : HasRoom s x) : HasRoom (sourceByte d a s).2 x := by
  rwa [HasRoom, ramHas_sourceByte, sourceByte_ram, sourceByte_cfg]

theorem afterByte_order_length_le (d : Nat) (a x : Word) (s : State) :
    (afterByte d a x s).ram.order.length ≤ s.ram.order.length + 1 := by
  have h := ramWrite_order_length_le (sourceByte d a s).2 x (sourceByte d a s).1
  rwa [sourceByte_ram] at h

/-- One iteration, seen at another address than its target. -/
theorem afterByte_other (d : Nat) (a : Word) {x b : Word} {s : State} (hb : b ≠ x) (hok : RamOk s) :
    (HasRoom s x → bankByte (afterByte d a x s) b = bankByte s b) ∧
    (ramHas (afterByte d a x s) b = true → ramHas s b = true ∧ ramRead (afterByte d a x s) b = ramRead s b) ∧
    (bankByte (afterByte d a x s) b = bankByte s b ∨ Evicted s (afterByte d a x s) b) := by
  have hok1 := (sourceByte_effect d a s).ramOk hok
  have hread : ramRead (sourceByte d a s).2 b = ramRead s b :=
    congrArg (fun r : Ram => r.cells.read b.toNat) (sourceByte_ram d a s)
  refine ⟨fun hroom => ?_, fun hhas => ?_, ?_⟩
  · rw [bankByte_ramWrite_other _ hb (hasRoom_sourceByte hroom), bankByte_sourceByte]
  · obtain ⟨hbefore, hsame⟩ := ramWrite_keeps _ hok1 hb hhas
    exact ⟨(ramHas_sourceByte d a s b).symm.trans hbefore, hsame.trans hread⟩
  · have h := ramWrite_other_or_evicted (sourceByte d a s).1 hb hok1
    rwa [bankByte_sourceByte, Evicted, ramHas_sourceByte] at h

/-! ## The loop outside its target -/

theorem copyLoop_outside (d : Nat) {n : Nat} (a : Word) {x b : Word} {s : State} (hram : TargetInRam s.cfg x n)
    (hb : ¬ InTarget x n b) (hok : RamOk s) :
    (s.ram.order.length + n ≤ s.cfg.ramMaxEntries → bankByte (copyLoop d n a x s) b = bankByte s b) ∧
    (ramHas (copyLoop d n a x s) b = true → ramHas s b = true ∧ ramRead (copyLoop d n a x s) b = ramRead s b) ∧
    (bankByte (copyLoop d n a x s) b = bankByte s b ∨ Evicted s (copyLoop d n a x s) b) ∧
    s.diag <+: (copyLoop d n a x s).diag := by
  induction n generalizing a x s with
  | zero => exact ⟨fun _ => rfl, fun h => ⟨h, rfl⟩, .inl rfl, List.prefix_rfl⟩
  | succ n ih =>
    have hx : inRam s.cfg x = true := hram x (inTarget_first x n)
    have hbx : b ≠ x := fun e => hb (e ▸ inTarget_first x n)
    have heffect := afterByte_effect d a hx
    obtain ⟨hroom1, hkeeps1, hone⟩ := afterByte_other d a hbx hok
    have hlength := afterByte_order_length_le d a x s
    obtain ⟨hroom, hkeeps, hrest, hdiag⟩ := ih (a + 1) (x := x + 1) (s := afterByte d a x s)
      (fun y hy => by rw [heffect.cfg]; exact hram y (inTarget_of_next hy)) (fun h => hb (inTarget_of_next h))
      (heffect.ramOk hok)
    rw [heffect.cfg] at hroom
    change (_ → bankByte (copyLoop d n (a + 1) (x + 1) (afterByte d a x s)) b = _) ∧ _
    refine ⟨fun h => ?_, fun h => ?_, ?_, heffect.diag.trans hdiag⟩
    · exact (hroom (by omega)).trans (hroom1 (.inr (by omega)))
    · obtain ⟨hmid, hsame⟩ := hkeeps h
      obtain ⟨hbefore, hsame1⟩ := hkeeps1 hmid
      exact ⟨hbefore, hsame.trans hsame1⟩
    · rcases hrest with hsame | ⟨hhad, hgone, hzero, hrecord⟩
      · rcases hone with hsame1 | ⟨hhad, hgone, hzero, hrecord⟩
        · exact .inl (hsame.trans hsame1)
        · refine .inr ⟨hhad, ?_, hsame.trans hzero, hdiag.subset hrecord⟩
          refine Bool.eq_false_iff.2 fun h => ?_
          rw [(hkeeps h).1] at hgone
          cases hgone
      · exact .inr ⟨(hkeeps1 hhad).1, hgone, hzero, hrecord⟩

/-- A relation that every access and every store meets holds over the whole loop. -/
theorem copyLoop_rel {c : Cfg} {d : Nat} {R : State → State → Prop} (hrefl : ∀ s, R s s)
    (htrans : ∀ {s t u}, R s t → R t u → R s u) (hsource : ∀ a {s}, s.cfg = c → R s (sourceByte d a s).2)
    (hstore : ∀ x v {s}, R s (ramWrite s x v)) (n : Nat) (a x : Word) {s : State} (hc : s.cfg = c) :
    R s (copyLoop d n a x s) := by
  induction n generalizing a x s with
  | zero => exact hrefl s
  | succ n ih =>
    exact htrans (htrans (hsource a hc) (hstore x _))
      (ih (a + 1) (x + 1) (s := afterByte d a x s) (by rw [ramWrite_cfg, sourceByte_cfg, hc]))

/-! ## The DMA registers and the controller -/

theorem sourceByte_dma {d : Nat} (a : Word) {s : State} (h : d ≠ s.cfg.dmaDev) : (sourceByte d a s).2.dma = s.dma := by
  have hwrite {u : State} (hc : u.cfg = s.cfg) (p : Nat) (v : Byte) : (plainPortWrite u d p v).dma = u.dma := by
    rw [plainPortWrite_dma, if_neg fun hd => h (hc ▸ hd.1)]
  exact (portRead_effect _ d _).dma.trans
    ((hwrite (plainPortWrite_effect s d _ _).cfg _ _).trans (hwrite rfl _ _))

/-- The controller is as it was but for lines that went from idle to pending. -/
abbrev IntcRaised (s t : State) : Prop := t.intc = { s.intc with lines := t.intc.lines } ∧ LinesRaised s t

theorem IntcRaised.refl (s : State) : IntcRaised s s := ⟨rfl, .refl s⟩

theorem IntcRaised.trans {s t u : State} (h : IntcRaised s t) (g : IntcRaised t u) : IntcRaised s u := by
  refine ⟨?_, h.2.trans g.2⟩
  rw [g.1, h.1]

theorem ReadEffect.intcRaised {s t : State} (h : ReadEffect s t) : IntcRaised s t :=
  ⟨congrArg State.intc h.eq, h.raised⟩

theorem intcRaised_of_eq {s t : State} (h : t.intc = s.intc) : IntcRaised s t :=
  ⟨by rw [h], fun n => .inl (by rw [lineOf, lineOf, h])⟩

theorem plainPortWrite_intcRaised {s : State} {d : Nat} (p : Nat) (v : Byte) (h : d ≠ s.cfg.intcDev) :
    IntcRaised s (plainPortWrite s d p v) := by
  unfold plainPortWrite
  rw [if_neg h]
  split
  · refine intcRaised_of_eq ?_
    unfold dmaWrite
    split <;> rfl
  · split
    · exact (deviceAccess_effect s _).1.intcRaised
    · exact (readEffect_addDiag s _).intcRaised

theorem sourceByte_intcRaised {d : Nat} (a : Word) {s : State} (h : d ≠ s.cfg.intcDev) :
    IntcRaised s (sourceByte d a s).2 := by
  have hmid : d ≠ (plainPortWrite s d s.cfg.dmaSrcAddrLoPort (lo8 a)).cfg.intcDev := by
    rwa [(plainPortWrite_effect s d _ _).cfg]
  exact ((plainPortWrite_intcRaised _ _ h).trans (plainPortWrite_intcRaised _ _ hmid)).trans
    (portRead_effect _ d _).intcRaised

theorem ramWrite_dma (s : State) (x : Word) (v : Byte) : (ramWrite s x v).dma = s.dma := by
  rw [ramWrite_eq]

theorem ramWrite_intc (s : State) (x : Word) (v : Byte) : (ramWrite s x v).intc = s.intc := by
  rw [ramWrite_eq]

theorem transfer_dma {s : State} (h : s.dma.dev.toNat ≠ s.cfg.dmaDev) : (transfer s).dma = s.dma := by
  rcases transfer_cases (s := s) fun hself => h hself.1 with ht | ht | ⟨-, -, ht⟩
  · rw [ht]
  · rw [ht, addDiag_dma]
  · rw [ht]
    exact copyLoop_rel (R := fun s t => t.dma = s.dma) (fun _ => rfl) (fun h g => g.trans h)
      (fun a u hu => sourceByte_dma a (by rwa [hu])) (fun x v u => ramWrite_dma u x v) _ _ _ rfl

theorem transfer_intc {s : State} (hself : ¬ SelfTriggering s) (h : s.dma.dev.toNat ≠ s.cfg.intcDev) :
    IntcRaised s (transfer s) := by
  rcases transfer_cases hself with ht | ht | ⟨-, -, ht⟩
  · rw [ht]
    exact .refl s
  · rw [ht]
    exact intcRaised_of_eq rfl
  · rw [ht]
    exact copyLoop_rel (R := IntcRaised) .refl .trans (fun a u hu => sourceByte_intcRaised a (by rwa [hu]))
      (fun x v u => intcRaised_of_eq (ramWrite_intc u x v)) _ _ _ rfl

/-- The bytes outside the target range of a transfer that cannot trigger itself. -/
theorem transfer_outside {s : State} (hself : ¬ SelfTriggering s) (hok : RamOk s) {b : Word}
    (hb : ¬ (s.dma.target.toNat ≤ b.toNat ∧ b.toNat < s.dma.target.toNat + dmaLength s.dma.srcStart s.dma.srcEnd)) :
    (s.ram.order.length + dmaLength s.dma.srcStart s.dma.srcEnd ≤ s.cfg.ramMaxEntries →
      bankByte (transfer s) b = bankByte s b) ∧
    (bankByte (transfer s) b = bankByte s b ∨ Evicted s (transfer s) b) := by
  rcases transfer_cases hself with ht | ht | ⟨hr, hn, ht⟩
  · rw [ht]
    exact ⟨fun _ => rfl, .inl rfl⟩
  · rw [ht]
    exact ⟨fun _ => rfl, .inl rfl⟩
  · obtain ⟨hlo, hhi⟩ := (dmaInRange_iff _ _ _).1 hr
    obtain ⟨hbound, hram⟩ := targetInRam_of_range hlo hhi hn
    obtain ⟨hroom, -, hsame, -⟩ := copyLoop_outside s.dma.dev.toNat s.dma.srcStart hram
      (fun h => hb ((inTarget_iff hbound).1 h)) hok
    rw [ht]
    exact ⟨hroom, hsame⟩

/-- Settles O41. -/
theorem transferFrame : Obligations.TransferFrame := by
  intro s t n
  have heffect : WriteEffect s t := transfer_effect s
  exact ⟨heffect.lines, fun hself hok b hb => transfer_outside hself hok hb, transfer_dma,
    fun hself hdev => transfer_intc hself hdev, heffect.eq, heffect.ie, heffect.ramOk, heffect.diag⟩

/-! ## A transfer from an empty slot (R233, 20_memory.md R50, R51) -/

/-- The three diagnostics of a byte from a slot with no device. -/
abbrev emptySlotDiags (c : Cfg) (d : Nat) : List Diagnostic :=
  [.unknownPort d c.dmaSrcAddrLoPort .write, .unknownPort d c.dmaSrcAddrHiPort .write,
    .unknownPort d c.dmaSrcDataPort .read]

/-- A slot with no device. -/
abbrev EmptySlot (c : Cfg) (d : Nat) : Prop := d ≠ c.intcDev ∧ d ≠ c.dmaDev ∧ d ∉ c.devices

theorem sourceByte_empty {d : Nat} (a : Word) {s : State} (h : EmptySlot s.cfg d) :
    sourceByte d a s = (0x00, { s with diag := s.diag ++ emptySlotDiags s.cfg d }) := by
  obtain ⟨hintc, hdma, hdev⟩ := h
  have hwrite (u : State) (hu : u.cfg = s.cfg) (p : Nat) (v : Byte) :
      plainPortWrite u d p v = addDiag u (.unknownPort d p .write) :=
    plainPortWrite_empty p v (by rwa [hu]) (by rwa [hu]) (by rwa [hu])
  have hread (u : State) (hu : u.cfg = s.cfg) (p : Nat) :
      portRead u d p = (0x00, addDiag u (.unknownPort d p .read)) :=
    portRead_empty p (by rwa [hu]) (by rwa [hu]) (by rwa [hu])
  rw [sourceByte, hwrite s rfl, hwrite (addDiag s _) rfl, hread (addDiag (addDiag s _) _) rfl]
  simp [addDiag]

theorem copyLoop_empty {d n : Nat} (a : Word) {x : Word} {s : State} (hslot : EmptySlot s.cfg d)
    (hram : TargetInRam s.cfg x n) (hn : n ≤ 65536) (hw : Memory.wf s.ram.cells = true)
    (hroom : s.ram.order.length + n ≤ s.cfg.ramMaxEntries) :
    copyLoop d n a x s =
      { s with
        ram := (copyLoop d n a x s).ram
        diag := s.diag ++ (List.replicate n (emptySlotDiags s.cfg d)).flatten } ∧
    (∀ b, InTarget x n b → bankByte (copyLoop d n a x s) b = some 0x00) ∧
    ∀ b, ¬ InTarget x n b → bankByte (copyLoop d n a x s) b = bankByte s b := by
  induction n generalizing a x s with
  | zero =>
    refine ⟨by simp [copyLoop], fun b hb => ?_, fun b _ => rfl⟩
    obtain ⟨i, hi, -⟩ := hb
    omega
  | succ n ih =>
    have hx : regionOf s.cfg x = .ram := regionOf_of_inRam (hram x (inTarget_first x n))
    let s1 : State := { s with diag := s.diag ++ emptySlotDiags s.cfg d }
    have hroom1 : HasRoom s1 x := .inr (show s.ram.order.length < s.cfg.ramMaxEntries by omega)
    let u : State := ramWrite s1 x 0x00
    have hstep : copyLoop d (n + 1) a x s = copyLoop d n (a + 1) (x + 1) u := by
      rw [copyLoop, sourceByte_empty a hslot]
    have hu : u = { s1 with ram := u.ram } := by
      have h := ramWrite_eq s1 x 0x00
      rwa [ramWrite_diag_of_room _ hroom1] at h
    have hucfg : u.cfg = s.cfg := ramWrite_cfg s1 x 0x00
    have hulength : u.ram.order.length ≤ s.ram.order.length + 1 := ramWrite_order_length_le s1 x 0x00
    have hubytes (b : Word) : bankByte u b = if b = x then some 0x00 else bankByte s b :=
      bankByte_ramWrite_of_room (s := s1) 0x00 hw hx hroom1 b
    obtain ⟨hstate, hin, hout⟩ := ih (a + 1) (x := x + 1) (s := u) (by rwa [hucfg])
      (fun y hy => by rw [hucfg]; exact hram y (inTarget_of_next hy)) (by omega) (wf_ramWrite (s := s1) hw x 0x00)
      (by rw [hucfg]; omega)
    rw [hstep]
    refine ⟨?_, fun b hb => ?_, fun b hb => ?_⟩
    · refine hstate.trans ?_
      rw [hu]
      simp [s1, List.replicate_succ]
    · by_cases hnext : InTarget (x + 1) n b
      · exact hin b hnext
      · obtain ⟨i, hi, rfl⟩ := hb
        rw [hout _ hnext, hubytes]
        cases i with
        | zero => simp
        | succ i => exact absurd ⟨i, by omega, (add_one_add x i).symm⟩ hnext
    · have hbx : b ≠ x := fun e => hb (e ▸ inTarget_first x n)
      rw [hout b fun h => hb (inTarget_of_next h), hubytes, if_neg hbx]

/-- Settles O40. -/
theorem transferFromEmptySlot : Obligations.TransferFromEmptySlot := by
  intro s n hok hintc hdma hdev hle hn hlo hhi hroom
  obtain ⟨hbound, hram⟩ := targetInRam_of_range hlo hhi (by omega)
  obtain ⟨hstate, hin, hout⟩ := copyLoop_empty (d := s.dma.dev.toNat) s.dma.srcStart ⟨hintc, hdma, hdev⟩ hram (by omega)
    hok.1 hroom
  rw [transfer_of_checked (fun hself => hdma hself.1) hle hn hlo hhi]
  refine ⟨hstate, fun b => ?_⟩
  by_cases hb : InTarget s.dma.target n b
  · rw [if_pos ((inTarget_iff hbound).1 hb), hin b hb]
  · rw [if_neg fun h => hb ((inTarget_iff hbound).2 h), hout b hb]

end Sys2Proof.Machine
end

section
/-! A transfer from a device outside the block (R235), and the one kind of transfer that never ends (entry 4). -/

namespace Sys2Proof.Machine

/-! ## One byte from a device -/

/-- What a device sees of one byte of a transfer (R232, R233; the ports by D21). -/
abbrev deviceEvents (c : Cfg) (d : Nat) (a : Word) : List DeviceEvent :=
  [.write d c.dmaSrcAddrLoPort (lo8 a), .write d c.dmaSrcAddrHiPort (hi8 a), .read d c.dmaSrcDataPort]

/-- The data read of a byte takes the third of the answers listed. -/
theorem sourceByte_device {d : Nat} (a : Word) {s : State} (h : d ∈ s.cfg.devices) :
    (sourceByte d a s).2.diag = s.diag ∧
    (sourceByte d a s).2.env.replies = s.env.replies.drop 3 ∧
    (sourceByte d a s).2.env.trace = s.env.trace ++ deviceEvents s.cfg d a ∧
    ∀ v, (s.env.replies[2]?).map PortReply.value = some v → (sourceByte d a s).1 = v := by
  obtain ⟨effect1, diag1, env1⟩ := deviceAccess_effect s (.write d s.cfg.dmaSrcAddrLoPort (lo8 a))
  have eq1 := plainPortWrite_device s.cfg.dmaSrcAddrLoPort (lo8 a) h
  generalize (deviceAccess s (.write d s.cfg.dmaSrcAddrLoPort (lo8 a))).2 = s1 at *
  obtain ⟨effect2, diag2, env2⟩ := deviceAccess_effect s1 (.write d s.cfg.dmaSrcAddrHiPort (hi8 a))
  have eq2 := plainPortWrite_device (s := s1) s.cfg.dmaSrcAddrHiPort (hi8 a) (by rwa [effect1.cfg])
  generalize (deviceAccess s1 (.write d s.cfg.dmaSrcAddrHiPort (hi8 a))).2 = s2 at *
  obtain ⟨-, diag3, env3⟩ := deviceAccess_effect s2 (.read d s.cfg.dmaSrcDataPort)
  have eq3 := portRead_device (s := s2) s.cfg.dmaSrcDataPort (by rwa [effect2.cfg, effect1.cfg])
  have hsource : sourceByte d a s = deviceAccess s2 (.read d s.cfg.dmaSrcDataPort) := by
    rw [sourceByte, eq1, eq2, eq3]
  have hreplies : s2.env.replies = s.env.replies.drop 2 := by
    simp only [env2, env1, ← List.drop_one, List.drop_drop, Nat.reduceAdd]
  rw [hsource]
  refine ⟨diag3.trans (diag2.trans diag1), ?_, ?_, fun v hv => ?_⟩
  · rw [env3, hreplies]
    simp
  · rw [env3, env2, env1]
    simp
  · obtain ⟨r, hr, rfl⟩ := Option.map_eq_some_iff.1 hv
    have hcons : s2.env.replies = r :: s.env.replies.drop 3 := by
      rw [hreplies]
      obtain ⟨hlt, hget⟩ := List.getElem?_eq_some_iff.1 hr
      rw [List.drop_eq_getElem_cons hlt, hget]
    exact congrArg PortReply.value (environmentReply_listed _ hcons)

theorem ramHas_ramWrite_of_room {s : State} {x y : Word} (v : Byte) (h : HasRoom s x) (hy : ramHas s y = true) :
    ramHas (ramWrite s x v) y = true := by
  by_cases hx : ramHas s x = true
  · rwa [ramWrite_present v hx]
  · rw [ramWrite_absent_room v (Bool.eq_false_iff.2 hx) (h.resolve_left hx), ramHas_iff]
    exact List.mem_append_left _ ((ramHas_iff s y).1 hy)

/-! ## The loop from a device -/

/-- The device answers the data read of the `i`-th byte with `byteAt` of its address. -/
abbrev Answers (s : State) (byteAt : Word → Byte) (a : Word) (n : Nat) : Prop :=
  ∀ i, i < n → (s.env.replies[3 * i + 2]?).map PortReply.value = some (byteAt (a + BitVec.ofNat 16 i))

theorem Answers.next {s t : State} {byteAt : Word → Byte} {a : Word} {n : Nat} (h : Answers s byteAt a (n + 1))
    (ht : t.env.replies = s.env.replies.drop 3) : Answers t byteAt (a + 1) n := by
  intro i hi
  have hindex : 3 + (3 * i + 2) = 3 * (i + 1) + 2 := by omega
  rw [ht, List.getElem?_drop, hindex, h (i + 1) (by omega), add_one_add]

/-- The bytes stored: where an entry is still there, it holds the device's byte. -/
theorem copyLoop_device_bytes {d n : Nat} {byteAt : Word → Byte} {a x : Word} {s : State} (hd : d ∈ s.cfg.devices)
    (hok : RamOk s) (hram : TargetInRam s.cfg x n) (hn : n ≤ 65536) (hanswers : Answers s byteAt a n) :
    ∀ i, i < n → ramHas (copyLoop d n a x s) (x + BitVec.ofNat 16 i) = true →
      ramRead (copyLoop d n a x s) (x + BitVec.ofNat 16 i) = byteAt (a + BitVec.ofNat 16 i) := by
  induction n generalizing a x s with
  | zero => intro i hi; omega
  | succ n ih =>
    obtain ⟨-, hreplies, -, hvalue⟩ := sourceByte_device a hd
    have heffect := afterByte_effect d a (hram x (inTarget_first x n))
    have hnext : TargetInRam (afterByte d a x s).cfg (x + 1) n := fun y hy => by
      rw [heffect.cfg]
      exact hram y (inTarget_of_next hy)
    intro i hi
    cases i with
    | zero =>
      have hx : x + BitVec.ofNat 16 0 = x := by simp
      have ha : a + BitVec.ofNat 16 0 = a := by simp
      have hbyte : (sourceByte d a s).1 = byteAt a := by
        have hfirst := hanswers 0 (by omega)
        rw [ha] at hfirst
        exact hvalue _ hfirst
      rw [hx, ha]
      intro hhas
      obtain ⟨-, hkeeps, -, -⟩ := copyLoop_outside d (a + 1) hnext (not_inTarget_next (by omega)) (heffect.ramOk hok)
      refine (hkeeps hhas).2.trans ?_
      rw [ramRead_ramWrite_self ((sourceByte_effect d a s).wf hok.1), hbyte]
    | succ i =>
      rw [← add_one_add x i, ← add_one_add a i]
      exact ih (s := afterByte d a x s) (by rwa [heffect.cfg]) (heffect.ramOk hok) hnext (by omega)
        (hanswers.next (by rw [ramWrite_env, hreplies])) i (by omega)

/-- With room for all bytes nothing is diagnosed and every byte has its entry at the end. -/
theorem copyLoop_device_room {d n : Nat} (a : Word) {x : Word} {s : State} (hd : d ∈ s.cfg.devices)
    (hroom : s.ram.order.length + n ≤ s.cfg.ramMaxEntries) :
    (copyLoop d n a x s).diag = s.diag ∧
    (∀ y, ramHas s y = true → ramHas (copyLoop d n a x s) y = true) ∧
    ∀ i, i < n → ramHas (copyLoop d n a x s) (x + BitVec.ofNat 16 i) = true := by
  induction n generalizing a x s with
  | zero => exact ⟨rfl, fun _ h => h, fun i hi => by omega⟩
  | succ n ih =>
    obtain ⟨hdiag, -, -, -⟩ := sourceByte_device a hd
    have hcfg : (afterByte d a x s).cfg = s.cfg := by rw [ramWrite_cfg, sourceByte_cfg]
    have hlength := afterByte_order_length_le d a x s
    have hx : HasRoom (sourceByte d a s).2 x := hasRoom_sourceByte (.inr (by omega))
    obtain ⟨hdiag', hkeeps, hall⟩ := ih (a + 1) (x := x + 1) (s := afterByte d a x s) (by rwa [hcfg])
      (by rw [hcfg]; omega)
    refine ⟨hdiag'.trans ((ramWrite_diag_of_room _ hx).trans hdiag), fun y hy => hkeeps y ?_, fun i hi => ?_⟩
    · exact ramHas_ramWrite_of_room _ hx (by rwa [ramHas_sourceByte])
    · cases i with
      | zero =>
        have h0 : x + BitVec.ofNat 16 0 = x := by simp
        rw [h0]
        exact hkeeps x (ramHas_ramWrite_self _ x _)
      | succ i =>
        rw [← add_one_add]
        exact hall i (by omega)

/-- The accesses the device sees, in order. -/
theorem copyLoop_device_trace {d n : Nat} (a x : Word) {s : State} (hd : d ∈ s.cfg.devices) :
    (copyLoop d n a x s).env.trace =
      s.env.trace ++ (List.range n).flatMap fun i => deviceEvents s.cfg d (a + BitVec.ofNat 16 i) := by
  induction n generalizing a x s with
  | zero => simp [copyLoop]
  | succ n ih =>
    obtain ⟨-, -, htrace, -⟩ := sourceByte_device a hd
    have hcfg : (afterByte d a x s).cfg = s.cfg := by rw [ramWrite_cfg, sourceByte_cfg]
    have hrest := ih (a + 1) (x + 1) (s := afterByte d a x s) (by rwa [hcfg])
    have ha : a + BitVec.ofNat 16 0 = a := by simp
    rw [copyLoop, hrest, ramWrite_env, htrace, hcfg, List.range_succ_eq_map, List.flatMap_cons, ha, List.flatMap_map,
      List.append_assoc]
    simp only [add_one_add, Nat.succ_eq_add_one]

/-- Settles O39. -/
theorem transferCopiesDeviceBytes : Obligations.TransferCopiesDeviceBytes := by
  intro s byteAt n hok hd hle hn hlo hhi hanswers
  obtain ⟨hbound, hram⟩ := targetInRam_of_range hlo hhi (by omega)
  rw [transfer_of_checked (fun hself => (device_ne_own hd).2 hself.1) hle hn hlo hhi]
  have hcfg : (copyLoop s.dma.dev.toNat n s.dma.srcStart s.dma.target s).cfg = s.cfg :=
    copyLoop_rel (R := fun s t => t.cfg = s.cfg) (fun _ => rfl) (fun h g => g.trans h)
      (fun a u _ => sourceByte_cfg _ a u) (fun x v u => ramWrite_cfg u x v) _ _ _ rfl
  refine ⟨fun i hi hhas => ?_, fun hroom => ?_, copyLoop_device_trace _ _ hd⟩
  · have hin : inRam s.cfg (s.dma.target + BitVec.ofNat 16 i) = true := hram _ ⟨i, hi, rfl⟩
    rw [bankByte_of_inRam (by rwa [hcfg]), copyLoop_device_bytes hd hok hram (by omega) hanswers i hi hhas]
  · obtain ⟨hdiag, -, hall⟩ := copyLoop_device_room s.dma.srcStart (x := s.dma.target) hd hroom
    exact ⟨hdiag, hall⟩

/-! ## The transfer that never ends (93_implementation_defined.md V4; entry 4) -/

theorem transferResult_of_plain {s : State} (h : ¬ SelfTriggering s) : transferResult s = some (transfer s) := by
  obtain ⟨t, ht⟩ := Option.isSome_iff_exists.1 (transferResult_ends h)
  rw [transfer, ht, Option.getD_some]

/-- The engine is its own source, its low address port is its trigger, the range is not empty and the target is inside
RAM: the transfer starts itself before it does anything else. -/
structure Endless (s : State) : Prop where
  dev : s.dma.dev.toNat = s.cfg.dmaDev
  port : s.cfg.dmaSrcAddrLoPort = 7
  range : s.dma.srcStart.toNat ≤ s.dma.srcEnd.toNat
  targetLo : s.cfg.ramStart.toNat ≤ s.dma.target.toNat
  targetHi : s.dma.target.toNat + (s.dma.srcEnd.toNat - s.dma.srcStart.toNat) ≤ s.cfg.ramEnd.toNat

theorem transferResult_of_endless {s : State} (h : Endless s) : transferResult s = none := by
  have hlength := dmaLength_of_le h.range rfl
  refine transferDepth_none h.dev h.port (by omega) ?_ 256
  rw [hlength, dmaInRange_iff]
  have hhi := h.targetHi
  exact ⟨h.targetLo, by omega⟩

/-- A write to the trigger ends exactly if the transfer does. -/
theorem writeEnds_trigger {s : State} {a : Word} (hio : regionOf s.cfg a = .io)
    (ha : a.toNat = s.cfg.ioStart.toNat + 16 * s.cfg.dmaDev + 7) :
    writeEnds s a = (transferResult s).isSome := by
  obtain ⟨hdev, hport⟩ := slot_port_of_addr ha (by omega)
  simp only [writeEnds, hio, hdev, hport, and_self, if_true]

theorem writeEnds_of_endless {s : State} (h : Endless s) {a : Word} (hio : regionOf s.cfg a = .io)
    (ha : a.toNat = s.cfg.ioStart.toNat + 16 * s.cfg.dmaDev + 7) : writeEnds s a = false := by
  rw [writeEnds_trigger hio ha, transferResult_of_endless h]
  rfl

/-- Settles O42: the first push of an entry, too, is a write in a state with these DMA registers. -/
theorem endlessTransferRefused : Obligations.EndlessTransferRefused := by
  refine ⟨fun s => transferResult_of_plain, fun s a hio ha hdev hport hrange hlo hhi => ?_⟩
  have hendless : Endless s := ⟨hdev, hport, hrange, hlo, hhi⟩
  have hends := writeEnds_of_endless hendless hio ha
  refine ⟨hends, fun i hi => ?_, fun hsp i hi => ?_, fun n hsp => ?_⟩
  · obtain ⟨r, rfl⟩ := storeInstr_of_mem hi
    exact exec_storeInstr_refused r hends
  · obtain ⟨r, rfl⟩ := pushInstr_of_mem hi
    exact exec_pushInstr_refused r (hsp ▸ hends)
  · have hentry : Endless (setLine s n .servicing) := ⟨hdev, hport, hrange, hlo, hhi⟩
    have hfirst := writeEnds_of_endless hentry hio ha
    rw [entryEnds_eq, hsp]
    simp only [hfirst, Bool.false_and]

end Sys2Proof.Machine
end

section
/-! `DIAG` is invisible to the machine (60_exceptions.md section 3). Every part of a step commutes with putting records
before the log (`prependLog`): it reads the log nowhere and only appends to it. A step from a state with any log is then
the step from the state with an empty log, with that log put before. -/

namespace Sys2Proof.Machine

/-- The state with records put before its log. -/
def prependLog (l : List Diagnostic) (s : State) : State := { s with diag := l ++ s.diag }

/-- A function of the state that does not look at the log. -/
abbrev BlindTo {α : Type} (f : State → α) : Prop := ∀ l s, f (prependLog l s) = f s

/-- An operation that does not look at the log and only appends to it. -/
abbrev Blind (f : State → State) : Prop := ∀ l s, f (prependLog l s) = prependLog l (f s)

/-- The same for an operation that answers a value as well. -/
abbrev BlindRead {α : Type} (f : State → α × State) : Prop :=
  ∀ l s, f (prependLog l s) = ((f s).1, prependLog l (f s).2)

/-- The same for an operation that may not end. -/
abbrev BlindPartial (f : State → Option State) : Prop := ∀ l s, f (prependLog l s) = (f s).map (prependLog l)

/-! ## Diagnostics, stores and requests -/

theorem blind_addDiag (d : Diagnostic) : Blind (addDiag · d) := fun l s => by
  simp only [addDiag, prependLog, List.append_assoc]

theorem blind_evict : Blind evict := fun l s => by
  simp only [evict, prependLog, List.append_assoc]

/-- A store to an address with no entry, before it is known whether the bank has room. -/
theorem ramWrite_absent {s : State} {a : Word} (v : Byte) (h : ¬ ramHas s a = true) :
    ramWrite s a v = evict { s with ram := { cells := s.ram.cells.write a.toNat v, order := s.ram.order ++ [a] } } :=
  if_neg h

theorem blind_ramWrite (a : Word) (v : Byte) : Blind (ramWrite · a v) := fun l s => by
  show ramWrite (prependLog l s) a v = prependLog l (ramWrite s a v)
  by_cases h : ramHas s a = true
  · rw [ramWrite_present v h, ramWrite_present (s := prependLog l s) v h]
    rfl
  · rw [ramWrite_absent v h, ramWrite_absent (s := prependLog l s) v h]
    exact blind_evict l { s with ram := { cells := s.ram.cells.write a.toNat v, order := s.ram.order ++ [a] } }

theorem blind_requestInterrupt (n : Nat) : Blind (requestInterrupt · n) := fun l s => by
  show requestInterrupt (prependLog l s) n = prependLog l (requestInterrupt s n)
  by_cases hn : n < 8
  · by_cases h : lineOf s ⟨n, hn⟩ = .idle
    · exact (requestInterrupt_of_idle (s := prependLog l s) (n := ⟨n, hn⟩) h).trans
        (congrArg (prependLog l) (requestInterrupt_of_idle h).symm)
    · exact (requestInterrupt_of_not_idle (s := prependLog l s) (n := ⟨n, hn⟩) h).trans
        (congrArg (prependLog l) (requestInterrupt_of_not_idle h).symm)
  · rw [requestInterrupt_no_line (Nat.not_lt.1 hn), requestInterrupt_no_line (Nat.not_lt.1 hn)]

theorem blind_requestAll (ns : List Nat) : Blind (requestAll · ns) := fun l s => by
  induction ns generalizing s with
  | nil => rfl
  | cons n ns ih =>
    have hfirst : requestInterrupt (prependLog l s) n = prependLog l (requestInterrupt s n) :=
      blind_requestInterrupt n l s
    show requestAll (requestInterrupt (prependLog l s) n) ns = _
    rw [hfirst]
    exact ih (requestInterrupt s n)

/-! ## Ports -/

theorem blindRead_deviceAccess (e : DeviceEvent) : BlindRead (deviceAccess · e) := fun l s => by
  exact congrArg (Prod.mk _) (blind_requestAll _ l
    { s with env := { s.env with replies := s.env.replies.tail, trace := s.env.trace ++ [e] } })

theorem blindRead_intcRead (p : Nat) : BlindRead (intcRead · p) := fun l s => by
  by_cases h : 5 ≤ p
  · simp only [intcRead_unknown _ h]
    exact congrArg (Prod.mk _) (blind_addDiag _ l s)
  · have hp : p = 0 ∨ p = 1 ∨ p = 2 ∨ p = 3 ∨ p = 4 := by omega
    rcases hp with rfl | rfl | rfl | rfl | rfl <;> rfl

theorem blindRead_dmaRead (p : Nat) : BlindRead (dmaRead · p) := fun l s => by
  by_cases h : 8 ≤ p
  · simp only [dmaRead_unknown _ h]
    exact congrArg (Prod.mk _) (blind_addDiag _ l s)
  · have hp : p = 0 ∨ p = 1 ∨ p = 2 ∨ p = 3 ∨ p = 4 ∨ p = 5 ∨ p = 6 ∨ p = 7 := by omega
    rcases hp with rfl | rfl | rfl | rfl | rfl | rfl | rfl | rfl <;> rfl

theorem blindRead_portRead (d p : Nat) : BlindRead (portRead · d p) := fun l s => by
  have hcfg : (prependLog l s).cfg = s.cfg := rfl
  simp only [portRead, hcfg]
  split
  · exact blindRead_intcRead p l s
  · split
    · exact blindRead_dmaRead p l s
    · split
      · exact blindRead_deviceAccess _ l s
      · exact congrArg (Prod.mk _) (blind_addDiag _ l s)

theorem blind_acknowledge (v : Byte) : Blind (acknowledge · v) := fun l s => by
  show acknowledge (prependLog l s) v = prependLog l (acknowledge s v)
  by_cases h : v.toNat < 8
  · exact (acknowledge_line (prependLog l s) (n := ⟨v.toNat, h⟩) rfl).trans
      (congrArg (prependLog l) (acknowledge_line s (n := ⟨v.toNat, h⟩) rfl).symm)
  · rw [acknowledge_no_line _ (Nat.not_lt.1 h), acknowledge_no_line _ (Nat.not_lt.1 h)]

theorem blind_intcWrite (p : Nat) (v : Byte) : Blind (intcWrite · p v) := fun l s => by
  by_cases h : 5 ≤ p
  · simp only [intcWrite_unknown _ v h]
    exact blind_addDiag _ l s
  · have hp : p = 2 ∨ p = 0 ∨ p = 1 ∨ p = 3 ∨ p = 4 := by omega
    rcases hp with rfl | rfl | rfl | rfl | rfl
    · exact blind_acknowledge v l s
    all_goals rfl

theorem blind_dmaWrite (p : Nat) (v : Byte) : Blind (dmaWrite · p v) := fun l s => by
  by_cases h : 8 ≤ p
  · simp only [dmaWrite_unknown _ v h]
    exact blind_addDiag _ l s
  · have hp : p = 0 ∨ p = 1 ∨ p = 2 ∨ p = 3 ∨ p = 4 ∨ p = 5 ∨ p = 6 ∨ p = 7 := by omega
    rcases hp with rfl | rfl | rfl | rfl | rfl | rfl | rfl | rfl <;> rfl

theorem blind_plainPortWrite (d p : Nat) (v : Byte) : Blind (plainPortWrite · d p v) := fun l s => by
  have hcfg : (prependLog l s).cfg = s.cfg := rfl
  simp only [plainPortWrite, hcfg]
  split
  · exact blind_intcWrite p v l s
  · split
    · exact blind_dmaWrite p v l s
    · split
      · exact congrArg Prod.snd (blindRead_deviceAccess _ l s)
      · exact blind_addDiag _ l s

/-! ## The transfer -/

theorem blind_dmaPortWrite {trigger : State → Option State} (h : BlindPartial trigger) (d p : Nat) (v : Byte) :
    BlindPartial (dmaPortWrite trigger d p v) := fun l s => by
  have hcfg : (prependLog l s).cfg = s.cfg := rfl
  simp only [dmaPortWrite, hcfg]
  split
  · exact h l s
  · exact congrArg some (blind_plainPortWrite d p v l s)

theorem blind_dmaByte {trigger : State → Option State} (h : BlindPartial trigger) (d : Nat) (a x : Word) :
    BlindPartial (dmaByte trigger d a x) := fun l s => by
  have hstore (u : State) : ramWrite (portRead (prependLog l u) d (prependLog l u).cfg.dmaSrcDataPort).2 x
      (portRead (prependLog l u) d (prependLog l u).cfg.dmaSrcDataPort).1 =
      prependLog l (ramWrite (portRead u d u.cfg.dmaSrcDataPort).2 x (portRead u d u.cfg.dmaSrcDataPort).1) := by
    have hread : portRead (prependLog l u) d (prependLog l u).cfg.dmaSrcDataPort = _ :=
      blindRead_portRead d u.cfg.dmaSrcDataPort l u
    rw [hread]
    exact blind_ramWrite x _ l _
  have hlo : dmaPortWrite trigger d (prependLog l s).cfg.dmaSrcAddrLoPort (lo8 a) (prependLog l s) = _ :=
    blind_dmaPortWrite h d s.cfg.dmaSrcAddrLoPort (lo8 a) l s
  simp only [dmaByte, hlo]
  cases dmaPortWrite trigger d s.cfg.dmaSrcAddrLoPort (lo8 a) s with
  | none => rfl
  | some s1 =>
    have hhi : dmaPortWrite trigger d (prependLog l s1).cfg.dmaSrcAddrHiPort (hi8 a) (prependLog l s1) = _ :=
      blind_dmaPortWrite h d s1.cfg.dmaSrcAddrHiPort (hi8 a) l s1
    simp only [Option.map_some, Option.bind_some, hhi]
    cases dmaPortWrite trigger d s1.cfg.dmaSrcAddrHiPort (hi8 a) s1 with
    | none => rfl
    | some s2 => exact congrArg some (hstore s2)

theorem blind_dmaLoop {trigger : State → Option State} (h : BlindPartial trigger) (d n : Nat) (a x : Word) :
    BlindPartial (dmaLoop trigger d n a x) := by
  induction n generalizing a x with
  | zero => exact fun l s => rfl
  | succ n ih =>
    intro l s
    rw [dmaLoop, dmaLoop, blind_dmaByte h d a x l s]
    cases dmaByte trigger d a x s with
    | none => rfl
    | some u => exact ih (a + 1) (x + 1) l u

theorem blind_transferWith {trigger : State → Option State} (h : BlindPartial trigger) :
    BlindPartial (transferWith trigger) := fun l s => by
  have hcfg : (prependLog l s).cfg = s.cfg := rfl
  have hdma : (prependLog l s).dma = s.dma := rfl
  simp only [transferWith, hcfg, hdma]
  split
  · rfl
  · split
    · exact blind_dmaLoop h _ _ _ _ l s
    · exact congrArg some (blind_addDiag _ l s)

theorem blind_transferDepth (depth : Nat) : BlindPartial (transferDepth depth) := by
  induction depth with
  | zero => exact fun l s => rfl
  | succ depth ih => exact blind_transferWith ih

theorem blind_transferResult : BlindPartial transferResult := blind_transferDepth 256

theorem blind_transfer : Blind transfer := fun l s => by
  rw [transfer, transfer, blind_transferResult l s]
  cases transferResult s <;> rfl

/-! ## The bus -/

theorem blind_portWrite (d p : Nat) (v : Byte) : Blind (portWrite · d p v) := fun l s => by
  have hcfg : (prependLog l s).cfg = s.cfg := rfl
  simp only [portWrite, hcfg]
  split
  · exact blind_transfer l s
  · exact blind_plainPortWrite d p v l s

theorem blindRead_memRead (a : Word) : BlindRead (memRead · a) := fun l s => by
  have hcfg : (prependLog l s).cfg = s.cfg := rfl
  simp only [memRead, hcfg]
  split
  · rfl
  · rfl
  · exact blindRead_portRead _ _ l s

theorem blind_memWrite (a : Word) (v : Byte) : Blind (memWrite · a v) := fun l s => by
  have hcfg : (prependLog l s).cfg = s.cfg := rfl
  simp only [memWrite, hcfg]
  split
  · exact blind_addDiag _ l s
  · exact blind_ramWrite a v l s
  · exact blind_portWrite _ _ v l s

theorem blindTo_writeEnds (a : Word) : BlindTo (writeEnds · a) := fun l s => by
  have hcfg : (prependLog l s).cfg = s.cfg := rfl
  simp only [writeEnds, hcfg, blind_transferResult l s, Option.isSome_map]

/-! ## The stack, interrupt entry and return -/

theorem blind_push8 (v : Byte) : Blind (push8 · v) := fun l s => by
  have hwrite : memWrite (prependLog l s) (prependLog l s).sp v = _ := blind_memWrite s.sp v l s
  simp only [push8, hwrite]
  rfl

theorem blindRead_pop8 : BlindRead pop8 := fun l s => blindRead_memRead (s.sp + 1) l { s with sp := s.sp + 1 }

theorem blind_setReg (r : Reg) (v : Byte) : Blind (setReg · r v) := fun l s => by cases r <;> rfl

theorem blind_framePushed (n : Fin 8) : Blind (framePushed · n) := fun l s => by
  have hpush (v : Byte) (u : State) : push8 (prependLog l u) v = prependLog l (push8 u v) := blind_push8 v l u
  have hline : setLine (prependLog l s) n .servicing = prependLog l (setLine s n .servicing) := rfl
  simp only [framePushed, hline, hpush]
  rfl

theorem blind_interruptEntry (n : Fin 8) : Blind (interruptEntry · n) := fun l s => by
  have hframe : framePushed (prependLog l s) n = prependLog l (framePushed s n) := blind_framePushed n l s
  simp only [interruptEntry_eq, hframe]
  rfl

theorem blindTo_entryEnds (n : Fin 8) : BlindTo (entryEnds · n) := fun l s => by
  have hpush (v : Byte) (u : State) : push8 (prependLog l u) v = prependLog l (push8 u v) := blind_push8 v l u
  have hends (u : State) (a : Word) : writeEnds (prependLog l u) a = writeEnds u a := blindTo_writeEnds a l u
  have hline : setLine (prependLog l s) n .servicing = prependLog l (setLine s n .servicing) := rfl
  simp only [entryEnds_eq, hline, hpush, hends]
  rfl

theorem blind_interruptReturn : Blind interruptReturn := fun l s => by
  have hpop (u : State) : pop8 (prependLog l u) = ((pop8 u).1, prependLog l (pop8 u).2) := blindRead_pop8 l u
  have hflags (u : State) (f : Byte) : loadFlags (prependLog l u) f = prependLog l (loadFlags u f) := rfl
  have hreg (u : State) (v : Byte) : setReg (prependLog l u) .A v = prependLog l (setReg u .A v) := rfl
  simp only [interruptReturn, hpop, hflags, hreg]
  rfl

/-! ## The poll -/

theorem blindTo_pollLine : BlindTo pollLine := fun _ _ => rfl

theorem blind_poll : Blind poll := fun l s => by
  rw [poll, poll, blindTo_pollLine l s]
  cases pollLine s with
  | none => rfl
  | some n => exact blind_interruptEntry n l s

theorem blindTo_pollEnds : BlindTo pollEnds := fun l s => by
  rw [pollEnds, pollEnds, blindTo_pollLine l s]
  cases pollLine s with
  | none => rfl
  | some n => exact blindTo_entryEnds n l s

/-! ## Fetch -/

theorem blindRead_fetch8 : BlindRead fetch8 := fun l s => by
  have hread : memRead (prependLog l s) (prependLog l s).pc = _ := blindRead_memRead s.pc l s
  simp only [fetch8, hread]
  rfl

theorem blindRead_fetchOpcode : BlindRead fetchOpcode := fun l s => by
  simp only [fetchOpcode, blindRead_fetch8 l s]
  rfl

theorem blindRead_fetchOperand (f : Format) : BlindRead (fetchOperand f) := fun l s => by
  cases f with
  | op => rfl
  | opI8 => simp only [fetchOperand, blindRead_fetch8 l s]
  | opI16 => simp only [fetchOperand, fetch16, blindRead_fetch8 l _]

theorem blindRead_fetchInstr : BlindRead fetchInstr := fun l s => by
  have hop := blindRead_fetchOpcode l s
  have hopcode : (prependLog l s).cfg.opcodes.mnemonicOf (fetchOpcode (prependLog l s)).1 =
      s.cfg.opcodes.mnemonicOf (fetchOpcode s).1 := by rw [hop]; rfl
  cases hm : s.cfg.opcodes.mnemonicOf (fetchOpcode s).1 with
  | none => rw [fetchInstr_of_none hm, fetchInstr_of_none (hopcode.trans hm), hop]
  | some m =>
    rw [fetchInstr_of_some hm, fetchInstr_of_some (hopcode.trans hm), hop]
    simp only [blindRead_fetchOperand m.format l _]

/-! ## Instructions and the step -/

/-- The outcome with every next state changed. -/
def mapNext (f : State → State) : Host.Outcome State Fault Refusal → Host.Outcome State Fault Refusal
  | .next t => .next (f t)
  | .fault r => .fault r
  | .refused r => .refused r

theorem mapNext_nextIf (f : State → State) (b : Bool) (t : State) : mapNext f (nextIf b t) = nextIf b (f t) := by
  cases b <;> rfl

theorem blind_writeResult (r : Reg) (x : AluResult) : Blind (writeResult · r x) := fun l s => by cases r <;> rfl

theorem blind_loadInto (r : Reg) (a : Word) : Blind (loadInto r a) := fun l s => by
  have hread : memRead (prependLog l s) (absoluteAddr a) = _ := blindRead_memRead a l s
  simp only [loadInto, hread]
  exact blind_writeResult r _ l _

theorem blind_popInto (r : Reg) : Blind (popInto r) := fun l s => by
  simp only [popInto, blindRead_pop8 l s]
  exact blind_setReg r _ l _

theorem getReg_prependLog (l : List Diagnostic) (s : State) (r : Reg) : getReg (prependLog l s) r = getReg s r := by
  cases r <;> rfl

theorem exec_store_prependLog (r : Reg) (a : Word) (l : List Diagnostic) (s : State) :
    exec (storeInstr r a) (prependLog l s) = mapNext (prependLog l) (exec (storeInstr r a) s) := by
  have hwrite (v : Byte) : memWrite (prependLog l s) a v = prependLog l (memWrite s a v) := blind_memWrite a v l s
  have hends : writeEnds (prependLog l s) a = writeEnds s a := blindTo_writeEnds a l s
  rw [exec_storeInstr, exec_storeInstr, mapNext_nextIf, hends, hwrite, getReg_prependLog]

theorem exec_push_prependLog (r : Reg) (l : List Diagnostic) (s : State) :
    exec (pushInstr r) (prependLog l s) = mapNext (prependLog l) (exec (pushInstr r) s) := by
  have hwrite (v : Byte) : memWrite (prependLog l s) (prependLog l s).sp v = prependLog l (memWrite s s.sp v) :=
    blind_memWrite s.sp v l s
  have hends : writeEnds (prependLog l s) (prependLog l s).sp = writeEnds s s.sp := blindTo_writeEnds s.sp l s
  rw [exec_pushInstr, exec_pushInstr, mapNext_nextIf, hends, hwrite, getReg_prependLog]
  rfl

theorem exec_prependLog (i : Instr) (l : List Diagnostic) (s : State) :
    exec i (prependLog l s) = mapNext (prependLog l) (exec i s) := by
  cases i with
  | nop | halt | ei | di | setSp | jmp => rfl
  | syscall v =>
    by_cases hv : v = 0
    · subst hv
      rfl
    · exact congrArg Host.Outcome.next ((if_neg hv).trans ((blind_addDiag _ l s).trans
        (congrArg (prependLog l) (if_neg hv).symm)))
  | iret =>
    cases hinh : s.inh with
    | true =>
      rw [exec_iret_in_handler hinh, exec_iret_in_handler (s := prependLog l s) hinh, blind_interruptReturn l s]
      rfl
    | false =>
      rw [exec_iret_outside hinh, exec_iret_outside (s := prependLog l s) hinh]
      exact congrArg Host.Outcome.next (blind_addDiag _ l s)
  | movAImm | movBImm | movCImm | movDImm | movAB | movAC | movAD | movBA | movBC | movBD | movCA | movCB | movCD
  | movDA | movDB | movDC => exact congrArg Host.Outcome.next (blind_writeResult _ _ l s)
  | add | sub | and | or | xor | addImm | subImm | andImm | orImm | xorImm =>
    exact congrArg Host.Outcome.next (blind_writeResult _ _ l s)
  | incA | incB | incC | incD | decA | decB | decC | decD =>
    exact congrArg Host.Outcome.next (blind_writeResult _ _ l s)
  | movAMem a | movBMem a | movCMem a | movDMem a => exact congrArg Host.Outcome.next (blind_loadInto _ a l s)
  | movMemA a => exact exec_store_prependLog .A a l s
  | movMemB a => exact exec_store_prependLog .B a l s
  | movMemC a => exact exec_store_prependLog .C a l s
  | movMemD a => exact exec_store_prependLog .D a l s
  | pushA => exact exec_push_prependLog .A l s
  | pushB => exact exec_push_prependLog .B l s
  | pushC => exact exec_push_prependLog .C l s
  | pushD => exact exec_push_prependLog .D l s
  | popA | popB | popC | popD => exact congrArg Host.Outcome.next (blind_popInto _ l s)
  | jz a =>
    rw [(jumpResult a s).2.1, (jumpResult a (prependLog l s)).2.1]
    rfl
  | jnz a =>
    rw [(jumpResult a s).2.2, (jumpResult a (prependLog l s)).2.2]
    rfl

theorem blind_turnBoundary : Blind turnBoundary := fun l s => by
  by_cases h : s.turnStep = 0
  · rw [turnBoundary_start h, turnBoundary_start (s := prependLog l s) h]
    exact blind_requestAll (s.env.boundary.headD []) l { s with env := { s.env with boundary := s.env.boundary.tail } }
  · rw [turnBoundary_inside h, turnBoundary_inside (s := prependLog l s) h]

theorem finishStep_prependLog (l : List Diagnostic) (s : State) :
    finishStep (prependLog l s) = mapNext (prependLog l) (finishStep s) := by
  rw [finishStep, finishStep, mapNext_nextIf, blindTo_pollEnds l s, endStep, blind_poll l s]
  rfl

/-- A step commutes with putting records before the log. -/
theorem step_prependLog (l : List Diagnostic) (s : State) :
    step (prependLog l s) = mapNext (prependLog l) (step s) := by
  have hboundary : turnBoundary (prependLog l s) = prependLog l (turnBoundary s) := blind_turnBoundary l s
  cases hrun : s.run with
  | halted =>
    rw [step_of_halted hrun, step_of_halted (s := prependLog l s) hrun, hboundary]
    rfl
  | running =>
    have hfetch' : fetchInstr (turnBoundary (prependLog l s)) = _ :=
      hboundary ▸ blindRead_fetchInstr l (turnBoundary s)
    cases hfetch : fetchInstr (turnBoundary s) with
    | mk o s1 =>
      rw [hfetch] at hfetch'
      cases o with
      | none =>
        rw [step_of_unrecognized hrun hfetch, step_of_unrecognized (s := prependLog l s) hrun hfetch',
          ← finishStep_prependLog]
        exact congrArg finishStep (blind_addDiag _ l s1)
      | some i =>
        rw [step_of_instr hrun hfetch, step_of_instr (s := prependLog l s) hrun hfetch', exec_prependLog]
        cases exec i s1 with
        | next u => exact finishStep_prependLog l u
        | fault r => rfl
        | refused r => rfl

/-- Settles O53: both steps are the step from the empty log. -/
theorem logIsInvisible : Obligations.LogIsInvisible := by
  intro s t l h
  let s0 : State := { s with diag := [] }
  have hlog (l' : List Diagnostic) : { s with diag := l' } = prependLog l' s0 := by simp [prependLog, s0]
  have hs : s = prependLog s.diag s0 := hlog s.diag
  rw [hs, step_prependLog] at h
  cases h0 : step s0 with
  | next t0 =>
    rw [h0] at h
    cases h
    refine ⟨t0.diag, rfl, ?_⟩
    rw [hlog l, step_prependLog, h0]
    rfl
  | fault r => rw [h0] at h; cases h
  | refused r => rw [h0] at h; cases h

end Sys2Proof.Machine
end

section
/-! A tick is one turn (40_execution_cycle.md R100; entry 8). -/

namespace Sys2Proof.Machine

theorem run_succ_of_step {s u : State} (k : Nat) (h : step s = .next u) : core.run (k + 1) s = core.run k u := by
  simp only [Host.Core.run, show core.step s = .next u from h]

theorem turnLoop_of_step {s u : State} (fuel : Nat) (h : step s = .next u) :
    turnLoop (fuel + 1) s = if u.turnStep = 0 then .next u else turnLoop fuel u := by
  simp only [turnLoop, h]

/-- The rest of a turn, from a step inside it that leaves `fuel` steps to make. -/
theorem turnLoop_steps {fuel : Nat} {s t : State} (hfuel : 1 ≤ fuel) (hleft : s.turnStep + fuel = s.cfg.stepsPerTick)
    (h : turnLoop fuel s = .next t) :
    ∃ k, 1 ≤ k ∧ k ≤ fuel ∧ core.run k s = .next t ∧ t.turnStep = 0 ∧ (t.run = .halted ∨ k = fuel) := by
  induction fuel generalizing s with
  | zero => omega
  | succ fuel ih =>
    rcases step_next_or_refused s with ⟨u, hu⟩ | hrefused
    · have hcount := step_turnStep hu
      have hrun (k : Nat) : core.run (k + 1) s = core.run k u := run_succ_of_step k hu
      rw [turnLoop_of_step fuel hu] at h
      by_cases hend : u.turnStep = 0
      · rw [if_pos hend] at h
        cases h
        refine ⟨1, le_rfl, by omega, hrun 0, hend, ?_⟩
        by_cases hhalt : t.run = .halted
        · exact .inl hhalt
        · have hfull : s.cfg.stepsPerTick ≤ s.turnStep + 1 := by
            by_contra hfull
            rw [if_neg (not_or.2 ⟨hhalt, hfull⟩)] at hcount
            omega
          exact .inr (by omega)
      · rw [if_neg hend] at h
        have hgoes : ¬ (u.run = .halted ∨ s.cfg.stepsPerTick ≤ s.turnStep + 1) := fun hstop =>
          hend (hcount.trans (if_pos hstop))
        rw [if_neg hgoes] at hcount
        obtain ⟨k, hpos, hle, hk, hturn, hlast⟩ := ih (by omega) (by rw [hcount, (step_bank hu).cfg]; omega) h
        exact ⟨k + 1, by omega, by omega, (hrun k).trans hk, hturn, hlast.imp_right (congrArg (· + 1))⟩
    · simp only [turnLoop, hrefused, reduceCtorEq] at h

theorem turnLoop_next_of_plainPorts (fuel : Nat) {s : State} (h : PlainPorts s.cfg) :
    ∃ t, turnLoop fuel s = .next t := by
  induction fuel generalizing s with
  | zero => exact ⟨s, rfl⟩
  | succ fuel ih =>
    obtain ⟨u, hu⟩ := step_next_of_plainPorts h
    rw [turnLoop_of_step fuel hu]
    split
    · exact ⟨u, rfl⟩
    · exact ih ((step_bank hu).cfg ▸ h)

/-- Settles O11: the whole turn is the rest of the turn at its boundary. -/
theorem tickIsOneTurn : Obligations.TickIsOneTurn := fun s hstart =>
  ⟨fun _ h => turnLoop_steps (stepsPerTick_pos s.cfg) (by rw [hstart, Nat.zero_add]) h,
    fun hlo hhi => turnLoop_next_of_plainPorts s.cfg.stepsPerTick ⟨hlo, hhi⟩⟩

end Sys2Proof.Machine
end
